-- ==== Sys2Proof/Word.lean ====
section
/-! DEFINITION. The word types of SRM and the sizes of its memory and port accesses. -/

namespace Sys2Proof

/-- A byte: 8 bits (00_scope.md R13). -/
abbrev Byte := BitVec 8

/-- An `XLEN`-bit value, carried in 64 bits (00_scope.md R8, R9). On SRM32 the upper 32 bits of a held value are 0
(DESIGN CHOICE, log 2). -/
abbrev Word := BitVec 64

/-- The sizes of an access: byte, word (16 bits), dword, qword (00_scope.md R13). -/
inductive Size where
  | b | w | d | q
deriving DecidableEq, Repr

/-- The number of bytes of a size. -/
def Size.bytes : Size → Nat
  | .b => 1
  | .w => 2
  | .d => 4
  | .q => 8

end Sys2Proof
end

