-- ==== Sys2Proof/Config.lean ====
section
/-! DEFINITION. The configuration of a core: the variant (00_scope.md R2, R8) and the open parameters of
92_eei_decisions.md. What has finitely described values is a field of `Config`; what the spec leaves to an arbitrary
function is an opaque constant, a free value. -/

namespace Sys2Proof

/-- `ShAmt` (40_base_arithmetic.md R122, D5): the result of a shift by the operation width or more. -/
inductive ShiftPolicy where
  /-- the literal shift by the whole amount: the spec's default -/
  | literal
  /-- only the low 5 (or 6) bits of the amount count: the alternative the spec names -/
  | lowBits
  /-- any other function: the free value `Config.shAmtOther` -/
  | other
deriving DecidableEq, Repr

/-- `PRIV_VIOLATION` (44_system.md R241, D17): a privileged instruction below its level. -/
inductive PrivPolicy where
  /-- no behaviour: the spec's default -/
  | refuse
  /-- only IP advances -/
  | ignore
  /-- a trap with the implementer's own cause ID -/
  | trap (cause : Word)
deriving DecidableEq, Repr

/-- `UNUSED_FIELD_POLICY` (30_encoding.md R115, D9). -/
inductive UnusedPolicy where
  /-- a non-zero unused field makes the word unassigned: the spec's default -/
  | strict
  /-- unused fields are not looked at -/
  | ignore
deriving DecidableEq, Repr

/-- `ExtIrq.masked_policy` (60_exceptions.md R473, D22): a masked external interrupt is lost, or kept in a queue of at
most `depth` requests (`none`: no bound). -/
inductive IrqPolicy where
  | ignore
  | queue (depth : Option Nat)
deriving DecidableEq, Repr

/-- `LinkGranule` (46_atomic.md R304, D30): which bytes a core watches for a linked datum. -/
inductive LinkGranule where
  /-- exactly the linked bytes: the spec's default -/
  | exact
  /-- every aligned block of `2 ^ log2` bytes that holds a linked byte -/
  | block (log2 : Nat)
deriving DecidableEq, Repr

/-- One region of `MemMap` (20_memory.md R71, R73, D38): the addresses `base` to `base + size - 1` are backed, and
`init` is what they hold at reset from `base` on (0 beyond its end, log 5). Every backed byte is RAM: the spec leaves where
RAM and ROM are to the platform and says nothing of a store to ROM, and a region has no read-only kind (DESIGN CHOICE,
unsafe, log 5). -/
structure Region where
  base : Nat
  size : Nat
  init : List Byte
deriving DecidableEq, Repr

/-- The two shapes of shift that `ShAmt` tells apart by name, and the third (40_base_arithmetic.md R128 to R130). -/
inductive ShiftKind where
  | shr | asr | shl
deriving DecidableEq, Repr

/-- The variant and the open parameters (00_scope.md R8). `NCORES` is 1 (D40, log 22). -/
structure Config where
  /-- `XLEN` is 64 when true, else 32 -/
  is64 : Bool
  extS : Bool
  extM : Bool
  extA : Bool
  extH : Bool
  shAmt : ShiftPolicy
  memMap : List Region
  maskedIrq : IrqPolicy
  privViolation : PrivPolicy
  unusedField : UnusedPolicy
  ifetchCoherent : Bool
  linkGranule : LinkGranule
deriving DecidableEq, Repr

namespace Config

/-- `DivZeroQ` (45_mul_div.md R283, D27): the quotient of a division by zero, for the unsigned and the signed
instructions, as a function of the dividend. A free value (log 7). -/
opaque divZeroQ (signed : Bool) {w : Nat} (dividend : BitVec w) : BitVec w

/-- `DivZeroR` (45_mul_div.md R283, D27): the remainder of a division by zero. A free value (log 7). -/
opaque divZeroR (signed : Bool) {w : Nat} (dividend : BitVec w) : BitVec w

/-- `ShAmt` under `ShiftPolicy.other`: a function of the operation, the operand and the amount. A free value (log 6). -/
opaque shAmtOther (kind : ShiftKind) {w : Nat} (operand amount : BitVec w) : BitVec w

/-- `PortDevice` where no datum was supplied (10_state.md R46, D33): what the device at `port` answers to the read
number `drawn`. A free value (log 8). -/
opaque portDatum (drawn : Nat) (port : Word) (size : Size) : BitVec 32

/-- Which of several waiting external requests is taken: "order are the manufacturer's" (60_exceptions.md R464, R473).
A free value, used modulo the number of requests (log 9). -/
opaque irqPick (waiting : List Word) : Nat

/-- The whole address space of SRM64, backed, nothing loaded (log 5). -/
def wholeSpace : List Region := [⟨0, 2 ^ 64, []⟩]

/-- The configuration of `State.reset`: SRM64SMA, the variant that has every instruction of the table (DESIGN CHOICE,
log 1). `shAmt`, `privViolation`, `unusedField`, `ifetchCoherent` and `linkGranule` are the defaults of 92_eei_decisions.md
("Defaults in one place"); the spec gives no default for `ExtIrq.masked_policy`, and `ignore` is the model's (DESIGN CHOICE,
log 1), as the whole space backed is (log 5). -/
def default : Config where
  is64 := true
  extS := true
  extM := true
  extA := true
  extH := false
  shAmt := .literal
  memMap := wholeSpace
  maskedIrq := .ignore
  privViolation := .refuse
  unusedField := .strict
  ifetchCoherent := false
  linkGranule := .exact

/-- The variant's name by the naming convention (00_scope.md R2, R3). -/
def name (c : Config) : String :=
  (if c.is64 then "SRM64" else "SRM32") ++ (if c.extS then "S" else "") ++ (if c.extM then "M" else "")
    ++ (if c.extA then "A" else "") ++ (if c.extH then "H" else "")

/-- `XLEN` (00_scope.md R8). -/
def xlen (c : Config) : Nat := if c.is64 then 64 else 32

/-- `NREGS` (00_scope.md R8): 16 under H, else 32. -/
def nregs (c : Config) : Nat := if c.extH then 16 else 32

end Config

end Sys2Proof
end

