-- ==== Sys2Proof/Machine/Width.lean ====
section
/-! DEFINITION. The width primitives of 00_scope.md R12 on values of `XLEN` bits carried in 64, and the forced alignment
of addresses. -/

namespace Sys2Proof.Machine

/-- `trunc_XLEN`: the low `XLEN` bits; on SRM32 the upper 32 bits become 0 (log 2). -/
def truncX (c : Config) (v : Word) : Word := if c.is64 then v else (v.setWidth 32).setWidth 64

/-- `sext_XLEN` of a narrower value. -/
def sextX (c : Config) {w : Nat} (v : BitVec w) : Word := truncX c (v.signExtend 64)

/-- `signed_XLEN`: the two's-complement number that the low `XLEN` bits stand for. -/
def signedX (c : Config) (v : Word) : Int := if c.is64 then v.toInt else (v.setWidth 32).toInt

/-- The low 32 bits, the operands of the 32-bit context (00_scope.md R14). -/
def low32 (v : Word) : BitVec 32 := v.setWidth 32

/-- The low `8n` bits of a value, for an access of `n` bytes. -/
def lowBytes : Size → Word → Word
  | .b, v => (v.setWidth 8).setWidth 64
  | .w, v => (v.setWidth 16).setWidth 64
  | .d, v => (v.setWidth 32).setWidth 64
  | .q, v => v

/-- The low `8n` bits of a value widened by copying the top one of them. -/
def signBytes : Size → Word → Word
  | .b, v => (v.setWidth 8).signExtend 64
  | .w, v => (v.setWidth 16).signExtend 64
  | .d, v => (v.setWidth 32).signExtend 64
  | .q, v => v

/-- An accessed datum of `n` bytes widened to `XLEN` bits: sign-extended, or zero-extended (20_memory.md R68). -/
def widen (c : Config) (sz : Size) (signed : Bool) (v : Word) : Word :=
  truncX c (if signed then signBytes sz v else lowBytes sz v)

/-- `align_n`: the low log2(n) address bits forced to 0 (20_memory.md R64, R65; D8, log 21). -/
def alignTo : Size → Word → Word
  | .b, a => a
  | .w, a => a &&& ~~~1#64
  | .d, a => a &&& ~~~3#64
  | .q, a => a &&& ~~~7#64

end Sys2Proof.Machine
end

