-- ==== Sys2Proof/Machine/Flags.lean ====
section
/-! DEFINITION. SRM has no flags (10_state.md R30): carry, borrow and comparisons are computed for a register or for a jump.
All of those computations stand here. -/

namespace Sys2Proof.Machine

/-- Bit `w` of the sum of two `w`-bit numbers (40_base_arithmetic.md R131, 47_srm64.md R396). -/
def carryOut {w : Nat} (a b : BitVec w) : Bool := (a.setWidth (w + 1) + b.setWidth (w + 1)).getLsbD w

/-- Bit `w` of the difference of two `w`-bit numbers (40_base_arithmetic.md R132, 47_srm64.md R397). -/
def borrowOut {w : Nat} (a b : BitVec w) : Bool := (a.setWidth (w + 1) - b.setWidth (w + 1)).getLsbD w

/-- `signed_w(a) < signed_w(b)` (40_base_arithmetic.md R133, 47_srm64.md R398). -/
def signedLess {w : Nat} (a b : BitVec w) : Bool := a.toInt < b.toInt

/-- A truth value as a `w`-bit 0 or 1. -/
def boolBits {w : Nat} (t : Bool) : BitVec w := if t then 1 else 0

/-- The condition of JEQ (42_base_control.md R181). -/
def condEq (a b : Word) : Bool := a = b

/-- The condition of JLT: unsigned (42_base_control.md R182). -/
def condLt (a b : Word) : Bool := a.toNat < b.toNat

/-- The condition of JSLT: signed, all `XLEN` bits (42_base_control.md R183; D31, log 22). -/
def condSlt (c : Config) (a b : Word) : Bool := signedX c a < signedX c b

/-- The condition of JNE (42_base_control.md R184). -/
def condNe (a b : Word) : Bool := a ≠ b

/-- The condition of JGE: unsigned (42_base_control.md R185). -/
def condGe (a b : Word) : Bool := a.toNat ≥ b.toNat

/-- The condition of JSGE: signed, all `XLEN` bits (42_base_control.md R186; D31, log 22). -/
def condSge (c : Config) (a b : Word) : Bool := signedX c a ≥ signedX c b

end Sys2Proof.Machine
end

