-- ==== Sys2Proof/Machine/Alu.lean ====
section
/-! DEFINITION. The arithmetic operations at the operation width `w`, 32 or 64 (00_scope.md R14). Addition, subtraction and
the bitwise operations are those of `BitVec w`, which wrap (40_base_arithmetic.md R144). -/

namespace Sys2Proof.Machine

/-- Logical right shift; an amount of `w` or more falls under `ShAmt` (40_base_arithmetic.md R122, R128; log 6). -/
def aluShr (p : ShiftPolicy) {w : Nat} (a b : BitVec w) : BitVec w :=
  if b.toNat < w then a >>> b.toNat else
    match p with
    | .literal => 0
    | .lowBits => a >>> (b.toNat % w)
    | .other => Config.shAmtOther .shr a b

/-- Arithmetic right shift, the sign bit copied in (40_base_arithmetic.md R122, R129; log 6). -/
def aluAsr (p : ShiftPolicy) {w : Nat} (a b : BitVec w) : BitVec w :=
  if b.toNat < w then a.sshiftRight b.toNat else
    match p with
    | .literal => if a.msb then BitVec.allOnes w else 0
    | .lowBits => a.sshiftRight (b.toNat % w)
    | .other => Config.shAmtOther .asr a b

/-- Left shift (40_base_arithmetic.md R122, R130; log 6). -/
def aluShl (p : ShiftPolicy) {w : Nat} (a b : BitVec w) : BitVec w :=
  if b.toNat < w then a <<< b.toNat else
    match p with
    | .literal => 0
    | .lowBits => a <<< (b.toNat % w)
    | .other => Config.shAmtOther .shl a b

/-- The upper half of the unsigned product (45_mul_div.md R286, 47_srm64.md R412). -/
def aluMulh {w : Nat} (a b : BitVec w) : BitVec w :=
  (a.setWidth (w + w) * b.setWidth (w + w)).extractLsb' w w

/-- The upper half of the signed product (45_mul_div.md R287, 47_srm64.md R413). -/
def aluSmulh {w : Nat} (a b : BitVec w) : BitVec w :=
  (BitVec.ofInt (w + w) (a.toInt * b.toInt)).extractLsb' w w

/-- Unsigned quotient; a zero divisor gives a free value (45_mul_div.md R283, R288; log 7). -/
def aluDiv {w : Nat} (a b : BitVec w) : BitVec w :=
  if b = 0 then Config.divZeroQ false a else BitVec.ofNat w (a.toNat / b.toNat)

/-- Unsigned remainder (45_mul_div.md R283, R291; log 7). -/
def aluMod {w : Nat} (a b : BitVec w) : BitVec w :=
  if b = 0 then Config.divZeroR false a else BitVec.ofNat w (a.toNat % b.toNat)

/-- Signed quotient, truncated toward zero and then to `w` bits (45_mul_div.md R282 to R284, R290; D27, log 22). -/
def aluSdiv {w : Nat} (a b : BitVec w) : BitVec w :=
  if b = 0 then Config.divZeroQ true a else BitVec.ofInt w (a.toInt.tdiv b.toInt)

/-- Signed remainder `a - q * b`, with the sign of the dividend (45_mul_div.md R282 to R284, R292; D27, log 22). -/
def aluSmod {w : Nat} (a b : BitVec w) : BitVec w :=
  if b = 0 then Config.divZeroR true a else BitVec.ofInt w (a.toInt - a.toInt.tdiv b.toInt * b.toInt)

/-- The larger of two values as signed `XLEN`-bit numbers (46_atomic.md R320). -/
def maxX (c : Config) (e v : Word) : Word := if signedX c e < signedX c v then v else e

/-- The smaller of two values as signed `XLEN`-bit numbers (46_atomic.md R320). -/
def minX (c : Config) (e v : Word) : Word := if signedX c v < signedX c e then v else e

end Sys2Proof.Machine
end

