-- ==== Sys2Proof/Machine/Memory.lean ====
section
/-! DEFINITION. Memory as sparse plain data in one canonical form: (address, byte) cells, addresses strictly rising, no
cell equal to what an unlisted address reads as; and the list of addresses that stores have written. -/

namespace Sys2Proof.Machine

/-- Memory: one flat byte-addressed space for fetch and data (10_state.md R45). -/
abbrev Memory := List Host.Cell

/-- What an address that nothing lists reads as: 0 (DESIGN CHOICE, unsafe, log 5). -/
def Memory.unlisted : Byte := 0

/-- The byte at an address. -/
def Memory.read : Memory → Nat → Byte
  | [], _ => Memory.unlisted
  | (k, v) :: m, a => if k = a then v else Memory.read m a

/-- A cell put in its place by address. -/
def Memory.insertCell (a : Nat) (v : Byte) : Memory → Memory
  | [] => [(a, v)]
  | (k, w) :: m => if a < k then (a, v) :: (k, w) :: m else (k, w) :: Memory.insertCell a v m

/-- The memory without any cell at an address. -/
def Memory.erase (a : Nat) : Memory → Memory
  | [] => []
  | (k, w) :: m => if k = a then Memory.erase a m else (k, w) :: Memory.erase a m

/-- One byte written; writing what an unlisted address reads as removes the cell. -/
def Memory.write (m : Memory) (a : Nat) (v : Byte) : Memory :=
  if v = Memory.unlisted then m.erase a else (m.erase a).insertCell a v

/-- The `n` bytes from `a` on as a little-endian number, zero-extended (20_memory.md R60 to R62). -/
def Memory.readLE (m : Memory) (a : Nat) : Nat → Word
  | 0 => 0
  | n + 1 => (m.readLE (a + 1) n) <<< 8 ||| (m.read a).setWidth 64

/-- The low `n` bytes of `v` written little-endian from `a` on (20_memory.md R60 to R62). -/
def Memory.writeLE (m : Memory) (a : Nat) : Nat → Word → Memory
  | 0, _ => m
  | n + 1, v => (m.write a (v.setWidth 8)).writeLE (a + 1) n (v >>> 8)

/-- Bytes placed from an address on: the reset contents of a region (20_memory.md R71). -/
def Memory.load (m : Memory) (a : Nat) : List Byte → Memory
  | [] => m
  | b :: bs => (m.write a b).load (a + 1) bs

/-- The canonical form. -/
def Memory.wf : Memory → Bool
  | [] => true
  | [(_, v)] => v != Memory.unlisted
  | (k, v) :: (k', v') :: m => v != Memory.unlisted && k < k' && Memory.wf ((k', v') :: m)

/-- A rising list of addresses with one more address. -/
def Stored.insert (a : Nat) : List Nat → List Nat
  | [] => [a]
  | k :: l => if a < k then a :: k :: l else if a = k then k :: l else k :: Stored.insert a l

/-- A rising list of addresses with the `n` addresses from `a` on. -/
def Stored.insertRange (l : List Nat) (a : Nat) : Nat → List Nat
  | 0 => l
  | n + 1 => Stored.insertRange (Stored.insert a l) (a + 1) n

/-- A list of addresses without the `n` addresses from `a` on. -/
def Stored.removeRange (a n : Nat) : List Nat → List Nat
  | [] => []
  | k :: l => if a ≤ k ∧ k < a + n then Stored.removeRange a n l else k :: Stored.removeRange a n l

/-- One of the `n` addresses from `a` on is in the list. -/
def Stored.touches (a n : Nat) (l : List Nat) : Bool := l.any fun k => a ≤ k && k < a + n

/-- The list rises strictly. -/
def Stored.wf : List Nat → Bool
  | [] => true
  | [_] => true
  | k :: k' :: l => k < k' && Stored.wf (k' :: l)

/-- Two runs of bytes `[a, a+n)` and `[b, b+m)` have a byte in common. -/
def overlap (a n b m : Nat) : Bool := a < b + m && b < a + n

end Sys2Proof.Machine
end

