-- ==== Sys2Proof/Machine/State.lean ====
section
/-! DEFINITION. The state of one SRM core and of what stands around it (10_state.md R51), the reasons a step can stop, and
the state after reset. -/

namespace Sys2Proof.Machine

/-- Where the machine stops with a fault. -/
inductive Fault where
  /-- Raised by a load, a store, an atomic access or a fetch at an address `MemMap` does not back (20_memory.md R73, log
  18). Safe: the machine stops where the spec gives no next state. -/
  | unbackedAddress
deriving DecidableEq, Repr

/-- Where the spec gives no behaviour (93_implementation_defined.md, section 2). Each is safe: the model goes on nowhere
the spec does not. -/
inductive Refusal where
  /-- Raised by an arm of `exec` whose instruction has no meaning yet: by none. -/
  | notModelled (mnemonic : String)
  /-- Raised by the fetch of a word that is no instruction (30_encoding.md R114, log 17). -/
  | unassignedEncoding
  /-- Raised by the fetch of an instruction whose extension the core has not (30_encoding.md R114, R117, log 17). -/
  | absentExtension
  /-- Raised by the fetch of a word with an unused field that is not 0, under `UnusedPolicy.strict` (R115, log 11). -/
  | unusedField
  /-- Raised by the fetch of an instruction that names r16 to r31 under H (10_state.md R25, log 17). -/
  | absentRegister
  /-- Raised by the fetch when IP is no multiple of 4 (10_state.md R29, log 14). -/
  | misalignedIp
  /-- Raised by the fetch of a byte a store has written, without `IFETCH_COHERENT` (20_memory.md R79, log 12). -/
  | fetchOfModifiedCode
  /-- Raised by CSRR, CSRW, CSRS and CSRC on a reserved number (10_state.md R43, log 15). -/
  | reservedCsr
  /-- Raised by what would enter privilege level 2: a write to mstatus, MRET, SYSRET (10_state.md R33, log 16). -/
  | privilegeLevel2
  /-- Raised by MRET, SYSRET, IN.x and OUT.x below their level under `PrivPolicy.refuse` (44_system.md R241, log 10). -/
  | privilegedBelowLevel
  /-- Raised by an SC.x that overlaps the link without matching it (46_atomic.md R303, log 13). -/
  | scMismatch
deriving DecidableEq, Repr

/-- The ten named CSRs, each `XLEN` bits (10_state.md R31, R33 to R42). -/
structure Csrs where
  mstatus : Word
  miva : Word
  mra : Word
  mcause : Word
  mpriv : Word
  kstatus : Word
  kiva : Word
  kra : Word
  kcause : Word
  kpriv : Word
deriving DecidableEq, Repr

/-- The link: the aligned address and the size of the last LL.x (10_state.md R48). -/
structure Link where
  addr : Word
  size : Size
deriving DecidableEq, Repr

/-- One write to the port space: address, size, and the written bits (10_state.md R46). -/
structure PortWrite where
  addr : Word
  size : Size
  value : Word
deriving DecidableEq, Repr

/-- `PortDevice` (70_reset_and_hazards.md R512; log 8): the data that coming reads receive, the writes done so far,
oldest first, and how many reads have found no datum supplied. -/
structure Ports where
  stream : List (BitVec 32)
  log : List PortWrite
  drawn : Nat
deriving DecidableEq, Repr

/-- A write to memory by another agent (70_reset_and_hazards.md R513). -/
structure ExtWrite where
  addr : Word
  size : Size
  value : Word
deriving DecidableEq, Repr

/-- What comes from outside at one step: an external interrupt request with its cause ID (60_exceptions.md R473, R474; an ID
of 0x0 to 0x4 makes it no request, `requestOf`, log 9), and other agents' writes. -/
structure StepInput where
  irq : Option Word
  writes : List ExtWrite
deriving DecidableEq, Repr

/-- The complete state (10_state.md R51), with the configuration and what the environment holds ready. INVENTORY.md lists
every field with its rule and its reset value. -/
structure State where
  /-- the variant and the open parameters; no step changes it (log 1) -/
  cfg : Config
  /-- r1 to r31; r0 has no storage (10_state.md R20, R21) -/
  regs : Vector Word 31
  /-- the instruction pointer (10_state.md R27) -/
  ip : Word
  /-- the control and status registers (10_state.md R31) -/
  csr : Csrs
  /-- the link (10_state.md R48) -/
  link : Option Link
  /-- memory (10_state.md R45) -/
  mem : Memory
  /-- the addresses stores of this run have written, rising (20_memory.md R79; log 12) -/
  stored : List Nat
  /-- waiting external requests, oldest first (10_state.md R49) -/
  pending : List Word
  /-- what the coming steps receive from outside (log 9) -/
  inputs : List StepInput
  /-- the port devices (log 8) -/
  ports : Ports
deriving DecidableEq, Repr

/-- The reset contents of memory: the regions' `init` bytes, each cut to its region (20_memory.md R71; log 5). -/
def resetMemory (c : Config) : Memory :=
  c.memMap.foldl (fun m r => m.load r.base (r.init.take r.size)) []

/-- The CSRs after reset: priv = 3 (10_state.md R50, D24); every other bit 0 (DESIGN CHOICE, unsafe, log 4). -/
def resetCsrs : Csrs where
  mstatus := 6
  miva := 0
  mra := 0
  mcause := 0
  mpriv := 0
  kstatus := 0
  kiva := 0
  kra := 0
  kcause := 0
  kpriv := 0

/-- A configured core after reset (10_state.md R50, 70_reset_and_hazards.md R500): IP = 0, Machine mode, no link, no
pending request; r1 to r31 are 0 (DESIGN CHOICE, unsafe, log 3); nothing is supplied from outside. -/
def State.resetOf (c : Config) : State where
  cfg := c
  regs := Vector.replicate 31 0
  ip := 0
  csr := resetCsrs
  link := none
  mem := resetMemory c
  stored := []
  pending := []
  inputs := []
  ports := { stream := [], log := [], drawn := 0 }

/-- The machine right after reset, in the configuration `Config.default` (log 1). -/
def State.reset : State := State.resetOf Config.default

end Sys2Proof.Machine
end

