-- ==== Sys2Proof/Syntax.lean ====
section
/-! DEFINITION. The instructions of SRM: one constructor per row of spec/opcode_table.json, with the operands its
encoding admits and nothing else. -/

namespace Sys2Proof

/-- The number of a general register: 5 bits, 0 to 31 (10_state.md R20). -/
abbrev Reg := BitVec 5

/-- The assembler names of the registers r0 to r31 (10_state.md R23; r21 to r31 by 90_conflicts.md C6). -/
def regNames : List String :=
  ["zr", "at", "gp", "tp", "rp", "sp", "fp", "a0", "a1", "a2", "s0", "s1", "s2", "t0", "t1", "t2",
   "t3", "t4", "t5", "t6", "t7", "s3", "s4", "s5", "s6", "s7", "s8", "a3", "a4", "a5", "a6", "a7"]

/-- An instruction. `imm` is the raw immediate field; `csr` is a CSR number; `sel` a bit position; `iorw` the bits
I, O, R, W of a fence, I the most significant (30_encoding.md R92 to R99). -/
inductive Instr where
  -- Base register arithmetic (40_base_arithmetic.md R120 to R133): opcode 0x00, fn7 0x0.
  | add (rd rs1 rs2 : Reg)
  | sub (rd rs1 rs2 : Reg)
  | and (rd rs1 rs2 : Reg)
  | or (rd rs1 rs2 : Reg)
  | xor (rd rs1 rs2 : Reg)
  | shr (rd rs1 rs2 : Reg)
  | asr (rd rs1 rs2 : Reg)
  | shl (rd rs1 rs2 : Reg)
  | cch (rd rs1 rs2 : Reg)
  | bch (rd rs1 rs2 : Reg)
  | slt (rd rs1 rs2 : Reg)
  -- Base immediate arithmetic (40_base_arithmetic.md R121, R134 to R143): opcode 0x01.
  | addi (rd rs1 : Reg) (imm : BitVec 12)
  | andi (rd rs1 : Reg) (imm : BitVec 12)
  | ori (rd rs1 : Reg) (imm : BitVec 12)
  | xori (rd rs1 : Reg) (imm : BitVec 12)
  | shri (rd rs1 : Reg) (imm : BitVec 12)
  | asri (rd rs1 : Reg) (imm : BitVec 12)
  | shli (rd rs1 : Reg) (imm : BitVec 12)
  | cchi (rd rs1 : Reg) (imm : BitVec 12)
  | bchi (rd rs1 : Reg) (imm : BitVec 12)
  | slti (rd rs1 : Reg) (imm : BitVec 12)
  -- LUI (41_base_lui_memory.md R150): opcode 0x02.
  | lui (rd : Reg) (imm : BitVec 21)
  -- Stores (41_base_lui_memory.md R151 to R155): opcode 0x03.
  | stb (rs1 rs2 : Reg) (imm : BitVec 12)
  | stw (rs1 rs2 : Reg) (imm : BitVec 12)
  | std (rs1 rs2 : Reg) (imm : BitVec 12)
  -- Loads (41_base_lui_memory.md R156 to R161): opcode 0x04.
  | ldb (rd rs1 : Reg) (imm : BitVec 12)
  | ldsb (rd rs1 : Reg) (imm : BitVec 12)
  | ldw (rd rs1 : Reg) (imm : BitVec 12)
  | ldsw (rd rs1 : Reg) (imm : BitVec 12)
  | ldd (rd rs1 : Reg) (imm : BitVec 12)
  -- Jumps (42_base_control.md R172 to R186): opcodes 0x05, 0x06, 0x07.
  | jal (rd : Reg) (imm : BitVec 21)
  | jalr (rd rs1 : Reg) (imm : BitVec 12)
  | jeq (rs1 rs2 : Reg) (imm : BitVec 12)
  | jlt (rs1 rs2 : Reg) (imm : BitVec 12)
  | jslt (rs1 rs2 : Reg) (imm : BitVec 12)
  | jne (rs1 rs2 : Reg) (imm : BitVec 12)
  | jge (rs1 rs2 : Reg) (imm : BitVec 12)
  | jsge (rs1 rs2 : Reg) (imm : BitVec 12)
  -- Base system extension (44_system.md R240 to R268): opcode 0x08.
  | syscall
  | sysbreak
  | mret
  | sysret
  | csrr (rd : Reg) (csr : BitVec 12)
  | csrw (rs1 : Reg) (csr : BitVec 12)
  | csrs (csr : BitVec 12) (sel : BitVec 5)
  | csrc (csr : BitVec 12) (sel : BitVec 5)
  | fence (iorw : BitVec 4)
  | inb (rd rs1 : Reg)
  | inw (rd rs1 : Reg)
  | ind (rd rs1 : Reg)
  | insb (rd rs1 : Reg)
  | insw (rd rs1 : Reg)
  | outb (rs1 rs2 : Reg)
  | outw (rs1 rs2 : Reg)
  | outd (rs1 rs2 : Reg)
  -- Multiplication and division (45_mul_div.md R280 to R292): opcode 0x00, fn7 0x1.
  | mul (rd rs1 rs2 : Reg)
  | mulh (rd rs1 rs2 : Reg)
  | smulh (rd rs1 rs2 : Reg)
  | div (rd rs1 rs2 : Reg)
  | sdiv (rd rs1 rs2 : Reg)
  | mod (rd rs1 rs2 : Reg)
  | smod (rd rs1 rs2 : Reg)
  -- Atomic extension (46_atomic.md R300 to R357): opcode 0x09.
  | llB (rd rs1 : Reg)
  | llW (rd rs1 : Reg)
  | llD (rd rs1 : Reg)
  | llSb (rd rs1 : Reg)
  | llSw (rd rs1 : Reg)
  | scB (rd rs1 rs2 : Reg)
  | scW (rd rs1 rs2 : Reg)
  | scD (rd rs1 rs2 : Reg)
  | acmpxchgB (rd rs1 rs2 : Reg)
  | acmpxchgW (rd rs1 rs2 : Reg)
  | acmpxchgD (rd rs1 rs2 : Reg)
  | axaddB (rd rs1 rs2 : Reg)
  | axaddW (rd rs1 rs2 : Reg)
  | axaddD (rd rs1 rs2 : Reg)
  | axaddSb (rd rs1 rs2 : Reg)
  | axaddSw (rd rs1 rs2 : Reg)
  | axsubB (rd rs1 rs2 : Reg)
  | axsubW (rd rs1 rs2 : Reg)
  | axsubD (rd rs1 rs2 : Reg)
  | axsubSb (rd rs1 rs2 : Reg)
  | axsubSw (rd rs1 rs2 : Reg)
  | axandB (rd rs1 rs2 : Reg)
  | axandW (rd rs1 rs2 : Reg)
  | axandD (rd rs1 rs2 : Reg)
  | axandSb (rd rs1 rs2 : Reg)
  | axandSw (rd rs1 rs2 : Reg)
  | axiorB (rd rs1 rs2 : Reg)
  | axiorW (rd rs1 rs2 : Reg)
  | axiorD (rd rs1 rs2 : Reg)
  | axiorSb (rd rs1 rs2 : Reg)
  | axiorSw (rd rs1 rs2 : Reg)
  | axxorB (rd rs1 rs2 : Reg)
  | axxorW (rd rs1 rs2 : Reg)
  | axxorD (rd rs1 rs2 : Reg)
  | axxorSb (rd rs1 rs2 : Reg)
  | axxorSw (rd rs1 rs2 : Reg)
  | axmaxB (rd rs1 rs2 : Reg)
  | axmaxW (rd rs1 rs2 : Reg)
  | axmaxD (rd rs1 rs2 : Reg)
  | axmaxSb (rd rs1 rs2 : Reg)
  | axmaxSw (rd rs1 rs2 : Reg)
  | axminB (rd rs1 rs2 : Reg)
  | axminW (rd rs1 rs2 : Reg)
  | axminD (rd rs1 rs2 : Reg)
  | axminSb (rd rs1 rs2 : Reg)
  | axminSw (rd rs1 rs2 : Reg)
  -- SRM64 memory (47_srm64.md R384 to R386).
  | stq (rs1 rs2 : Reg) (imm : BitVec 12)
  | ldq (rd rs1 : Reg) (imm : BitVec 12)
  | ldsd (rd rs1 : Reg) (imm : BitVec 12)
  -- SRM64 register arithmetic (47_srm64.md R387 to R398): opcode 0x00, fn7 0x2.
  | addQ (rd rs1 rs2 : Reg)
  | subQ (rd rs1 rs2 : Reg)
  | andQ (rd rs1 rs2 : Reg)
  | orQ (rd rs1 rs2 : Reg)
  | xorQ (rd rs1 rs2 : Reg)
  | shrQ (rd rs1 rs2 : Reg)
  | asrQ (rd rs1 rs2 : Reg)
  | shlQ (rd rs1 rs2 : Reg)
  | cchQ (rd rs1 rs2 : Reg)
  | bchQ (rd rs1 rs2 : Reg)
  | sltQ (rd rs1 rs2 : Reg)
  -- SRM64 immediate arithmetic (47_srm64.md R399 to R409): opcode 0x0A.
  | addiQ (rd rs1 : Reg) (imm : BitVec 12)
  | andiQ (rd rs1 : Reg) (imm : BitVec 12)
  | oriQ (rd rs1 : Reg) (imm : BitVec 12)
  | xoriQ (rd rs1 : Reg) (imm : BitVec 12)
  | shriQ (rd rs1 : Reg) (imm : BitVec 12)
  | asriQ (rd rs1 : Reg) (imm : BitVec 12)
  | shliQ (rd rs1 : Reg) (imm : BitVec 12)
  | cchiQ (rd rs1 : Reg) (imm : BitVec 12)
  | bchiQ (rd rs1 : Reg) (imm : BitVec 12)
  | sltiQ (rd rs1 : Reg) (imm : BitVec 12)
  -- SRM64 multiplication and division (47_srm64.md R410 to R417): opcode 0x00, fn7 0x1.
  | mulQ (rd rs1 rs2 : Reg)
  | mulhQ (rd rs1 rs2 : Reg)
  | smulhQ (rd rs1 rs2 : Reg)
  | divQ (rd rs1 rs2 : Reg)
  | sdivQ (rd rs1 rs2 : Reg)
  | modQ (rd rs1 rs2 : Reg)
  | smodQ (rd rs1 rs2 : Reg)
  -- SRM64 atomics (47_srm64.md R430 to R448): opcode 0x09.
  | llQ (rd rs1 : Reg)
  | llSd (rd rs1 : Reg)
  | scQ (rd rs1 rs2 : Reg)
  | acmpxchgQ (rd rs1 rs2 : Reg)
  | axaddQ (rd rs1 rs2 : Reg)
  | axaddSd (rd rs1 rs2 : Reg)
  | axsubQ (rd rs1 rs2 : Reg)
  | axsubSd (rd rs1 rs2 : Reg)
  | axandQ (rd rs1 rs2 : Reg)
  | axandSd (rd rs1 rs2 : Reg)
  | axiorQ (rd rs1 rs2 : Reg)
  | axiorSd (rd rs1 rs2 : Reg)
  | axxorQ (rd rs1 rs2 : Reg)
  | axxorSd (rd rs1 rs2 : Reg)
  | axmaxQ (rd rs1 rs2 : Reg)
  | axmaxSd (rd rs1 rs2 : Reg)
  | axminQ (rd rs1 rs2 : Reg)
  | axminSd (rd rs1 rs2 : Reg)
deriving DecidableEq, Repr

end Sys2Proof
end

