-- ==== Sys2Proof/Machine/Operands.lean ====
section
/-! DEFINITION. The operand forms: registers, immediates, effective addresses and jump targets. -/

namespace Sys2Proof.Machine

/-- `x[i]`: r0 reads 0 (10_state.md R21). -/
def State.readReg (s : State) (r : Reg) : Word := if r = 0 then 0 else s.regs.getD (r.toNat - 1) 0

/-- `x[i] <- v`: the low `XLEN` bits; a write to r0 is discarded (00_scope.md R12, 10_state.md R21). -/
def State.writeReg (s : State) (r : Reg) (v : Word) : State :=
  if r = 0 then s else { s with regs := s.regs.setIfInBounds (r.toNat - 1) (truncX s.cfg v) }

/-- A 12-bit immediate in the 32-bit context: `sext_32` (40_base_arithmetic.md R121; D6, log 20). -/
def imm32 (imm : BitVec 12) : BitVec 32 := imm.signExtend 32

/-- A 12-bit immediate in the 64-bit context: `sext_64` (47_srm64.md R399; D6, log 20). -/
def imm64 (imm : BitVec 12) : Word := imm.signExtend 64

/-- The value of LUI: the 21 bits in bits 31:11, zeros in bits 10:0 (41_base_lui_memory.md R150). -/
def luiValue (imm : BitVec 21) : BitVec 32 := imm ++ 0#11

/-- The effective address `trunc_XLEN(x[rs1] + sext_XLEN(imm))` (20_memory.md R72; D4, log 19). -/
def State.effAddr (s : State) (rs1 : Reg) (imm : BitVec 12) : Word :=
  truncX s.cfg (s.readReg rs1 + imm.signExtend 64)

/-- A target relative to the jump itself, `trunc_XLEN(IP + sext_XLEN(imm))` (42_base_control.md R171; D4, log 19). -/
def State.relTarget (s : State) {w : Nat} (imm : BitVec w) : Word := truncX s.cfg (s.ip + imm.signExtend 64)

/-- The address of the next instruction in sequence, `trunc_XLEN(IP + 4)` (10_state.md R28; D4, log 19). -/
def State.nextIp (s : State) : Word := truncX s.cfg (s.ip + 4)

end Sys2Proof.Machine
end

