-- ==== Sys2Proof/Machine/Ops.lean ====
section
/-! DEFINITION. The named operations over registers, memory, the link, the CSRs, traps, ports and external requests. Every
meaning is built from these. -/

namespace Sys2Proof.Machine

/-- What `exec` and `step` answer. -/
abbrev Result := Host.Outcome State Fault Refusal

/-! ## Sequencing -/

/-- `IP <- IP + 4` (10_state.md R28). -/
def State.advance (s : State) : State := { s with ip := s.nextIp }

/-- A register result and the next instruction: the end of most instructions (40_base_arithmetic.md R120). -/
def State.setReg (s : State) (rd : Reg) (v : Word) : State := (s.writeReg rd v).advance

/-! ## Arithmetic -/

/-- An operation in the 32-bit context: the low halves in, the result sign-extended (40_base_arithmetic.md R120, R121,
47_srm64.md R382). -/
def arith32 (op : BitVec 32 → BitVec 32 → BitVec 32) (rd rs1 : Reg) (b : BitVec 32) (s : State) : State :=
  s.setReg rd (sextX s.cfg (op (low32 (s.readReg rs1)) b))

/-- An operation in the 64-bit context (47_srm64.md R387, R399, R410). -/
def arith64 (op : Word → Word → Word) (rd rs1 : Reg) (b : Word) (s : State) : State :=
  s.setReg rd (op (s.readReg rs1) b)

/-! ## Memory -/

/-- `MemMap` backs the address (20_memory.md R73; D38, log 5, log 18). -/
def backed (mm : List Region) (a : Nat) : Bool := mm.any fun r => r.base ≤ a && a < r.base + r.size

/-- `MemMap` backs the `n` addresses from `a` on. -/
def backedRange (mm : List Region) (a : Nat) : Nat → Bool
  | 0 => true
  | n + 1 => backed mm a && backedRange mm (a + 1) n

/-- All bytes of an access are backed. -/
def State.accessible (s : State) (a : Word) (sz : Size) : Bool := backedRange s.cfg.memMap a.toNat sz.bytes

/-- `MemRead(a, n)` at an aligned address, which no access wraps from (20_memory.md R62, R66). -/
def State.memRead (s : State) (a : Word) (sz : Size) : Word := s.mem.readLE a.toNat sz.bytes

/-- The first byte a link watches (46_atomic.md R304, `LinkGranule`; log 13). -/
def Link.watchStart (g : LinkGranule) (l : Link) : Nat :=
  match g with
  | .exact => l.addr.toNat
  | .block k => l.addr.toNat / 2 ^ k * 2 ^ k

/-- The byte after the last one a link watches. -/
def Link.watchEnd (g : LinkGranule) (l : Link) : Nat :=
  match g with
  | .exact => l.addr.toNat + l.size.bytes
  | .block k => ((l.addr.toNat + l.size.bytes - 1) / 2 ^ k + 1) * 2 ^ k

/-- A write to `[a, a+n)` touches the watched bytes. -/
def Link.watches (g : LinkGranule) (l : Link) (a n : Nat) : Bool := a < l.watchEnd g && l.watchStart g < a + n

/-- The link after a write to `[a, a+n)`, even of an equal value (46_atomic.md R304; D30, log 13). -/
def breakLink (g : LinkGranule) (link : Option Link) (a n : Nat) : Option Link :=
  match link with
  | none => none
  | some l => if l.watches g a n then none else some l

/-- A write to memory by any agent: the bytes and the link (20_memory.md R62, 46_atomic.md R304). -/
def State.poke (s : State) (a : Word) (sz : Size) (v : Word) : State :=
  { s with
    mem := s.mem.writeLE a.toNat sz.bytes v
    link := breakLink s.cfg.linkGranule s.link a.toNat sz.bytes }

/-- `MemWrite(a, n, v)` by this core, at an aligned address; the addresses count as stored to (20_memory.md R62, R79). -/
def State.memWrite (s : State) (a : Word) (sz : Size) (v : Word) : State :=
  { s.poke a sz v with stored := Stored.insertRange s.stored a.toNat sz.bytes }

/-- A load: the datum widened into `rd` (41_base_lui_memory.md R156). -/
def loadInto (sz : Size) (signed : Bool) (rd rs1 : Reg) (imm : BitVec 12) (s : State) : Result :=
  let a := alignTo sz (s.effAddr rs1 imm)
  if s.accessible a sz then .next (s.setReg rd (widen s.cfg sz signed (s.memRead a sz)))
  else .fault .unbackedAddress

/-- A store of the low bytes of `rs2` (41_base_lui_memory.md R151). -/
def storeFrom (sz : Size) (rs1 rs2 : Reg) (imm : BitVec 12) (s : State) : Result :=
  let a := alignTo sz (s.effAddr rs1 imm)
  if s.accessible a sz then .next (s.memWrite a sz (s.readReg rs2)).advance
  else .fault .unbackedAddress

/-! ## Atomics -/

/-- The address of an atomic access: `rs1` alone, aligned (46_atomic.md R301). -/
def State.atomAddr (s : State) (sz : Size) (rs1 : Reg) : Word := alignTo sz (s.readReg rs1)

/-- LL.x: the datum into `rd`, and the link (46_atomic.md R302, R306). -/
def loadLink (sz : Size) (signed : Bool) (rd rs1 : Reg) (s : State) : Result :=
  let a := s.atomAddr sz rs1
  if s.accessible a sz then
    .next { s.setReg rd (widen s.cfg sz signed (s.memRead a sz)) with link := some ⟨a, sz⟩ }
  else .fault .unbackedAddress

/-- SC.x: 1 and the store when the link is this address and size, 0 when it is elsewhere or none (46_atomic.md R303, R311;
D30, log 13). -/
def storeConditional (sz : Size) (rd rs1 rs2 : Reg) (s : State) : Result :=
  let a := s.atomAddr sz rs1
  match s.link with
  | none => .next (s.setReg rd 0)
  | some l =>
    if l = ⟨a, sz⟩ then
      if s.accessible a sz then .next ((s.memWrite a sz (s.readReg rs2)).setReg rd 1)
      else .fault .unbackedAddress
    else if overlap a.toNat sz.bytes l.addr.toNat l.size.bytes then .refused .scMismatch
    else .next (s.setReg rd 0)

/-- ACMPXCHG.x: `rs2` stored when the low bytes of `rd` equal memory, and the old memory in `rd`, zero-extended
(46_atomic.md R316; D29, log 22). -/
def compareExchange (sz : Size) (rd rs1 rs2 : Reg) (s : State) : Result :=
  let a := s.atomAddr sz rs1
  if s.accessible a sz then
    let old := s.memRead a sz
    let s' := if lowBytes sz (s.readReg rd) = old then s.memWrite a sz (s.readReg rs2) else s
    .next (s'.setReg rd (widen s.cfg sz false old))
  else .fault .unbackedAddress

/-- AX*.x: the old `rd` to memory, and `op` of the widened memory and the whole of `rs2` to `rd` (46_atomic.md R320; D28,
log 22). -/
def exchangeOperate (op : Word → Word → Word) (sz : Size) (signed : Bool) (rd rs1 rs2 : Reg) (s : State) : Result :=
  let a := s.atomAddr sz rs1
  if s.accessible a sz then
    let e := widen s.cfg sz signed (s.memRead a sz)
    .next ((s.memWrite a sz (s.readReg rd)).setReg rd (op e (s.readReg rs2)))
  else .fault .unbackedAddress

/-! ## Jumps -/

/-- A conditional jump (42_base_control.md R180). -/
def jumpIf (taken : Bool) (imm : BitVec 12) (s : State) : State :=
  if taken then { s with ip := s.relTarget imm } else s.advance

/-- A jump that leaves the address of the next instruction in `rd` (42_base_control.md R172, R173). -/
def jumpLink (rd : Reg) (target : Word) (s : State) : State :=
  { s.writeReg rd s.nextIp with ip := target }

/-! ## Privilege and CSRs -/

/-- The field mstatus[2:1] (10_state.md R33). -/
def privBits (mstatus : Word) : BitVec 2 := mstatus.extractLsb' 1 2

/-- mstatus with another privilege mode in bits 2:1. -/
def withPriv (mstatus : Word) (p : BitVec 2) : Word := (mstatus &&& ~~~6#64) ||| (p.setWidth 64 <<< 1)

/-- The current privilege mode: 0 User, 1 Kernel, 3 Machine (10_state.md R33; D35). -/
def State.priv (s : State) : BitVec 2 := privBits s.csr.mstatus

/-- The state in another privilege mode. -/
def State.setPriv (s : State) (p : BitVec 2) : State :=
  { s with csr := { s.csr with mstatus := withPriv s.csr.mstatus p } }

/-- The number of a named CSR read from the table of 10_state.md R31; `none` for a reserved number. -/
def Csrs.read? (c : Csrs) (n : BitVec 12) : Option Word :=
  match n.toNat with
  | 0 => some c.mstatus
  | 1 => some c.miva
  | 2 => some c.mra
  | 3 => some c.mcause
  | 4 => some c.mpriv
  | 2048 => some c.kstatus
  | 2049 => some c.kiva
  | 2050 => some c.kra
  | 2051 => some c.kcause
  | 2052 => some c.kpriv
  | _ => none

/-- The CSRs with the one of a number replaced; a reserved number changes nothing. -/
def Csrs.write (c : Csrs) (n : BitVec 12) (v : Word) : Csrs :=
  match n.toNat with
  | 0 => { c with mstatus := v }
  | 1 => { c with miva := v }
  | 2 => { c with mra := v }
  | 3 => { c with mcause := v }
  | 4 => { c with mpriv := v }
  | 2048 => { c with kstatus := v }
  | 2049 => { c with kiva := v }
  | 2050 => { c with kra := v }
  | 2051 => { c with kcause := v }
  | 2052 => { c with kpriv := v }
  | _ => c

/-- `need(n) = 3 - n[11:10]`, the lowest level that may access a CSR (10_state.md R32; D12, log 15). -/
def csrNeed (n : BitVec 12) : BitVec 2 := 3 - n.extractLsb' 10 2

/-- The current level may access the CSR (44_system.md R246). -/
def State.csrAllowed (s : State) (n : BitVec 12) : Bool := csrNeed n ≤ s.priv

/-- CSRR: the CSR, or 0 without privilege (44_system.md R246, R247; reserved numbers: D14, log 15). -/
def csrRead (rd : Reg) (n : BitVec 12) (s : State) : Result :=
  match s.csr.read? n with
  | none => .refused .reservedCsr
  | some v => .next (s.setReg rd (if s.csrAllowed n then v else 0))

/-- CSRW, CSRS, CSRC: the CSR becomes `f` of its value, or nothing happens without privilege; the value 2 in mstatus[2:1]
is refused (44_system.md R246, R248 to R251; D13 to D15, log 15, log 16). -/
def csrModify (f : Word → Word) (n : BitVec 12) (s : State) : Result :=
  match s.csr.read? n with
  | none => .refused .reservedCsr
  | some v =>
    if s.csrAllowed n then
      if n = 0 ∧ privBits (f v) = 2 then .refused .privilegeLevel2
      else .next { s with csr := s.csr.write n (truncX s.cfg (f v)) }.advance
    else .next s.advance

/-! ## Taking a trap and returning from one -/

/-- Trap entry from User level, to Kernel mode at `kiva` (60_exceptions.md R468, R472). -/
def State.enterKernel (s : State) (cause : Word) : State :=
  { s with
    ip := s.csr.kiva
    csr := { s.csr with
      kra := s.ip
      kcause := truncX s.cfg cause
      kpriv := s.priv.setWidth 64
      mstatus := withPriv s.csr.mstatus 1 } }

/-- Trap entry from Kernel or Machine level, to Machine mode at `miva`; mpriv is the level left (60_exceptions.md R466,
R467, R472; D19, log 21). -/
def State.enterMachine (s : State) (cause : Word) : State :=
  { s with
    ip := s.csr.miva
    csr := { s.csr with
      mra := s.ip
      mcause := truncX s.cfg cause
      mpriv := s.priv.setWidth 64
      mstatus := withPriv s.csr.mstatus 3 } }

/-- Taking a trap, whatever raised it: the current level alone chooses the entry (60_exceptions.md R466 to R471). Level 2
has no entry (R469, log 16). -/
def takeTrap (cause : Word) (s : State) : Result :=
  if s.priv = 0 then .next (s.enterKernel cause)
  else if s.priv = 2 then .refused .privilegeLevel2
  else .next (s.enterMachine cause)

/-- Returning from a trap: IP and the privilege mode, nothing else; only bits 1:0 of the saved level count (44_system.md
R244, R245, 60_exceptions.md R476; D20, log 21). -/
def returnFromTrap (target saved : Word) (s : State) : Result :=
  let p := saved.extractLsb' 0 2
  if p = 2 then .refused .privilegeLevel2
  else .next { s.setPriv p with ip := target }

/-- `PRIV_VIOLATION` (44_system.md R241; D17, log 10). -/
def privViolation (s : State) : Result :=
  match s.cfg.privViolation with
  | .refuse => .refused .privilegedBelowLevel
  | .ignore => .next s.advance
  | .trap cause => takeTrap cause s

/-- An instruction that needs a level (44_system.md R241). -/
def privileged (need : BitVec 2) (body : State → Result) (s : State) : Result :=
  if need ≤ s.priv then body s else privViolation s

/-! ## Ports -/

/-- `PortRead(a, n)`: the next supplied datum, or a free value where none is supplied (10_state.md R46,
70_reset_and_hazards.md R512; log 8). -/
def State.portDatum (s : State) (a : Word) (sz : Size) : BitVec 32 :=
  match s.ports.stream with
  | d :: _ => d
  | [] => Config.portDatum s.ports.drawn a sz

/-- The ports after a read: the supplied datum is used up, or one more free value is drawn. -/
def Ports.afterRead (p : Ports) : Ports :=
  match p.stream with
  | _ :: rest => { p with stream := rest }
  | [] => { p with drawn := p.drawn + 1 }

/-- IN.x: the low bits of the datum widened into `rd` (44_system.md R260 to R265). -/
def portIn (sz : Size) (signed : Bool) (rd rs1 : Reg) (s : State) : Result :=
  let d := s.portDatum (alignTo sz (s.readReg rs1)) sz
  .next { s.setReg rd (widen s.cfg sz signed (d.setWidth 64)) with ports := s.ports.afterRead }

/-- OUT.x: the low bits of `rs2` handed to the port (44_system.md R260, R266 to R268). -/
def portOut (sz : Size) (rs1 rs2 : Reg) (s : State) : Result :=
  let w : PortWrite := ⟨alignTo sz (s.readReg rs1), sz, lowBytes sz (s.readReg rs2)⟩
  .next { s.advance with ports := { s.ports with log := s.ports.log ++ [w] } }

/-! ## What comes from outside -/

/-- An external request is permitted at the current level (60_exceptions.md R461, R473). -/
def State.irqPermitted (s : State) : Bool :=
  s.priv = 0 || (s.priv = 1 && s.csr.kstatus.getLsbD 0) || (s.priv = 3 && s.csr.mstatus.getLsbD 0)

/-- What `ExtIrq` may supply: a request whose ID, `XLEN` bits, is not one of 0x0 to 0x4. An entry of the input list with
another ID is no request (60_exceptions.md R474; D22; log 9). -/
def requestOf (c : Config) (irq : Option Word) : Option Word :=
  match irq with
  | none => none
  | some id => if 4 < (truncX c id).toNat then some (truncX c id) else none

/-- The requests that wait at a step: the queue and the new one (60_exceptions.md R473; log 9). -/
def waiting (policy : IrqPolicy) (pending : List Word) (irq : Option Word) : List Word :=
  match policy with
  | .ignore => irq.toList
  | .queue _ => pending ++ irq.toList

/-- Which of the waiting requests is taken: the only one, or a free choice (60_exceptions.md R464; log 9). -/
def pick (waiting : List Word) : Nat :=
  if waiting.length ≤ 1 then 0 else Config.irqPick waiting % waiting.length

/-- What stays in the queue when no request is taken: a new one only where there is room (60_exceptions.md R473; DESIGN
CHOICE, log 9). -/
def keepWaiting (policy : IrqPolicy) (pending : List Word) (irq : Option Word) : List Word :=
  match policy with
  | .ignore => pending
  | .queue none => pending ++ irq.toList
  | .queue (some depth) => if pending.length < depth then pending ++ irq.toList else pending

/-- The external request this step takes, if any, and the state with the queue after it (60_exceptions.md R464, R473,
R474). A core without S takes no trap and has no queue (10_state.md R51). At a step where requests are permitted, a new
one that finds a bounded queue full is not dropped: one of the waiting requests, the new one among them, is taken, and the
others stay, so that the queue is as long as before. The spec leaves the depth and the order to the manufacturer (DESIGN
CHOICE, unsafe, log 9). -/
def sampleIrq (irq : Option Word) (s : State) : Option Word × State :=
  if s.cfg.extS then
    let request := requestOf s.cfg irq
    let ws := waiting s.cfg.maskedIrq s.pending request
    match ws[pick ws]? with
    | none => (none, s)
    | some cause =>
      if s.irqPermitted then
        (some cause,
          match s.cfg.maskedIrq with
          | .ignore => s
          | .queue _ => { s with pending := ws.eraseIdx (pick ws) })
      else (none, { s with pending := keepWaiting s.cfg.maskedIrq s.pending request })
  else (none, s)

/-- A write by another agent: aligned, and without effect where nothing backs it (70_reset_and_hazards.md R513; log 9). -/
def externalWrite (s : State) (w : ExtWrite) : State :=
  let a := alignTo w.size (truncX s.cfg w.addr)
  if s.accessible a w.size then s.poke a w.size w.value else s

/-- The state after this step's external writes, its input taken off the list, and the step's request. -/
def takeInput (s : State) : Option Word × State :=
  match s.inputs with
  | [] => (none, s)
  | i :: rest => (i.irq, i.writes.foldl externalWrite { s with inputs := rest })

end Sys2Proof.Machine
end

