-- ==== Sys2Proof/Machine/Arith.lean ====
section
/-! DEFINITION. The base arithmetic of opcodes 0x00 and 0x01, and LUI (40_base_arithmetic.md, 41_base_lui_memory.md). -/

namespace Sys2Proof.Machine

/-- ADD: addition, wrapping, in the 32-bit context (40_base_arithmetic.md R123). -/
def execAdd (rd rs1 rs2 : Reg) (s : State) : Result :=
  .next (arith32 (· + ·) rd rs1 (low32 (s.readReg rs2)) s)

/-- SUB: subtraction rs1 - rs2, wrapping, in the 32-bit context (40_base_arithmetic.md R124). -/
def execSub (rd rs1 rs2 : Reg) (s : State) : Result :=
  .next (arith32 (· - ·) rd rs1 (low32 (s.readReg rs2)) s)

/-- AND: bitwise AND, in the 32-bit context (40_base_arithmetic.md R125). -/
def execAnd (rd rs1 rs2 : Reg) (s : State) : Result :=
  .next (arith32 (· &&& ·) rd rs1 (low32 (s.readReg rs2)) s)

/-- OR: bitwise OR, in the 32-bit context (40_base_arithmetic.md R126). -/
def execOr (rd rs1 rs2 : Reg) (s : State) : Result :=
  .next (arith32 (· ||| ·) rd rs1 (low32 (s.readReg rs2)) s)

/-- XOR: bitwise XOR, in the 32-bit context (40_base_arithmetic.md R127). -/
def execXor (rd rs1 rs2 : Reg) (s : State) : Result :=
  .next (arith32 (· ^^^ ·) rd rs1 (low32 (s.readReg rs2)) s)

/-- SHR: logical right shift, in the 32-bit context (40_base_arithmetic.md R128). -/
def execShr (rd rs1 rs2 : Reg) (s : State) : Result :=
  .next (arith32 (aluShr s.cfg.shAmt) rd rs1 (low32 (s.readReg rs2)) s)

/-- ASR: arithmetic right shift, in the 32-bit context (40_base_arithmetic.md R129). -/
def execAsr (rd rs1 rs2 : Reg) (s : State) : Result :=
  .next (arith32 (aluAsr s.cfg.shAmt) rd rs1 (low32 (s.readReg rs2)) s)

/-- SHL: logical left shift, in the 32-bit context (40_base_arithmetic.md R130). -/
def execShl (rd rs1 rs2 : Reg) (s : State) : Result :=
  .next (arith32 (aluShl s.cfg.shAmt) rd rs1 (low32 (s.readReg rs2)) s)

/-- CCH: carry out of the addition, in the 32-bit context (40_base_arithmetic.md R131). -/
def execCch (rd rs1 rs2 : Reg) (s : State) : Result :=
  .next (arith32 (fun a b => boolBits (carryOut a b)) rd rs1 (low32 (s.readReg rs2)) s)

/-- BCH: borrow out of the subtraction, in the 32-bit context (40_base_arithmetic.md R132). -/
def execBch (rd rs1 rs2 : Reg) (s : State) : Result :=
  .next (arith32 (fun a b => boolBits (borrowOut a b)) rd rs1 (low32 (s.readReg rs2)) s)

/-- SLT: signed less than, in the 32-bit context (40_base_arithmetic.md R133). -/
def execSlt (rd rs1 rs2 : Reg) (s : State) : Result :=
  .next (arith32 (fun a b => boolBits (signedLess a b)) rd rs1 (low32 (s.readReg rs2)) s)

/-- ADDI: addition, wrapping with the sign-extended immediate, in the 32-bit context (40_base_arithmetic.md R134). -/
def execAddi (rd rs1 : Reg) (imm : BitVec 12) (s : State) : Result :=
  .next (arith32 (· + ·) rd rs1 (imm32 imm) s)

/-- ANDI: bitwise AND with the sign-extended immediate, in the 32-bit context (40_base_arithmetic.md R135). -/
def execAndi (rd rs1 : Reg) (imm : BitVec 12) (s : State) : Result :=
  .next (arith32 (· &&& ·) rd rs1 (imm32 imm) s)

/-- ORI: bitwise OR with the sign-extended immediate, in the 32-bit context (40_base_arithmetic.md R136). -/
def execOri (rd rs1 : Reg) (imm : BitVec 12) (s : State) : Result :=
  .next (arith32 (· ||| ·) rd rs1 (imm32 imm) s)

/-- XORI: bitwise XOR with the sign-extended immediate, in the 32-bit context (40_base_arithmetic.md R137). -/
def execXori (rd rs1 : Reg) (imm : BitVec 12) (s : State) : Result :=
  .next (arith32 (· ^^^ ·) rd rs1 (imm32 imm) s)

/-- SHRI: logical right shift with the sign-extended immediate, in the 32-bit context (40_base_arithmetic.md R138). -/
def execShri (rd rs1 : Reg) (imm : BitVec 12) (s : State) : Result :=
  .next (arith32 (aluShr s.cfg.shAmt) rd rs1 (imm32 imm) s)

/-- ASRI: arithmetic right shift with the sign-extended immediate, in the 32-bit context (40_base_arithmetic.md R139).
-/
def execAsri (rd rs1 : Reg) (imm : BitVec 12) (s : State) : Result :=
  .next (arith32 (aluAsr s.cfg.shAmt) rd rs1 (imm32 imm) s)

/-- SHLI: logical left shift with the sign-extended immediate, in the 32-bit context (40_base_arithmetic.md R140). -/
def execShli (rd rs1 : Reg) (imm : BitVec 12) (s : State) : Result :=
  .next (arith32 (aluShl s.cfg.shAmt) rd rs1 (imm32 imm) s)

/-- CCHI: carry out of the addition with the sign-extended immediate, in the 32-bit context (40_base_arithmetic.md
R141). -/
def execCchi (rd rs1 : Reg) (imm : BitVec 12) (s : State) : Result :=
  .next (arith32 (fun a b => boolBits (carryOut a b)) rd rs1 (imm32 imm) s)

/-- BCHI: borrow out of the subtraction with the sign-extended immediate, in the 32-bit context (40_base_arithmetic.md
R142). -/
def execBchi (rd rs1 : Reg) (imm : BitVec 12) (s : State) : Result :=
  .next (arith32 (fun a b => boolBits (borrowOut a b)) rd rs1 (imm32 imm) s)

/-- SLTI: signed less than with the sign-extended immediate, in the 32-bit context (40_base_arithmetic.md R143). -/
def execSlti (rd rs1 : Reg) (imm : BitVec 12) (s : State) : Result :=
  .next (arith32 (fun a b => boolBits (signedLess a b)) rd rs1 (imm32 imm) s)

/-- LUI: the 21 bits of `imm` shifted left by 11, sign-extended from bit 31 (D7, log 20) (41_base_lui_memory.md R150).
-/
def execLui (rd : Reg) (imm : BitVec 21) (s : State) : Result :=
  .next (s.setReg rd (sextX s.cfg (luiValue imm)))

end Sys2Proof.Machine
end

