-- ==== Sys2Proof/Machine/Atomic.lean ====
section
/-! DEFINITION. The atomic instructions (46_atomic.md, 47_srm64.md R430 to R448). -/

namespace Sys2Proof.Machine

/-- LL.B: load and link byte (46_atomic.md R306). -/
def execLlB (rd rs1 : Reg) (s : State) : Result :=
  loadLink .b false rd rs1 s

/-- LL.W: load and link word (46_atomic.md R307). -/
def execLlW (rd rs1 : Reg) (s : State) : Result :=
  loadLink .w false rd rs1 s

/-- LL.D: load and link dword (46_atomic.md R308). -/
def execLlD (rd rs1 : Reg) (s : State) : Result :=
  loadLink .d false rd rs1 s

/-- LL.SB: load and link signed byte (46_atomic.md R309). -/
def execLlSb (rd rs1 : Reg) (s : State) : Result :=
  loadLink .b true rd rs1 s

/-- LL.SW: load and link signed word (46_atomic.md R310). -/
def execLlSw (rd rs1 : Reg) (s : State) : Result :=
  loadLink .w true rd rs1 s

/-- SC.B: store conditional byte (46_atomic.md R312). -/
def execScB (rd rs1 rs2 : Reg) (s : State) : Result :=
  storeConditional .b rd rs1 rs2 s

/-- SC.W: store conditional word (46_atomic.md R313). -/
def execScW (rd rs1 rs2 : Reg) (s : State) : Result :=
  storeConditional .w rd rs1 rs2 s

/-- SC.D: store conditional dword (46_atomic.md R314). -/
def execScD (rd rs1 rs2 : Reg) (s : State) : Result :=
  storeConditional .d rd rs1 rs2 s

/-- ACMPXCHG.B: compare and exchange byte (46_atomic.md R317). -/
def execAcmpxchgB (rd rs1 rs2 : Reg) (s : State) : Result :=
  compareExchange .b rd rs1 rs2 s

/-- ACMPXCHG.W: compare and exchange word (46_atomic.md R318). -/
def execAcmpxchgW (rd rs1 rs2 : Reg) (s : State) : Result :=
  compareExchange .w rd rs1 rs2 s

/-- ACMPXCHG.D: compare and exchange dword (46_atomic.md R319). -/
def execAcmpxchgD (rd rs1 rs2 : Reg) (s : State) : Result :=
  compareExchange .d rd rs1 rs2 s

/-- AXADD.B: exchange and operate (sum), byte (46_atomic.md R321). -/
def execAxaddB (rd rs1 rs2 : Reg) (s : State) : Result :=
  exchangeOperate (· + ·) .b false rd rs1 rs2 s

/-- AXADD.W: exchange and operate (sum), word (46_atomic.md R322). -/
def execAxaddW (rd rs1 rs2 : Reg) (s : State) : Result :=
  exchangeOperate (· + ·) .w false rd rs1 rs2 s

/-- AXADD.D: exchange and operate (sum), dword (46_atomic.md R323). -/
def execAxaddD (rd rs1 rs2 : Reg) (s : State) : Result :=
  exchangeOperate (· + ·) .d false rd rs1 rs2 s

/-- AXADD.SB: exchange and operate (sum), signed byte (46_atomic.md R324). -/
def execAxaddSb (rd rs1 rs2 : Reg) (s : State) : Result :=
  exchangeOperate (· + ·) .b true rd rs1 rs2 s

/-- AXADD.SW: exchange and operate (sum), signed word (46_atomic.md R325). -/
def execAxaddSw (rd rs1 rs2 : Reg) (s : State) : Result :=
  exchangeOperate (· + ·) .w true rd rs1 rs2 s

/-- AXSUB.B: exchange and operate (memory minus register), byte (46_atomic.md R326). -/
def execAxsubB (rd rs1 rs2 : Reg) (s : State) : Result :=
  exchangeOperate (· - ·) .b false rd rs1 rs2 s

/-- AXSUB.W: exchange and operate (memory minus register), word (46_atomic.md R327). -/
def execAxsubW (rd rs1 rs2 : Reg) (s : State) : Result :=
  exchangeOperate (· - ·) .w false rd rs1 rs2 s

/-- AXSUB.D: exchange and operate (memory minus register), dword (46_atomic.md R328). -/
def execAxsubD (rd rs1 rs2 : Reg) (s : State) : Result :=
  exchangeOperate (· - ·) .d false rd rs1 rs2 s

/-- AXSUB.SB: exchange and operate (memory minus register), signed byte (46_atomic.md R329). -/
def execAxsubSb (rd rs1 rs2 : Reg) (s : State) : Result :=
  exchangeOperate (· - ·) .b true rd rs1 rs2 s

/-- AXSUB.SW: exchange and operate (memory minus register), signed word (46_atomic.md R330). -/
def execAxsubSw (rd rs1 rs2 : Reg) (s : State) : Result :=
  exchangeOperate (· - ·) .w true rd rs1 rs2 s

/-- AXAND.B: exchange and operate (AND), byte (46_atomic.md R331). -/
def execAxandB (rd rs1 rs2 : Reg) (s : State) : Result :=
  exchangeOperate (· &&& ·) .b false rd rs1 rs2 s

/-- AXAND.W: exchange and operate (AND), word (46_atomic.md R332). -/
def execAxandW (rd rs1 rs2 : Reg) (s : State) : Result :=
  exchangeOperate (· &&& ·) .w false rd rs1 rs2 s

/-- AXAND.D: exchange and operate (AND), dword (46_atomic.md R333). -/
def execAxandD (rd rs1 rs2 : Reg) (s : State) : Result :=
  exchangeOperate (· &&& ·) .d false rd rs1 rs2 s

/-- AXAND.SB: exchange and operate (AND), signed byte (46_atomic.md R334). -/
def execAxandSb (rd rs1 rs2 : Reg) (s : State) : Result :=
  exchangeOperate (· &&& ·) .b true rd rs1 rs2 s

/-- AXAND.SW: exchange and operate (AND), signed word (46_atomic.md R335). -/
def execAxandSw (rd rs1 rs2 : Reg) (s : State) : Result :=
  exchangeOperate (· &&& ·) .w true rd rs1 rs2 s

/-- AXIOR.B: exchange and operate (OR), byte (46_atomic.md R336). -/
def execAxiorB (rd rs1 rs2 : Reg) (s : State) : Result :=
  exchangeOperate (· ||| ·) .b false rd rs1 rs2 s

/-- AXIOR.W: exchange and operate (OR), word (46_atomic.md R337). -/
def execAxiorW (rd rs1 rs2 : Reg) (s : State) : Result :=
  exchangeOperate (· ||| ·) .w false rd rs1 rs2 s

/-- AXIOR.D: exchange and operate (OR), dword (46_atomic.md R338). -/
def execAxiorD (rd rs1 rs2 : Reg) (s : State) : Result :=
  exchangeOperate (· ||| ·) .d false rd rs1 rs2 s

/-- AXIOR.SB: exchange and operate (OR), signed byte (46_atomic.md R339). -/
def execAxiorSb (rd rs1 rs2 : Reg) (s : State) : Result :=
  exchangeOperate (· ||| ·) .b true rd rs1 rs2 s

/-- AXIOR.SW: exchange and operate (OR), signed word (46_atomic.md R340). -/
def execAxiorSw (rd rs1 rs2 : Reg) (s : State) : Result :=
  exchangeOperate (· ||| ·) .w true rd rs1 rs2 s

/-- AXXOR.B: exchange and operate (XOR), byte (46_atomic.md R341). -/
def execAxxorB (rd rs1 rs2 : Reg) (s : State) : Result :=
  exchangeOperate (· ^^^ ·) .b false rd rs1 rs2 s

/-- AXXOR.W: exchange and operate (XOR), word (46_atomic.md R342). -/
def execAxxorW (rd rs1 rs2 : Reg) (s : State) : Result :=
  exchangeOperate (· ^^^ ·) .w false rd rs1 rs2 s

/-- AXXOR.D: exchange and operate (XOR), dword (46_atomic.md R343). -/
def execAxxorD (rd rs1 rs2 : Reg) (s : State) : Result :=
  exchangeOperate (· ^^^ ·) .d false rd rs1 rs2 s

/-- AXXOR.SB: exchange and operate (XOR), signed byte (46_atomic.md R344). -/
def execAxxorSb (rd rs1 rs2 : Reg) (s : State) : Result :=
  exchangeOperate (· ^^^ ·) .b true rd rs1 rs2 s

/-- AXXOR.SW: exchange and operate (XOR), signed word (46_atomic.md R345). -/
def execAxxorSw (rd rs1 rs2 : Reg) (s : State) : Result :=
  exchangeOperate (· ^^^ ·) .w true rd rs1 rs2 s

/-- AXMAX.B: exchange and operate (signed larger), byte (46_atomic.md R346). -/
def execAxmaxB (rd rs1 rs2 : Reg) (s : State) : Result :=
  exchangeOperate (maxX s.cfg) .b false rd rs1 rs2 s

/-- AXMAX.W: exchange and operate (signed larger), word (46_atomic.md R347). -/
def execAxmaxW (rd rs1 rs2 : Reg) (s : State) : Result :=
  exchangeOperate (maxX s.cfg) .w false rd rs1 rs2 s

/-- AXMAX.D: exchange and operate (signed larger), dword (46_atomic.md R348). -/
def execAxmaxD (rd rs1 rs2 : Reg) (s : State) : Result :=
  exchangeOperate (maxX s.cfg) .d false rd rs1 rs2 s

/-- AXMAX.SB: exchange and operate (signed larger), signed byte (46_atomic.md R349). -/
def execAxmaxSb (rd rs1 rs2 : Reg) (s : State) : Result :=
  exchangeOperate (maxX s.cfg) .b true rd rs1 rs2 s

/-- AXMAX.SW: exchange and operate (signed larger), signed word (46_atomic.md R350). -/
def execAxmaxSw (rd rs1 rs2 : Reg) (s : State) : Result :=
  exchangeOperate (maxX s.cfg) .w true rd rs1 rs2 s

/-- AXMIN.B: exchange and operate (signed smaller), byte (46_atomic.md R351). -/
def execAxminB (rd rs1 rs2 : Reg) (s : State) : Result :=
  exchangeOperate (minX s.cfg) .b false rd rs1 rs2 s

/-- AXMIN.W: exchange and operate (signed smaller), word (46_atomic.md R352). -/
def execAxminW (rd rs1 rs2 : Reg) (s : State) : Result :=
  exchangeOperate (minX s.cfg) .w false rd rs1 rs2 s

/-- AXMIN.D: exchange and operate (signed smaller), dword (46_atomic.md R353). -/
def execAxminD (rd rs1 rs2 : Reg) (s : State) : Result :=
  exchangeOperate (minX s.cfg) .d false rd rs1 rs2 s

/-- AXMIN.SB: exchange and operate (signed smaller), signed byte (46_atomic.md R354). -/
def execAxminSb (rd rs1 rs2 : Reg) (s : State) : Result :=
  exchangeOperate (minX s.cfg) .b true rd rs1 rs2 s

/-- AXMIN.SW: exchange and operate (signed smaller), signed word (46_atomic.md R355). -/
def execAxminSw (rd rs1 rs2 : Reg) (s : State) : Result :=
  exchangeOperate (minX s.cfg) .w true rd rs1 rs2 s

/-- LL.Q: load and link qword (47_srm64.md R431). -/
def execLlQ (rd rs1 : Reg) (s : State) : Result :=
  loadLink .q false rd rs1 s

/-- LL.SD: load and link signed dword (47_srm64.md R432). -/
def execLlSd (rd rs1 : Reg) (s : State) : Result :=
  loadLink .d true rd rs1 s

/-- SC.Q: store conditional qword (47_srm64.md R433). -/
def execScQ (rd rs1 rs2 : Reg) (s : State) : Result :=
  storeConditional .q rd rs1 rs2 s

/-- ACMPXCHG.Q: compare and exchange qword (47_srm64.md R434). -/
def execAcmpxchgQ (rd rs1 rs2 : Reg) (s : State) : Result :=
  compareExchange .q rd rs1 rs2 s

/-- AXADD.Q: exchange and operate (sum), qword (47_srm64.md R435). -/
def execAxaddQ (rd rs1 rs2 : Reg) (s : State) : Result :=
  exchangeOperate (· + ·) .q false rd rs1 rs2 s

/-- AXADD.SD: exchange and operate (sum), signed dword (47_srm64.md R436). -/
def execAxaddSd (rd rs1 rs2 : Reg) (s : State) : Result :=
  exchangeOperate (· + ·) .d true rd rs1 rs2 s

/-- AXSUB.Q: exchange and operate (memory minus register), qword (47_srm64.md R437). -/
def execAxsubQ (rd rs1 rs2 : Reg) (s : State) : Result :=
  exchangeOperate (· - ·) .q false rd rs1 rs2 s

/-- AXSUB.SD: exchange and operate (memory minus register), signed dword (47_srm64.md R438). -/
def execAxsubSd (rd rs1 rs2 : Reg) (s : State) : Result :=
  exchangeOperate (· - ·) .d true rd rs1 rs2 s

/-- AXAND.Q: exchange and operate (AND), qword (47_srm64.md R439). -/
def execAxandQ (rd rs1 rs2 : Reg) (s : State) : Result :=
  exchangeOperate (· &&& ·) .q false rd rs1 rs2 s

/-- AXAND.SD: exchange and operate (AND), signed dword (47_srm64.md R440). -/
def execAxandSd (rd rs1 rs2 : Reg) (s : State) : Result :=
  exchangeOperate (· &&& ·) .d true rd rs1 rs2 s

/-- AXIOR.Q: exchange and operate (OR), qword (47_srm64.md R441). -/
def execAxiorQ (rd rs1 rs2 : Reg) (s : State) : Result :=
  exchangeOperate (· ||| ·) .q false rd rs1 rs2 s

/-- AXIOR.SD: exchange and operate (OR), signed dword (47_srm64.md R442). -/
def execAxiorSd (rd rs1 rs2 : Reg) (s : State) : Result :=
  exchangeOperate (· ||| ·) .d true rd rs1 rs2 s

/-- AXXOR.Q: exchange and operate (XOR), qword (47_srm64.md R443). -/
def execAxxorQ (rd rs1 rs2 : Reg) (s : State) : Result :=
  exchangeOperate (· ^^^ ·) .q false rd rs1 rs2 s

/-- AXXOR.SD: exchange and operate (XOR), signed dword (47_srm64.md R444). -/
def execAxxorSd (rd rs1 rs2 : Reg) (s : State) : Result :=
  exchangeOperate (· ^^^ ·) .d true rd rs1 rs2 s

/-- AXMAX.Q: exchange and operate (signed larger), qword (47_srm64.md R445). -/
def execAxmaxQ (rd rs1 rs2 : Reg) (s : State) : Result :=
  exchangeOperate (maxX s.cfg) .q false rd rs1 rs2 s

/-- AXMAX.SD: exchange and operate (signed larger), signed dword (47_srm64.md R446). -/
def execAxmaxSd (rd rs1 rs2 : Reg) (s : State) : Result :=
  exchangeOperate (maxX s.cfg) .d true rd rs1 rs2 s

/-- AXMIN.Q: exchange and operate (signed smaller), qword (47_srm64.md R447). -/
def execAxminQ (rd rs1 rs2 : Reg) (s : State) : Result :=
  exchangeOperate (minX s.cfg) .q false rd rs1 rs2 s

/-- AXMIN.SD: exchange and operate (signed smaller), signed dword (47_srm64.md R448). -/
def execAxminSd (rd rs1 rs2 : Reg) (s : State) : Result :=
  exchangeOperate (minX s.cfg) .d true rd rs1 rs2 s

end Sys2Proof.Machine
end

