-- ==== Sys2Proof/Machine/Jump.lean ====
section
/-! DEFINITION. Jumps (42_base_control.md). -/

namespace Sys2Proof.Machine

/-- JAL: jump relative to IP, with the return address in `rd` (42_base_control.md R172). -/
def execJal (rd : Reg) (imm : BitVec 21) (s : State) : Result :=
  .next (jumpLink rd (s.relTarget imm) s)

/-- JALR: jump to the old `rs1` plus `imm`, with the return address in `rd` (42_base_control.md R173). -/
def execJalr (rd rs1 : Reg) (imm : BitVec 12) (s : State) : Result :=
  .next (jumpLink rd (s.effAddr rs1 imm) s)

/-- JEQ: jump if equal (42_base_control.md R181). -/
def execJeq (rs1 rs2 : Reg) (imm : BitVec 12) (s : State) : Result :=
  .next (jumpIf (condEq (s.readReg rs1) (s.readReg rs2)) imm s)

/-- JLT: jump if unsigned less (42_base_control.md R182). -/
def execJlt (rs1 rs2 : Reg) (imm : BitVec 12) (s : State) : Result :=
  .next (jumpIf (condLt (s.readReg rs1) (s.readReg rs2)) imm s)

/-- JSLT: jump if signed less (42_base_control.md R183). -/
def execJslt (rs1 rs2 : Reg) (imm : BitVec 12) (s : State) : Result :=
  .next (jumpIf (condSlt s.cfg (s.readReg rs1) (s.readReg rs2)) imm s)

/-- JNE: jump if not equal (42_base_control.md R184). -/
def execJne (rs1 rs2 : Reg) (imm : BitVec 12) (s : State) : Result :=
  .next (jumpIf (condNe (s.readReg rs1) (s.readReg rs2)) imm s)

/-- JGE: jump if unsigned greater or equal (42_base_control.md R185). -/
def execJge (rs1 rs2 : Reg) (imm : BitVec 12) (s : State) : Result :=
  .next (jumpIf (condGe (s.readReg rs1) (s.readReg rs2)) imm s)

/-- JSGE: jump if signed greater or equal (42_base_control.md R186). -/
def execJsge (rs1 rs2 : Reg) (imm : BitVec 12) (s : State) : Result :=
  .next (jumpIf (condSge s.cfg (s.readReg rs1) (s.readReg rs2)) imm s)

end Sys2Proof.Machine
end

