-- ==== Sys2Proof/Machine/LoadStore.lean ====
section
/-! DEFINITION. Loads and stores (41_base_lui_memory.md, 47_srm64.md R384 to R386). -/

namespace Sys2Proof.Machine

/-- STB: store byte (41_base_lui_memory.md R153). -/
def execStb (rs1 rs2 : Reg) (imm : BitVec 12) (s : State) : Result :=
  storeFrom .b rs1 rs2 imm s

/-- STW: store word (41_base_lui_memory.md R154). -/
def execStw (rs1 rs2 : Reg) (imm : BitVec 12) (s : State) : Result :=
  storeFrom .w rs1 rs2 imm s

/-- STD: store dword (41_base_lui_memory.md R155). -/
def execStd (rs1 rs2 : Reg) (imm : BitVec 12) (s : State) : Result :=
  storeFrom .d rs1 rs2 imm s

/-- LDB: load byte (41_base_lui_memory.md R157). -/
def execLdb (rd rs1 : Reg) (imm : BitVec 12) (s : State) : Result :=
  loadInto .b false rd rs1 imm s

/-- LDSB: load signed byte (41_base_lui_memory.md R158). -/
def execLdsb (rd rs1 : Reg) (imm : BitVec 12) (s : State) : Result :=
  loadInto .b true rd rs1 imm s

/-- LDW: load word (41_base_lui_memory.md R159). -/
def execLdw (rd rs1 : Reg) (imm : BitVec 12) (s : State) : Result :=
  loadInto .w false rd rs1 imm s

/-- LDSW: load signed word (41_base_lui_memory.md R160). -/
def execLdsw (rd rs1 : Reg) (imm : BitVec 12) (s : State) : Result :=
  loadInto .w true rd rs1 imm s

/-- LDD: load dword (41_base_lui_memory.md R161). -/
def execLdd (rd rs1 : Reg) (imm : BitVec 12) (s : State) : Result :=
  loadInto .d false rd rs1 imm s

/-- STQ: store qword (47_srm64.md R384). -/
def execStq (rs1 rs2 : Reg) (imm : BitVec 12) (s : State) : Result :=
  storeFrom .q rs1 rs2 imm s

/-- LDQ: load qword (47_srm64.md R385). -/
def execLdq (rd rs1 : Reg) (imm : BitVec 12) (s : State) : Result :=
  loadInto .q false rd rs1 imm s

/-- LDSD: load signed dword (47_srm64.md R386). -/
def execLdsd (rd rs1 : Reg) (imm : BitVec 12) (s : State) : Result :=
  loadInto .d true rd rs1 imm s

end Sys2Proof.Machine
end

