-- ==== Sys2Proof/Machine/MulDiv.lean ====
section
/-! DEFINITION. Multiplication and division, 32-bit and `.q` (45_mul_div.md, 47_srm64.md R410 to R418). -/

namespace Sys2Proof.Machine

/-- MUL: low half of the product, in the 32-bit context (45_mul_div.md R285). -/
def execMul (rd rs1 rs2 : Reg) (s : State) : Result :=
  .next (arith32 (· * ·) rd rs1 (low32 (s.readReg rs2)) s)

/-- MULH: high half of the unsigned product, in the 32-bit context (45_mul_div.md R286). -/
def execMulh (rd rs1 rs2 : Reg) (s : State) : Result :=
  .next (arith32 aluMulh rd rs1 (low32 (s.readReg rs2)) s)

/-- SMULH: high half of the signed product, in the 32-bit context (45_mul_div.md R287). -/
def execSmulh (rd rs1 rs2 : Reg) (s : State) : Result :=
  .next (arith32 aluSmulh rd rs1 (low32 (s.readReg rs2)) s)

/-- DIV: unsigned quotient, in the 32-bit context (45_mul_div.md R288). -/
def execDiv (rd rs1 rs2 : Reg) (s : State) : Result :=
  .next (arith32 aluDiv rd rs1 (low32 (s.readReg rs2)) s)

/-- SDIV: signed quotient, in the 32-bit context (45_mul_div.md R290). -/
def execSdiv (rd rs1 rs2 : Reg) (s : State) : Result :=
  .next (arith32 aluSdiv rd rs1 (low32 (s.readReg rs2)) s)

/-- MOD: unsigned remainder, in the 32-bit context (45_mul_div.md R291). -/
def execMod (rd rs1 rs2 : Reg) (s : State) : Result :=
  .next (arith32 aluMod rd rs1 (low32 (s.readReg rs2)) s)

/-- SMOD: signed remainder, in the 32-bit context (45_mul_div.md R292). -/
def execSmod (rd rs1 rs2 : Reg) (s : State) : Result :=
  .next (arith32 aluSmod rd rs1 (low32 (s.readReg rs2)) s)

/-- MUL.Q: low half of the product, in the 64-bit context (47_srm64.md R411). -/
def execMulQ (rd rs1 rs2 : Reg) (s : State) : Result :=
  .next (arith64 (· * ·) rd rs1 (s.readReg rs2) s)

/-- MULH.Q: high half of the unsigned product, in the 64-bit context (47_srm64.md R412). -/
def execMulhQ (rd rs1 rs2 : Reg) (s : State) : Result :=
  .next (arith64 aluMulh rd rs1 (s.readReg rs2) s)

/-- SMULH.Q: high half of the signed product, in the 64-bit context (47_srm64.md R413). -/
def execSmulhQ (rd rs1 rs2 : Reg) (s : State) : Result :=
  .next (arith64 aluSmulh rd rs1 (s.readReg rs2) s)

/-- DIV.Q: unsigned quotient, in the 64-bit context (47_srm64.md R414). -/
def execDivQ (rd rs1 rs2 : Reg) (s : State) : Result :=
  .next (arith64 aluDiv rd rs1 (s.readReg rs2) s)

/-- SDIV.Q: signed quotient, in the 64-bit context (47_srm64.md R415). -/
def execSdivQ (rd rs1 rs2 : Reg) (s : State) : Result :=
  .next (arith64 aluSdiv rd rs1 (s.readReg rs2) s)

/-- MOD.Q: unsigned remainder, in the 64-bit context (47_srm64.md R416). -/
def execModQ (rd rs1 rs2 : Reg) (s : State) : Result :=
  .next (arith64 aluMod rd rs1 (s.readReg rs2) s)

/-- SMOD.Q: signed remainder, in the 64-bit context (47_srm64.md R417). -/
def execSmodQ (rd rs1 rs2 : Reg) (s : State) : Result :=
  .next (arith64 aluSmod rd rs1 (s.readReg rs2) s)

end Sys2Proof.Machine
end

