-- ==== Sys2Proof/Machine/Qword.lean ====
section
/-! DEFINITION. The `.q` arithmetic of SRM64 (47_srm64.md R387 to R409). -/

namespace Sys2Proof.Machine

/-- ADD.Q: addition, wrapping, in the 64-bit context (47_srm64.md R388). -/
def execAddQ (rd rs1 rs2 : Reg) (s : State) : Result :=
  .next (arith64 (· + ·) rd rs1 (s.readReg rs2) s)

/-- SUB.Q: subtraction rs1 - rs2, wrapping, in the 64-bit context (47_srm64.md R389). -/
def execSubQ (rd rs1 rs2 : Reg) (s : State) : Result :=
  .next (arith64 (· - ·) rd rs1 (s.readReg rs2) s)

/-- AND.Q: bitwise AND, in the 64-bit context (47_srm64.md R390). -/
def execAndQ (rd rs1 rs2 : Reg) (s : State) : Result :=
  .next (arith64 (· &&& ·) rd rs1 (s.readReg rs2) s)

/-- OR.Q: bitwise OR, in the 64-bit context (47_srm64.md R391). -/
def execOrQ (rd rs1 rs2 : Reg) (s : State) : Result :=
  .next (arith64 (· ||| ·) rd rs1 (s.readReg rs2) s)

/-- XOR.Q: bitwise XOR, in the 64-bit context (47_srm64.md R392). -/
def execXorQ (rd rs1 rs2 : Reg) (s : State) : Result :=
  .next (arith64 (· ^^^ ·) rd rs1 (s.readReg rs2) s)

/-- SHR.Q: logical right shift, in the 64-bit context (47_srm64.md R393). -/
def execShrQ (rd rs1 rs2 : Reg) (s : State) : Result :=
  .next (arith64 (aluShr s.cfg.shAmt) rd rs1 (s.readReg rs2) s)

/-- ASR.Q: arithmetic right shift, in the 64-bit context (47_srm64.md R394). -/
def execAsrQ (rd rs1 rs2 : Reg) (s : State) : Result :=
  .next (arith64 (aluAsr s.cfg.shAmt) rd rs1 (s.readReg rs2) s)

/-- SHL.Q: logical left shift, in the 64-bit context (47_srm64.md R395). -/
def execShlQ (rd rs1 rs2 : Reg) (s : State) : Result :=
  .next (arith64 (aluShl s.cfg.shAmt) rd rs1 (s.readReg rs2) s)

/-- CCH.Q: carry out of the addition, in the 64-bit context (47_srm64.md R396). -/
def execCchQ (rd rs1 rs2 : Reg) (s : State) : Result :=
  .next (arith64 (fun a b => boolBits (carryOut a b)) rd rs1 (s.readReg rs2) s)

/-- BCH.Q: borrow out of the subtraction, in the 64-bit context (47_srm64.md R397). -/
def execBchQ (rd rs1 rs2 : Reg) (s : State) : Result :=
  .next (arith64 (fun a b => boolBits (borrowOut a b)) rd rs1 (s.readReg rs2) s)

/-- SLT.Q: signed less than, in the 64-bit context (47_srm64.md R398). -/
def execSltQ (rd rs1 rs2 : Reg) (s : State) : Result :=
  .next (arith64 (fun a b => boolBits (signedLess a b)) rd rs1 (s.readReg rs2) s)

/-- ADDI.Q: addition, wrapping with the sign-extended immediate, in the 64-bit context (47_srm64.md R400). -/
def execAddiQ (rd rs1 : Reg) (imm : BitVec 12) (s : State) : Result :=
  .next (arith64 (· + ·) rd rs1 (imm64 imm) s)

/-- ANDI.Q: bitwise AND with the sign-extended immediate, in the 64-bit context (47_srm64.md R401). -/
def execAndiQ (rd rs1 : Reg) (imm : BitVec 12) (s : State) : Result :=
  .next (arith64 (· &&& ·) rd rs1 (imm64 imm) s)

/-- ORI.Q: bitwise OR with the sign-extended immediate, in the 64-bit context (47_srm64.md R402). -/
def execOriQ (rd rs1 : Reg) (imm : BitVec 12) (s : State) : Result :=
  .next (arith64 (· ||| ·) rd rs1 (imm64 imm) s)

/-- XORI.Q: bitwise XOR with the sign-extended immediate, in the 64-bit context (47_srm64.md R403). -/
def execXoriQ (rd rs1 : Reg) (imm : BitVec 12) (s : State) : Result :=
  .next (arith64 (· ^^^ ·) rd rs1 (imm64 imm) s)

/-- SHRI.Q: logical right shift with the sign-extended immediate, in the 64-bit context (47_srm64.md R404). -/
def execShriQ (rd rs1 : Reg) (imm : BitVec 12) (s : State) : Result :=
  .next (arith64 (aluShr s.cfg.shAmt) rd rs1 (imm64 imm) s)

/-- ASRI.Q: arithmetic right shift with the sign-extended immediate, in the 64-bit context (47_srm64.md R405). -/
def execAsriQ (rd rs1 : Reg) (imm : BitVec 12) (s : State) : Result :=
  .next (arith64 (aluAsr s.cfg.shAmt) rd rs1 (imm64 imm) s)

/-- SHLI.Q: logical left shift with the sign-extended immediate, in the 64-bit context (47_srm64.md R406). -/
def execShliQ (rd rs1 : Reg) (imm : BitVec 12) (s : State) : Result :=
  .next (arith64 (aluShl s.cfg.shAmt) rd rs1 (imm64 imm) s)

/-- CCHI.Q: carry out of the addition with the sign-extended immediate, in the 64-bit context (47_srm64.md R407). -/
def execCchiQ (rd rs1 : Reg) (imm : BitVec 12) (s : State) : Result :=
  .next (arith64 (fun a b => boolBits (carryOut a b)) rd rs1 (imm64 imm) s)

/-- BCHI.Q: borrow out of the subtraction with the sign-extended immediate, in the 64-bit context (47_srm64.md R408). -/
def execBchiQ (rd rs1 : Reg) (imm : BitVec 12) (s : State) : Result :=
  .next (arith64 (fun a b => boolBits (borrowOut a b)) rd rs1 (imm64 imm) s)

/-- SLTI.Q: signed less than with the sign-extended immediate, in the 64-bit context (47_srm64.md R409). -/
def execSltiQ (rd rs1 : Reg) (imm : BitVec 12) (s : State) : Result :=
  .next (arith64 (fun a b => boolBits (signedLess a b)) rd rs1 (imm64 imm) s)

end Sys2Proof.Machine
end

