-- ==== Sys2Proof/Machine/System.lean ====
section
/-! DEFINITION. The instructions of the S extension (44_system.md). -/

namespace Sys2Proof.Machine

/-- SYSCALL: the trap whose cause is the level of the caller; the saved address is its own (D18, log 21) (44_system.md
R242). -/
def execSyscall (s : State) : Result :=
  takeTrap (s.priv.setWidth 64) s

/-- SYSBREAK: the trap with cause 4; the saved address is its own (D18, log 21) (44_system.md R243). -/
def execSysbreak (s : State) : Result :=
  takeTrap 4 s

/-- MRET: return through `mra` and `mpriv`, at level 3 (44_system.md R244). -/
def execMret (s : State) : Result :=
  privileged 3 (fun s => returnFromTrap s.csr.mra s.csr.mpriv s) s

/-- SYSRET: return through `kra` and `kpriv`, at level 1 or higher (44_system.md R245). -/
def execSysret (s : State) : Result :=
  privileged 1 (fun s => returnFromTrap s.csr.kra s.csr.kpriv s) s

/-- CSRR: read a CSR (44_system.md R247). -/
def execCsrr (rd : Reg) (csr : BitVec 12) (s : State) : Result :=
  csrRead rd csr s

/-- CSRW: write a CSR (44_system.md R248). -/
def execCsrw (rs1 : Reg) (csr : BitVec 12) (s : State) : Result :=
  csrModify (fun _ => s.readReg rs1) csr s

/-- CSRS: set one bit of a CSR (44_system.md R250). -/
def execCsrs (csr : BitVec 12) (sel : BitVec 5) (s : State) : Result :=
  csrModify (fun v => v ||| (1#64 <<< sel.toNat)) csr s

/-- CSRC: clear one bit of a CSR (44_system.md R251). -/
def execCsrc (csr : BitVec 12) (sel : BitVec 5) (s : State) : Result :=
  csrModify (fun v => v &&& ~~~(1#64 <<< sel.toNat)) csr s

/-- FENCE: on one core every fence only advances IP (20_memory.md R76; D32, log 23) (44_system.md R259). -/
def execFence (_iorw : BitVec 4) (s : State) : Result :=
  .next s.advance

/-- IN.B: input byte, at level 1 or higher (44_system.md R261). -/
def execInb (rd rs1 : Reg) (s : State) : Result :=
  privileged 1 (portIn .b false rd rs1) s

/-- IN.W: input word, at level 1 or higher (44_system.md R262). -/
def execInw (rd rs1 : Reg) (s : State) : Result :=
  privileged 1 (portIn .w false rd rs1) s

/-- IN.D: input dword, at level 1 or higher (44_system.md R263). -/
def execInd (rd rs1 : Reg) (s : State) : Result :=
  privileged 1 (portIn .d false rd rs1) s

/-- IN.SB: input signed byte, at level 1 or higher (44_system.md R264). -/
def execInsb (rd rs1 : Reg) (s : State) : Result :=
  privileged 1 (portIn .b true rd rs1) s

/-- IN.SW: input signed word, at level 1 or higher (44_system.md R265). -/
def execInsw (rd rs1 : Reg) (s : State) : Result :=
  privileged 1 (portIn .w true rd rs1) s

/-- OUT.B: output byte, at level 1 or higher (44_system.md R266). -/
def execOutb (rs1 rs2 : Reg) (s : State) : Result :=
  privileged 1 (portOut .b rs1 rs2) s

/-- OUT.W: output word, at level 1 or higher (44_system.md R267). -/
def execOutw (rs1 rs2 : Reg) (s : State) : Result :=
  privileged 1 (portOut .w rs1 rs2) s

/-- OUT.D: output dword, at level 1 or higher (44_system.md R268). -/
def execOutd (rs1 rs2 : Reg) (s : State) : Result :=
  privileged 1 (portOut .d rs1 rs2) s

end Sys2Proof.Machine
end

