-- ==== Sys2Proof/Machine/Dispatch.lean ====
section
/-! DEFINITION. The dispatch: one arm per instruction, one call of its meaning. -/

namespace Sys2Proof.Machine

def exec (i : Instr) (s : State) : Host.Outcome State Fault Refusal :=
  match i with
  | .add rd rs1 rs2 => Sys2Proof.Machine.execAdd rd rs1 rs2 s
  | .sub rd rs1 rs2 => Sys2Proof.Machine.execSub rd rs1 rs2 s
  | .and rd rs1 rs2 => Sys2Proof.Machine.execAnd rd rs1 rs2 s
  | .or rd rs1 rs2 => Sys2Proof.Machine.execOr rd rs1 rs2 s
  | .xor rd rs1 rs2 => Sys2Proof.Machine.execXor rd rs1 rs2 s
  | .shr rd rs1 rs2 => Sys2Proof.Machine.execShr rd rs1 rs2 s
  | .asr rd rs1 rs2 => Sys2Proof.Machine.execAsr rd rs1 rs2 s
  | .shl rd rs1 rs2 => Sys2Proof.Machine.execShl rd rs1 rs2 s
  | .cch rd rs1 rs2 => Sys2Proof.Machine.execCch rd rs1 rs2 s
  | .bch rd rs1 rs2 => Sys2Proof.Machine.execBch rd rs1 rs2 s
  | .slt rd rs1 rs2 => Sys2Proof.Machine.execSlt rd rs1 rs2 s
  | .addi rd rs1 imm => Sys2Proof.Machine.execAddi rd rs1 imm s
  | .andi rd rs1 imm => Sys2Proof.Machine.execAndi rd rs1 imm s
  | .ori rd rs1 imm => Sys2Proof.Machine.execOri rd rs1 imm s
  | .xori rd rs1 imm => Sys2Proof.Machine.execXori rd rs1 imm s
  | .shri rd rs1 imm => Sys2Proof.Machine.execShri rd rs1 imm s
  | .asri rd rs1 imm => Sys2Proof.Machine.execAsri rd rs1 imm s
  | .shli rd rs1 imm => Sys2Proof.Machine.execShli rd rs1 imm s
  | .cchi rd rs1 imm => Sys2Proof.Machine.execCchi rd rs1 imm s
  | .bchi rd rs1 imm => Sys2Proof.Machine.execBchi rd rs1 imm s
  | .slti rd rs1 imm => Sys2Proof.Machine.execSlti rd rs1 imm s
  | .lui rd imm => Sys2Proof.Machine.execLui rd imm s
  | .stb rs1 rs2 imm => Sys2Proof.Machine.execStb rs1 rs2 imm s
  | .stw rs1 rs2 imm => Sys2Proof.Machine.execStw rs1 rs2 imm s
  | .std rs1 rs2 imm => Sys2Proof.Machine.execStd rs1 rs2 imm s
  | .ldb rd rs1 imm => Sys2Proof.Machine.execLdb rd rs1 imm s
  | .ldsb rd rs1 imm => Sys2Proof.Machine.execLdsb rd rs1 imm s
  | .ldw rd rs1 imm => Sys2Proof.Machine.execLdw rd rs1 imm s
  | .ldsw rd rs1 imm => Sys2Proof.Machine.execLdsw rd rs1 imm s
  | .ldd rd rs1 imm => Sys2Proof.Machine.execLdd rd rs1 imm s
  | .jal rd imm => Sys2Proof.Machine.execJal rd imm s
  | .jalr rd rs1 imm => Sys2Proof.Machine.execJalr rd rs1 imm s
  | .jeq rs1 rs2 imm => Sys2Proof.Machine.execJeq rs1 rs2 imm s
  | .jlt rs1 rs2 imm => Sys2Proof.Machine.execJlt rs1 rs2 imm s
  | .jslt rs1 rs2 imm => Sys2Proof.Machine.execJslt rs1 rs2 imm s
  | .jne rs1 rs2 imm => Sys2Proof.Machine.execJne rs1 rs2 imm s
  | .jge rs1 rs2 imm => Sys2Proof.Machine.execJge rs1 rs2 imm s
  | .jsge rs1 rs2 imm => Sys2Proof.Machine.execJsge rs1 rs2 imm s
  | .syscall => Sys2Proof.Machine.execSyscall s
  | .sysbreak => Sys2Proof.Machine.execSysbreak s
  | .mret => Sys2Proof.Machine.execMret s
  | .sysret => Sys2Proof.Machine.execSysret s
  | .csrr rd csr => Sys2Proof.Machine.execCsrr rd csr s
  | .csrw rs1 csr => Sys2Proof.Machine.execCsrw rs1 csr s
  | .csrs csr sel => Sys2Proof.Machine.execCsrs csr sel s
  | .csrc csr sel => Sys2Proof.Machine.execCsrc csr sel s
  | .fence iorw => Sys2Proof.Machine.execFence iorw s
  | .inb rd rs1 => Sys2Proof.Machine.execInb rd rs1 s
  | .inw rd rs1 => Sys2Proof.Machine.execInw rd rs1 s
  | .ind rd rs1 => Sys2Proof.Machine.execInd rd rs1 s
  | .insb rd rs1 => Sys2Proof.Machine.execInsb rd rs1 s
  | .insw rd rs1 => Sys2Proof.Machine.execInsw rd rs1 s
  | .outb rs1 rs2 => Sys2Proof.Machine.execOutb rs1 rs2 s
  | .outw rs1 rs2 => Sys2Proof.Machine.execOutw rs1 rs2 s
  | .outd rs1 rs2 => Sys2Proof.Machine.execOutd rs1 rs2 s
  | .mul rd rs1 rs2 => Sys2Proof.Machine.execMul rd rs1 rs2 s
  | .mulh rd rs1 rs2 => Sys2Proof.Machine.execMulh rd rs1 rs2 s
  | .smulh rd rs1 rs2 => Sys2Proof.Machine.execSmulh rd rs1 rs2 s
  | .div rd rs1 rs2 => Sys2Proof.Machine.execDiv rd rs1 rs2 s
  | .sdiv rd rs1 rs2 => Sys2Proof.Machine.execSdiv rd rs1 rs2 s
  | .mod rd rs1 rs2 => Sys2Proof.Machine.execMod rd rs1 rs2 s
  | .smod rd rs1 rs2 => Sys2Proof.Machine.execSmod rd rs1 rs2 s
  | .llB rd rs1 => Sys2Proof.Machine.execLlB rd rs1 s
  | .llW rd rs1 => Sys2Proof.Machine.execLlW rd rs1 s
  | .llD rd rs1 => Sys2Proof.Machine.execLlD rd rs1 s
  | .llSb rd rs1 => Sys2Proof.Machine.execLlSb rd rs1 s
  | .llSw rd rs1 => Sys2Proof.Machine.execLlSw rd rs1 s
  | .scB rd rs1 rs2 => Sys2Proof.Machine.execScB rd rs1 rs2 s
  | .scW rd rs1 rs2 => Sys2Proof.Machine.execScW rd rs1 rs2 s
  | .scD rd rs1 rs2 => Sys2Proof.Machine.execScD rd rs1 rs2 s
  | .acmpxchgB rd rs1 rs2 => Sys2Proof.Machine.execAcmpxchgB rd rs1 rs2 s
  | .acmpxchgW rd rs1 rs2 => Sys2Proof.Machine.execAcmpxchgW rd rs1 rs2 s
  | .acmpxchgD rd rs1 rs2 => Sys2Proof.Machine.execAcmpxchgD rd rs1 rs2 s
  | .axaddB rd rs1 rs2 => Sys2Proof.Machine.execAxaddB rd rs1 rs2 s
  | .axaddW rd rs1 rs2 => Sys2Proof.Machine.execAxaddW rd rs1 rs2 s
  | .axaddD rd rs1 rs2 => Sys2Proof.Machine.execAxaddD rd rs1 rs2 s
  | .axaddSb rd rs1 rs2 => Sys2Proof.Machine.execAxaddSb rd rs1 rs2 s
  | .axaddSw rd rs1 rs2 => Sys2Proof.Machine.execAxaddSw rd rs1 rs2 s
  | .axsubB rd rs1 rs2 => Sys2Proof.Machine.execAxsubB rd rs1 rs2 s
  | .axsubW rd rs1 rs2 => Sys2Proof.Machine.execAxsubW rd rs1 rs2 s
  | .axsubD rd rs1 rs2 => Sys2Proof.Machine.execAxsubD rd rs1 rs2 s
  | .axsubSb rd rs1 rs2 => Sys2Proof.Machine.execAxsubSb rd rs1 rs2 s
  | .axsubSw rd rs1 rs2 => Sys2Proof.Machine.execAxsubSw rd rs1 rs2 s
  | .axandB rd rs1 rs2 => Sys2Proof.Machine.execAxandB rd rs1 rs2 s
  | .axandW rd rs1 rs2 => Sys2Proof.Machine.execAxandW rd rs1 rs2 s
  | .axandD rd rs1 rs2 => Sys2Proof.Machine.execAxandD rd rs1 rs2 s
  | .axandSb rd rs1 rs2 => Sys2Proof.Machine.execAxandSb rd rs1 rs2 s
  | .axandSw rd rs1 rs2 => Sys2Proof.Machine.execAxandSw rd rs1 rs2 s
  | .axiorB rd rs1 rs2 => Sys2Proof.Machine.execAxiorB rd rs1 rs2 s
  | .axiorW rd rs1 rs2 => Sys2Proof.Machine.execAxiorW rd rs1 rs2 s
  | .axiorD rd rs1 rs2 => Sys2Proof.Machine.execAxiorD rd rs1 rs2 s
  | .axiorSb rd rs1 rs2 => Sys2Proof.Machine.execAxiorSb rd rs1 rs2 s
  | .axiorSw rd rs1 rs2 => Sys2Proof.Machine.execAxiorSw rd rs1 rs2 s
  | .axxorB rd rs1 rs2 => Sys2Proof.Machine.execAxxorB rd rs1 rs2 s
  | .axxorW rd rs1 rs2 => Sys2Proof.Machine.execAxxorW rd rs1 rs2 s
  | .axxorD rd rs1 rs2 => Sys2Proof.Machine.execAxxorD rd rs1 rs2 s
  | .axxorSb rd rs1 rs2 => Sys2Proof.Machine.execAxxorSb rd rs1 rs2 s
  | .axxorSw rd rs1 rs2 => Sys2Proof.Machine.execAxxorSw rd rs1 rs2 s
  | .axmaxB rd rs1 rs2 => Sys2Proof.Machine.execAxmaxB rd rs1 rs2 s
  | .axmaxW rd rs1 rs2 => Sys2Proof.Machine.execAxmaxW rd rs1 rs2 s
  | .axmaxD rd rs1 rs2 => Sys2Proof.Machine.execAxmaxD rd rs1 rs2 s
  | .axmaxSb rd rs1 rs2 => Sys2Proof.Machine.execAxmaxSb rd rs1 rs2 s
  | .axmaxSw rd rs1 rs2 => Sys2Proof.Machine.execAxmaxSw rd rs1 rs2 s
  | .axminB rd rs1 rs2 => Sys2Proof.Machine.execAxminB rd rs1 rs2 s
  | .axminW rd rs1 rs2 => Sys2Proof.Machine.execAxminW rd rs1 rs2 s
  | .axminD rd rs1 rs2 => Sys2Proof.Machine.execAxminD rd rs1 rs2 s
  | .axminSb rd rs1 rs2 => Sys2Proof.Machine.execAxminSb rd rs1 rs2 s
  | .axminSw rd rs1 rs2 => Sys2Proof.Machine.execAxminSw rd rs1 rs2 s
  | .stq rs1 rs2 imm => Sys2Proof.Machine.execStq rs1 rs2 imm s
  | .ldq rd rs1 imm => Sys2Proof.Machine.execLdq rd rs1 imm s
  | .ldsd rd rs1 imm => Sys2Proof.Machine.execLdsd rd rs1 imm s
  | .addQ rd rs1 rs2 => Sys2Proof.Machine.execAddQ rd rs1 rs2 s
  | .subQ rd rs1 rs2 => Sys2Proof.Machine.execSubQ rd rs1 rs2 s
  | .andQ rd rs1 rs2 => Sys2Proof.Machine.execAndQ rd rs1 rs2 s
  | .orQ rd rs1 rs2 => Sys2Proof.Machine.execOrQ rd rs1 rs2 s
  | .xorQ rd rs1 rs2 => Sys2Proof.Machine.execXorQ rd rs1 rs2 s
  | .shrQ rd rs1 rs2 => Sys2Proof.Machine.execShrQ rd rs1 rs2 s
  | .asrQ rd rs1 rs2 => Sys2Proof.Machine.execAsrQ rd rs1 rs2 s
  | .shlQ rd rs1 rs2 => Sys2Proof.Machine.execShlQ rd rs1 rs2 s
  | .cchQ rd rs1 rs2 => Sys2Proof.Machine.execCchQ rd rs1 rs2 s
  | .bchQ rd rs1 rs2 => Sys2Proof.Machine.execBchQ rd rs1 rs2 s
  | .sltQ rd rs1 rs2 => Sys2Proof.Machine.execSltQ rd rs1 rs2 s
  | .addiQ rd rs1 imm => Sys2Proof.Machine.execAddiQ rd rs1 imm s
  | .andiQ rd rs1 imm => Sys2Proof.Machine.execAndiQ rd rs1 imm s
  | .oriQ rd rs1 imm => Sys2Proof.Machine.execOriQ rd rs1 imm s
  | .xoriQ rd rs1 imm => Sys2Proof.Machine.execXoriQ rd rs1 imm s
  | .shriQ rd rs1 imm => Sys2Proof.Machine.execShriQ rd rs1 imm s
  | .asriQ rd rs1 imm => Sys2Proof.Machine.execAsriQ rd rs1 imm s
  | .shliQ rd rs1 imm => Sys2Proof.Machine.execShliQ rd rs1 imm s
  | .cchiQ rd rs1 imm => Sys2Proof.Machine.execCchiQ rd rs1 imm s
  | .bchiQ rd rs1 imm => Sys2Proof.Machine.execBchiQ rd rs1 imm s
  | .sltiQ rd rs1 imm => Sys2Proof.Machine.execSltiQ rd rs1 imm s
  | .mulQ rd rs1 rs2 => Sys2Proof.Machine.execMulQ rd rs1 rs2 s
  | .mulhQ rd rs1 rs2 => Sys2Proof.Machine.execMulhQ rd rs1 rs2 s
  | .smulhQ rd rs1 rs2 => Sys2Proof.Machine.execSmulhQ rd rs1 rs2 s
  | .divQ rd rs1 rs2 => Sys2Proof.Machine.execDivQ rd rs1 rs2 s
  | .sdivQ rd rs1 rs2 => Sys2Proof.Machine.execSdivQ rd rs1 rs2 s
  | .modQ rd rs1 rs2 => Sys2Proof.Machine.execModQ rd rs1 rs2 s
  | .smodQ rd rs1 rs2 => Sys2Proof.Machine.execSmodQ rd rs1 rs2 s
  | .llQ rd rs1 => Sys2Proof.Machine.execLlQ rd rs1 s
  | .llSd rd rs1 => Sys2Proof.Machine.execLlSd rd rs1 s
  | .scQ rd rs1 rs2 => Sys2Proof.Machine.execScQ rd rs1 rs2 s
  | .acmpxchgQ rd rs1 rs2 => Sys2Proof.Machine.execAcmpxchgQ rd rs1 rs2 s
  | .axaddQ rd rs1 rs2 => Sys2Proof.Machine.execAxaddQ rd rs1 rs2 s
  | .axaddSd rd rs1 rs2 => Sys2Proof.Machine.execAxaddSd rd rs1 rs2 s
  | .axsubQ rd rs1 rs2 => Sys2Proof.Machine.execAxsubQ rd rs1 rs2 s
  | .axsubSd rd rs1 rs2 => Sys2Proof.Machine.execAxsubSd rd rs1 rs2 s
  | .axandQ rd rs1 rs2 => Sys2Proof.Machine.execAxandQ rd rs1 rs2 s
  | .axandSd rd rs1 rs2 => Sys2Proof.Machine.execAxandSd rd rs1 rs2 s
  | .axiorQ rd rs1 rs2 => Sys2Proof.Machine.execAxiorQ rd rs1 rs2 s
  | .axiorSd rd rs1 rs2 => Sys2Proof.Machine.execAxiorSd rd rs1 rs2 s
  | .axxorQ rd rs1 rs2 => Sys2Proof.Machine.execAxxorQ rd rs1 rs2 s
  | .axxorSd rd rs1 rs2 => Sys2Proof.Machine.execAxxorSd rd rs1 rs2 s
  | .axmaxQ rd rs1 rs2 => Sys2Proof.Machine.execAxmaxQ rd rs1 rs2 s
  | .axmaxSd rd rs1 rs2 => Sys2Proof.Machine.execAxmaxSd rd rs1 rs2 s
  | .axminQ rd rs1 rs2 => Sys2Proof.Machine.execAxminQ rd rs1 rs2 s
  | .axminSd rd rs1 rs2 => Sys2Proof.Machine.execAxminSd rd rs1 rs2 s

end Sys2Proof.Machine
end

