-- ==== Sys2Proof/WellFormed.lean ====
section
/-! DEFINITION. When an instruction exists on a configured core: its extension is present (30_encoding.md R114, R117),
its registers are (10_state.md R25), and a fence names at least one kind of operation (20_memory.md R77). -/

namespace Sys2Proof

/-- The column `needs` of spec/opcode_table.json (30_encoding.md R107, R117). -/
def Instr.available (c : Config) : Instr → Bool
  | .add .. | .sub .. | .and .. | .or .. | .xor .. | .shr .. | .asr .. | .shl .. | .cch .. | .bch .. | .slt ..
  | .addi .. | .andi .. | .ori .. | .xori .. | .shri .. | .asri .. | .shli .. | .cchi .. | .bchi .. | .slti ..
  | .lui .. | .stb .. | .stw .. | .std .. | .ldb .. | .ldsb .. | .ldw .. | .ldsw .. | .ldd .. | .jal .. | .jalr ..
  | .jeq .. | .jlt .. | .jslt .. | .jne .. | .jge .. | .jsge .. => true
  | .syscall | .sysbreak | .mret | .sysret | .csrr .. | .csrw .. | .csrs .. | .csrc .. | .fence .. | .inb ..
  | .inw .. | .ind .. | .insb .. | .insw .. | .outb .. | .outw .. | .outd .. => c.extS
  | .mul .. | .mulh .. | .smulh .. | .div .. | .sdiv .. | .mod .. | .smod .. => c.extM
  | .llB .. | .llW .. | .llD .. | .llSb .. | .llSw .. | .scB .. | .scW .. | .scD .. | .acmpxchgB .. | .acmpxchgW ..
  | .acmpxchgD .. | .axaddB .. | .axaddW .. | .axaddD .. | .axaddSb .. | .axaddSw .. | .axsubB .. | .axsubW ..
  | .axsubD .. | .axsubSb .. | .axsubSw .. | .axandB .. | .axandW .. | .axandD .. | .axandSb .. | .axandSw ..
  | .axiorB .. | .axiorW .. | .axiorD .. | .axiorSb .. | .axiorSw .. | .axxorB .. | .axxorW .. | .axxorD ..
  | .axxorSb .. | .axxorSw .. | .axmaxB .. | .axmaxW .. | .axmaxD .. | .axmaxSb .. | .axmaxSw .. | .axminB ..
  | .axminW .. | .axminD .. | .axminSb .. | .axminSw .. => c.extA
  | .stq .. | .ldq .. | .ldsd .. | .addQ .. | .subQ .. | .andQ .. | .orQ .. | .xorQ .. | .shrQ .. | .asrQ ..
  | .shlQ .. | .cchQ .. | .bchQ .. | .sltQ .. | .addiQ .. | .andiQ .. | .oriQ .. | .xoriQ .. | .shriQ .. | .asriQ ..
  | .shliQ .. | .cchiQ .. | .bchiQ .. | .sltiQ .. => c.is64
  | .mulQ .. | .mulhQ .. | .smulhQ .. | .divQ .. | .sdivQ .. | .modQ .. | .smodQ .. => c.is64 && c.extM
  | .llQ .. | .llSd .. | .scQ .. | .acmpxchgQ .. | .axaddQ .. | .axaddSd .. | .axsubQ .. | .axsubSd .. | .axandQ ..
  | .axandSd .. | .axiorQ .. | .axiorSd .. | .axxorQ .. | .axxorSd .. | .axmaxQ .. | .axmaxSd .. | .axminQ ..
  | .axminSd .. => c.is64 && c.extA

/-- The general registers an instruction names. The `rd` position of CSRS and CSRC is a bit selector and the reserved
positions of the other S instructions name no register (10_state.md R22, 30_encoding.md R97, R115). -/
def Instr.regs : Instr → List Reg
  | .add rd rs1 rs2 | .sub rd rs1 rs2 | .and rd rs1 rs2 | .or rd rs1 rs2 | .xor rd rs1 rs2 | .shr rd rs1 rs2
  | .asr rd rs1 rs2 | .shl rd rs1 rs2 | .cch rd rs1 rs2 | .bch rd rs1 rs2 | .slt rd rs1 rs2 | .mul rd rs1 rs2
  | .mulh rd rs1 rs2 | .smulh rd rs1 rs2 | .div rd rs1 rs2 | .sdiv rd rs1 rs2 | .mod rd rs1 rs2 | .smod rd rs1 rs2
  | .scB rd rs1 rs2 | .scW rd rs1 rs2 | .scD rd rs1 rs2 | .acmpxchgB rd rs1 rs2 | .acmpxchgW rd rs1 rs2
  | .acmpxchgD rd rs1 rs2 | .axaddB rd rs1 rs2 | .axaddW rd rs1 rs2 | .axaddD rd rs1 rs2 | .axaddSb rd rs1 rs2
  | .axaddSw rd rs1 rs2 | .axsubB rd rs1 rs2 | .axsubW rd rs1 rs2 | .axsubD rd rs1 rs2 | .axsubSb rd rs1 rs2
  | .axsubSw rd rs1 rs2 | .axandB rd rs1 rs2 | .axandW rd rs1 rs2 | .axandD rd rs1 rs2 | .axandSb rd rs1 rs2
  | .axandSw rd rs1 rs2 | .axiorB rd rs1 rs2 | .axiorW rd rs1 rs2 | .axiorD rd rs1 rs2 | .axiorSb rd rs1 rs2
  | .axiorSw rd rs1 rs2 | .axxorB rd rs1 rs2 | .axxorW rd rs1 rs2 | .axxorD rd rs1 rs2 | .axxorSb rd rs1 rs2
  | .axxorSw rd rs1 rs2 | .axmaxB rd rs1 rs2 | .axmaxW rd rs1 rs2 | .axmaxD rd rs1 rs2 | .axmaxSb rd rs1 rs2
  | .axmaxSw rd rs1 rs2 | .axminB rd rs1 rs2 | .axminW rd rs1 rs2 | .axminD rd rs1 rs2 | .axminSb rd rs1 rs2
  | .axminSw rd rs1 rs2 | .addQ rd rs1 rs2 | .subQ rd rs1 rs2 | .andQ rd rs1 rs2 | .orQ rd rs1 rs2 | .xorQ rd rs1 rs2
  | .shrQ rd rs1 rs2 | .asrQ rd rs1 rs2 | .shlQ rd rs1 rs2 | .cchQ rd rs1 rs2 | .bchQ rd rs1 rs2 | .sltQ rd rs1 rs2
  | .mulQ rd rs1 rs2 | .mulhQ rd rs1 rs2 | .smulhQ rd rs1 rs2 | .divQ rd rs1 rs2 | .sdivQ rd rs1 rs2
  | .modQ rd rs1 rs2 | .smodQ rd rs1 rs2 | .scQ rd rs1 rs2 | .acmpxchgQ rd rs1 rs2 | .axaddQ rd rs1 rs2
  | .axaddSd rd rs1 rs2 | .axsubQ rd rs1 rs2 | .axsubSd rd rs1 rs2 | .axandQ rd rs1 rs2 | .axandSd rd rs1 rs2
  | .axiorQ rd rs1 rs2 | .axiorSd rd rs1 rs2 | .axxorQ rd rs1 rs2 | .axxorSd rd rs1 rs2 | .axmaxQ rd rs1 rs2
  | .axmaxSd rd rs1 rs2 | .axminQ rd rs1 rs2 | .axminSd rd rs1 rs2 => [rd, rs1, rs2]
  | .addi rd rs1 _ | .andi rd rs1 _ | .ori rd rs1 _ | .xori rd rs1 _ | .shri rd rs1 _ | .asri rd rs1 _
  | .shli rd rs1 _ | .cchi rd rs1 _ | .bchi rd rs1 _ | .slti rd rs1 _ | .ldb rd rs1 _ | .ldsb rd rs1 _
  | .ldw rd rs1 _ | .ldsw rd rs1 _ | .ldd rd rs1 _ | .jalr rd rs1 _ | .inb rd rs1 | .inw rd rs1 | .ind rd rs1
  | .insb rd rs1 | .insw rd rs1 | .llB rd rs1 | .llW rd rs1 | .llD rd rs1 | .llSb rd rs1 | .llSw rd rs1
  | .ldq rd rs1 _ | .ldsd rd rs1 _ | .addiQ rd rs1 _ | .andiQ rd rs1 _ | .oriQ rd rs1 _ | .xoriQ rd rs1 _
  | .shriQ rd rs1 _ | .asriQ rd rs1 _ | .shliQ rd rs1 _ | .cchiQ rd rs1 _ | .bchiQ rd rs1 _ | .sltiQ rd rs1 _
  | .llQ rd rs1 | .llSd rd rs1 => [rd, rs1]
  | .lui rd _ | .jal rd _ | .csrr rd _ => [rd]
  | .stb rs1 rs2 _ | .stw rs1 rs2 _ | .std rs1 rs2 _ | .jeq rs1 rs2 _ | .jlt rs1 rs2 _ | .jslt rs1 rs2 _
  | .jne rs1 rs2 _ | .jge rs1 rs2 _ | .jsge rs1 rs2 _ | .outb rs1 rs2 | .outw rs1 rs2 | .outd rs1 rs2
  | .stq rs1 rs2 _ => [rs1, rs2]
  | .syscall | .sysbreak | .mret | .sysret | .csrs _ _ | .csrc _ _ | .fence _ => []
  | .csrw rs1 _ => [rs1]

/-- A register number that exists on the core: below 16 under H (10_state.md R25). -/
def Reg.present (c : Config) (r : Reg) : Bool := r.toNat < c.nregs

/-- FENCE with I, O, R, W all 0 is no instruction (20_memory.md R77, 30_encoding.md R111). -/
def Instr.fenceTyped : Instr → Bool
  | .fence iorw => iorw != 0
  | .add .. | .sub .. | .and .. | .or .. | .xor .. | .shr .. | .asr .. | .shl .. | .cch .. | .bch .. | .slt ..
  | .addi .. | .andi .. | .ori .. | .xori .. | .shri .. | .asri .. | .shli .. | .cchi .. | .bchi .. | .slti ..
  | .lui .. | .stb .. | .stw .. | .std .. | .ldb .. | .ldsb .. | .ldw .. | .ldsw .. | .ldd .. | .jal .. | .jalr ..
  | .jeq .. | .jlt .. | .jslt .. | .jne .. | .jge .. | .jsge .. | .syscall | .sysbreak | .mret | .sysret | .csrr ..
  | .csrw .. | .csrs .. | .csrc .. | .inb .. | .inw .. | .ind .. | .insb .. | .insw .. | .outb .. | .outw ..
  | .outd .. | .mul .. | .mulh .. | .smulh .. | .div .. | .sdiv .. | .mod .. | .smod .. | .llB .. | .llW .. | .llD ..
  | .llSb .. | .llSw .. | .scB .. | .scW .. | .scD .. | .acmpxchgB .. | .acmpxchgW .. | .acmpxchgD .. | .axaddB ..
  | .axaddW .. | .axaddD .. | .axaddSb .. | .axaddSw .. | .axsubB .. | .axsubW .. | .axsubD .. | .axsubSb ..
  | .axsubSw .. | .axandB .. | .axandW .. | .axandD .. | .axandSb .. | .axandSw .. | .axiorB .. | .axiorW ..
  | .axiorD .. | .axiorSb .. | .axiorSw .. | .axxorB .. | .axxorW .. | .axxorD .. | .axxorSb .. | .axxorSw ..
  | .axmaxB .. | .axmaxW .. | .axmaxD .. | .axmaxSb .. | .axmaxSw .. | .axminB .. | .axminW .. | .axminD ..
  | .axminSb .. | .axminSw .. | .stq .. | .ldq .. | .ldsd .. | .addQ .. | .subQ .. | .andQ .. | .orQ .. | .xorQ ..
  | .shrQ .. | .asrQ .. | .shlQ .. | .cchQ .. | .bchQ .. | .sltQ .. | .addiQ .. | .andiQ .. | .oriQ .. | .xoriQ ..
  | .shriQ .. | .asriQ .. | .shliQ .. | .cchiQ .. | .bchiQ .. | .sltiQ .. | .mulQ .. | .mulhQ .. | .smulhQ ..
  | .divQ .. | .sdivQ .. | .modQ .. | .smodQ .. | .llQ .. | .llSd .. | .scQ .. | .acmpxchgQ .. | .axaddQ ..
  | .axaddSd .. | .axsubQ .. | .axsubSd .. | .axandQ .. | .axandSd .. | .axiorQ .. | .axiorSd .. | .axxorQ ..
  | .axxorSd .. | .axmaxQ .. | .axmaxSd .. | .axminQ .. | .axminSd .. => true

/-- The instruction is one that the configured core has. -/
def WellFormed (c : Config) (i : Instr) : Bool :=
  i.available c && i.regs.all (Reg.present c) && i.fenceTyped

end Sys2Proof
end

