-- ==== Sys2Proof/Decode.lean ====
section
/-! DEFINITION. The decoder, total on any bytes and rejecting by name, and after it the encoder, written from the same
tables (30_encoding.md). -/

namespace Sys2Proof

/-- Why bytes are no instruction of the core: every one is `refuse("unassigned encoding")` of 30_encoding.md R114 but
the last two. -/
inductive DecodeError where
  /-- no row of the opcode table matches the selecting fields, or FENCE with I, O, R, W all 0 -/
  | unassigned
  /-- the row's extension is absent (R114, R117) -/
  | absentExtension
  /-- an unused field is not 0, under `UnusedPolicy.strict` (R115) -/
  | unusedField
  /-- a register field names r16 to r31 under H (10_state.md R25) -/
  | absentRegister
  /-- fewer than four bytes -/
  | truncated
deriving DecidableEq, Repr

/-! The fields of an instruction word (30_encoding.md R92 to R98). -/

/-- inst[5:0] -/
def opcodeOf (w : BitVec 32) : BitVec 6 := w.extractLsb' 0 6
/-- inst[10:6] -/
def rdOf (w : BitVec 32) : BitVec 5 := w.extractLsb' 6 5
/-- inst[15:11] -/
def rs1Of (w : BitVec 32) : BitVec 5 := w.extractLsb' 11 5
/-- inst[19:16] -/
def fn4Of (w : BitVec 32) : BitVec 4 := w.extractLsb' 16 4
/-- inst[24:20] -/
def rs2Of (w : BitVec 32) : BitVec 5 := w.extractLsb' 20 5
/-- inst[31:25] -/
def fn7Of (w : BitVec 32) : BitVec 7 := w.extractLsb' 25 7
/-- inst[31:20]: the DSI immediate, the CSR number -/
def imm12Of (w : BitVec 32) : BitVec 12 := w.extractLsb' 20 12
/-- inst[31:11]: the DI immediate -/
def imm21Of (w : BitVec 32) : BitVec 21 := w.extractLsb' 11 21
/-- The SSI immediate: imm[11:7] = inst[10:6] and imm[6:0] = inst[31:25] (30_encoding.md R96, R102) -/
def immSSIOf (w : BitVec 32) : BitVec 12 := rdOf w ++ fn7Of w
/-- inst[23:20]: the bits I, O, R, W of a fence (30_encoding.md R98) -/
def iorwOf (w : BitVec 32) : BitVec 4 := w.extractLsb' 20 4

/-- Opcode 0x00 (30_encoding.md R108). -/
def decodeOp00 (w : BitVec 32) : Option Instr :=
  match (fn7Of w).toNat, (fn4Of w).toNat with
  | 0x0, 0x0 => some (.add (rdOf w) (rs1Of w) (rs2Of w))
  | 0x0, 0x1 => some (.sub (rdOf w) (rs1Of w) (rs2Of w))
  | 0x0, 0x2 => some (.and (rdOf w) (rs1Of w) (rs2Of w))
  | 0x0, 0x3 => some (.or (rdOf w) (rs1Of w) (rs2Of w))
  | 0x0, 0x4 => some (.xor (rdOf w) (rs1Of w) (rs2Of w))
  | 0x0, 0x5 => some (.shr (rdOf w) (rs1Of w) (rs2Of w))
  | 0x0, 0x6 => some (.asr (rdOf w) (rs1Of w) (rs2Of w))
  | 0x0, 0x7 => some (.shl (rdOf w) (rs1Of w) (rs2Of w))
  | 0x0, 0x8 => some (.cch (rdOf w) (rs1Of w) (rs2Of w))
  | 0x0, 0x9 => some (.bch (rdOf w) (rs1Of w) (rs2Of w))
  | 0x0, 0xA => some (.slt (rdOf w) (rs1Of w) (rs2Of w))
  | 0x1, 0x0 => some (.mul (rdOf w) (rs1Of w) (rs2Of w))
  | 0x1, 0x2 => some (.mulh (rdOf w) (rs1Of w) (rs2Of w))
  | 0x1, 0x3 => some (.smulh (rdOf w) (rs1Of w) (rs2Of w))
  | 0x1, 0x4 => some (.div (rdOf w) (rs1Of w) (rs2Of w))
  | 0x1, 0x5 => some (.sdiv (rdOf w) (rs1Of w) (rs2Of w))
  | 0x1, 0x6 => some (.mod (rdOf w) (rs1Of w) (rs2Of w))
  | 0x1, 0x7 => some (.smod (rdOf w) (rs1Of w) (rs2Of w))
  | 0x1, 0x8 => some (.mulQ (rdOf w) (rs1Of w) (rs2Of w))
  | 0x1, 0xA => some (.mulhQ (rdOf w) (rs1Of w) (rs2Of w))
  | 0x1, 0xB => some (.smulhQ (rdOf w) (rs1Of w) (rs2Of w))
  | 0x1, 0xC => some (.divQ (rdOf w) (rs1Of w) (rs2Of w))
  | 0x1, 0xD => some (.sdivQ (rdOf w) (rs1Of w) (rs2Of w))
  | 0x1, 0xE => some (.modQ (rdOf w) (rs1Of w) (rs2Of w))
  | 0x1, 0xF => some (.smodQ (rdOf w) (rs1Of w) (rs2Of w))
  | 0x2, 0x0 => some (.addQ (rdOf w) (rs1Of w) (rs2Of w))
  | 0x2, 0x1 => some (.subQ (rdOf w) (rs1Of w) (rs2Of w))
  | 0x2, 0x2 => some (.andQ (rdOf w) (rs1Of w) (rs2Of w))
  | 0x2, 0x3 => some (.orQ (rdOf w) (rs1Of w) (rs2Of w))
  | 0x2, 0x4 => some (.xorQ (rdOf w) (rs1Of w) (rs2Of w))
  | 0x2, 0x5 => some (.shrQ (rdOf w) (rs1Of w) (rs2Of w))
  | 0x2, 0x6 => some (.asrQ (rdOf w) (rs1Of w) (rs2Of w))
  | 0x2, 0x7 => some (.shlQ (rdOf w) (rs1Of w) (rs2Of w))
  | 0x2, 0x8 => some (.cchQ (rdOf w) (rs1Of w) (rs2Of w))
  | 0x2, 0x9 => some (.bchQ (rdOf w) (rs1Of w) (rs2Of w))
  | 0x2, 0xA => some (.sltQ (rdOf w) (rs1Of w) (rs2Of w))
  | _, _ => none

/-- Opcode 0x01 (30_encoding.md R109). -/
def decodeOp01 (w : BitVec 32) : Option Instr :=
  match (fn4Of w).toNat with
  | 0x0 => some (.addi (rdOf w) (rs1Of w) (imm12Of w))
  | 0x2 => some (.andi (rdOf w) (rs1Of w) (imm12Of w))
  | 0x3 => some (.ori (rdOf w) (rs1Of w) (imm12Of w))
  | 0x4 => some (.xori (rdOf w) (rs1Of w) (imm12Of w))
  | 0x5 => some (.shri (rdOf w) (rs1Of w) (imm12Of w))
  | 0x6 => some (.asri (rdOf w) (rs1Of w) (imm12Of w))
  | 0x7 => some (.shli (rdOf w) (rs1Of w) (imm12Of w))
  | 0x8 => some (.cchi (rdOf w) (rs1Of w) (imm12Of w))
  | 0x9 => some (.bchi (rdOf w) (rs1Of w) (imm12Of w))
  | 0xA => some (.slti (rdOf w) (rs1Of w) (imm12Of w))
  | _ => none

/-- Opcode 0x03 (30_encoding.md R110). -/
def decodeOp03 (w : BitVec 32) : Option Instr :=
  match (fn4Of w).toNat with
  | 0x0 => some (.stb (rs1Of w) (rs2Of w) (immSSIOf w))
  | 0x1 => some (.stw (rs1Of w) (rs2Of w) (immSSIOf w))
  | 0x2 => some (.std (rs1Of w) (rs2Of w) (immSSIOf w))
  | 0x3 => some (.stq (rs1Of w) (rs2Of w) (immSSIOf w))
  | _ => none

/-- Opcode 0x04 (30_encoding.md R110). -/
def decodeOp04 (w : BitVec 32) : Option Instr :=
  match (fn4Of w).toNat with
  | 0x0 => some (.ldb (rdOf w) (rs1Of w) (imm12Of w))
  | 0x1 => some (.ldw (rdOf w) (rs1Of w) (imm12Of w))
  | 0x2 => some (.ldd (rdOf w) (rs1Of w) (imm12Of w))
  | 0x3 => some (.ldq (rdOf w) (rs1Of w) (imm12Of w))
  | 0x4 => some (.ldsb (rdOf w) (rs1Of w) (imm12Of w))
  | 0x5 => some (.ldsw (rdOf w) (rs1Of w) (imm12Of w))
  | 0x6 => some (.ldsd (rdOf w) (rs1Of w) (imm12Of w))
  | _ => none

/-- Opcode 0x06 (30_encoding.md R110). -/
def decodeOp06 (w : BitVec 32) : Option Instr :=
  match (fn4Of w).toNat with
  | 0x0 => some (.jalr (rdOf w) (rs1Of w) (imm12Of w))
  | _ => none

/-- Opcode 0x07 (30_encoding.md R110). -/
def decodeOp07 (w : BitVec 32) : Option Instr :=
  match (fn4Of w).toNat with
  | 0x0 => some (.jeq (rs1Of w) (rs2Of w) (immSSIOf w))
  | 0x1 => some (.jlt (rs1Of w) (rs2Of w) (immSSIOf w))
  | 0x2 => some (.jslt (rs1Of w) (rs2Of w) (immSSIOf w))
  | 0x4 => some (.jne (rs1Of w) (rs2Of w) (immSSIOf w))
  | 0x5 => some (.jge (rs1Of w) (rs2Of w) (immSSIOf w))
  | 0x6 => some (.jsge (rs1Of w) (rs2Of w) (immSSIOf w))
  | _ => none

/-- Opcode 0x08 (30_encoding.md R111): fn4 first, then fn7 where the format has one. -/
def decodeOp08 (w : BitVec 32) : Option Instr :=
  match (fn4Of w).toNat with
  | 0x0 =>
    match (fn7Of w).toNat with
    | 0x0 => some .syscall
    | 0x1 => some .sysbreak
    | _ => none
  | 0x1 =>
    match (fn7Of w).toNat with
    | 0x1 => some .sysret
    | 0x3 => some .mret
    | _ => none
  | 0x2 => some (.csrr (rdOf w) (imm12Of w))
  | 0x3 => some (.csrw (rs1Of w) (imm12Of w))
  | 0x4 => some (.csrs (imm12Of w) (rdOf w))
  | 0x5 => some (.csrc (imm12Of w) (rdOf w))
  | 0x6 =>
    match (fn7Of w).toNat with
    | 0x0 => some (.inb (rdOf w) (rs1Of w))
    | 0x1 => some (.inw (rdOf w) (rs1Of w))
    | 0x2 => some (.ind (rdOf w) (rs1Of w))
    | 0x4 => some (.insb (rdOf w) (rs1Of w))
    | 0x5 => some (.insw (rdOf w) (rs1Of w))
    | _ => none
  | 0x7 =>
    match (fn7Of w).toNat with
    | 0x0 => some (.outb (rs1Of w) (rs2Of w))
    | 0x1 => some (.outw (rs1Of w) (rs2Of w))
    | 0x2 => some (.outd (rs1Of w) (rs2Of w))
    | _ => none
  | 0x8 => if fn7Of w = 0 ∧ iorwOf w ≠ 0 then some (.fence (iorwOf w)) else none
  | _ => none

/-- Opcode 0x09 (30_encoding.md R112, R356; 47_srm64.md R449). -/
def decodeOp09 (w : BitVec 32) : Option Instr :=
  match (fn7Of w).toNat, (fn4Of w).toNat with
  | 0x0, 0x0 => some (.llB (rdOf w) (rs1Of w))
  | 0x0, 0x1 => some (.llW (rdOf w) (rs1Of w))
  | 0x0, 0x2 => some (.llD (rdOf w) (rs1Of w))
  | 0x0, 0x3 => some (.llQ (rdOf w) (rs1Of w))
  | 0x0, 0x4 => some (.llSb (rdOf w) (rs1Of w))
  | 0x0, 0x5 => some (.llSw (rdOf w) (rs1Of w))
  | 0x0, 0x6 => some (.llSd (rdOf w) (rs1Of w))
  | 0x1, 0x0 => some (.scB (rdOf w) (rs1Of w) (rs2Of w))
  | 0x1, 0x1 => some (.scW (rdOf w) (rs1Of w) (rs2Of w))
  | 0x1, 0x2 => some (.scD (rdOf w) (rs1Of w) (rs2Of w))
  | 0x1, 0x3 => some (.scQ (rdOf w) (rs1Of w) (rs2Of w))
  | 0x2, 0x0 => some (.acmpxchgB (rdOf w) (rs1Of w) (rs2Of w))
  | 0x2, 0x1 => some (.acmpxchgW (rdOf w) (rs1Of w) (rs2Of w))
  | 0x2, 0x2 => some (.acmpxchgD (rdOf w) (rs1Of w) (rs2Of w))
  | 0x2, 0x3 => some (.acmpxchgQ (rdOf w) (rs1Of w) (rs2Of w))
  | 0x3, 0x0 => some (.axaddB (rdOf w) (rs1Of w) (rs2Of w))
  | 0x3, 0x1 => some (.axaddW (rdOf w) (rs1Of w) (rs2Of w))
  | 0x3, 0x2 => some (.axaddD (rdOf w) (rs1Of w) (rs2Of w))
  | 0x3, 0x3 => some (.axaddQ (rdOf w) (rs1Of w) (rs2Of w))
  | 0x3, 0x4 => some (.axaddSb (rdOf w) (rs1Of w) (rs2Of w))
  | 0x3, 0x5 => some (.axaddSw (rdOf w) (rs1Of w) (rs2Of w))
  | 0x3, 0x6 => some (.axaddSd (rdOf w) (rs1Of w) (rs2Of w))
  | 0x4, 0x0 => some (.axsubB (rdOf w) (rs1Of w) (rs2Of w))
  | 0x4, 0x1 => some (.axsubW (rdOf w) (rs1Of w) (rs2Of w))
  | 0x4, 0x2 => some (.axsubD (rdOf w) (rs1Of w) (rs2Of w))
  | 0x4, 0x3 => some (.axsubQ (rdOf w) (rs1Of w) (rs2Of w))
  | 0x4, 0x4 => some (.axsubSb (rdOf w) (rs1Of w) (rs2Of w))
  | 0x4, 0x5 => some (.axsubSw (rdOf w) (rs1Of w) (rs2Of w))
  | 0x4, 0x6 => some (.axsubSd (rdOf w) (rs1Of w) (rs2Of w))
  | 0x5, 0x0 => some (.axandB (rdOf w) (rs1Of w) (rs2Of w))
  | 0x5, 0x1 => some (.axandW (rdOf w) (rs1Of w) (rs2Of w))
  | 0x5, 0x2 => some (.axandD (rdOf w) (rs1Of w) (rs2Of w))
  | 0x5, 0x3 => some (.axandQ (rdOf w) (rs1Of w) (rs2Of w))
  | 0x5, 0x4 => some (.axandSb (rdOf w) (rs1Of w) (rs2Of w))
  | 0x5, 0x5 => some (.axandSw (rdOf w) (rs1Of w) (rs2Of w))
  | 0x5, 0x6 => some (.axandSd (rdOf w) (rs1Of w) (rs2Of w))
  | 0x6, 0x0 => some (.axiorB (rdOf w) (rs1Of w) (rs2Of w))
  | 0x6, 0x1 => some (.axiorW (rdOf w) (rs1Of w) (rs2Of w))
  | 0x6, 0x2 => some (.axiorD (rdOf w) (rs1Of w) (rs2Of w))
  | 0x6, 0x3 => some (.axiorQ (rdOf w) (rs1Of w) (rs2Of w))
  | 0x6, 0x4 => some (.axiorSb (rdOf w) (rs1Of w) (rs2Of w))
  | 0x6, 0x5 => some (.axiorSw (rdOf w) (rs1Of w) (rs2Of w))
  | 0x6, 0x6 => some (.axiorSd (rdOf w) (rs1Of w) (rs2Of w))
  | 0x7, 0x0 => some (.axxorB (rdOf w) (rs1Of w) (rs2Of w))
  | 0x7, 0x1 => some (.axxorW (rdOf w) (rs1Of w) (rs2Of w))
  | 0x7, 0x2 => some (.axxorD (rdOf w) (rs1Of w) (rs2Of w))
  | 0x7, 0x3 => some (.axxorQ (rdOf w) (rs1Of w) (rs2Of w))
  | 0x7, 0x4 => some (.axxorSb (rdOf w) (rs1Of w) (rs2Of w))
  | 0x7, 0x5 => some (.axxorSw (rdOf w) (rs1Of w) (rs2Of w))
  | 0x7, 0x6 => some (.axxorSd (rdOf w) (rs1Of w) (rs2Of w))
  | 0x8, 0x0 => some (.axmaxB (rdOf w) (rs1Of w) (rs2Of w))
  | 0x8, 0x1 => some (.axmaxW (rdOf w) (rs1Of w) (rs2Of w))
  | 0x8, 0x2 => some (.axmaxD (rdOf w) (rs1Of w) (rs2Of w))
  | 0x8, 0x3 => some (.axmaxQ (rdOf w) (rs1Of w) (rs2Of w))
  | 0x8, 0x4 => some (.axmaxSb (rdOf w) (rs1Of w) (rs2Of w))
  | 0x8, 0x5 => some (.axmaxSw (rdOf w) (rs1Of w) (rs2Of w))
  | 0x8, 0x6 => some (.axmaxSd (rdOf w) (rs1Of w) (rs2Of w))
  | 0x9, 0x0 => some (.axminB (rdOf w) (rs1Of w) (rs2Of w))
  | 0x9, 0x1 => some (.axminW (rdOf w) (rs1Of w) (rs2Of w))
  | 0x9, 0x2 => some (.axminD (rdOf w) (rs1Of w) (rs2Of w))
  | 0x9, 0x3 => some (.axminQ (rdOf w) (rs1Of w) (rs2Of w))
  | 0x9, 0x4 => some (.axminSb (rdOf w) (rs1Of w) (rs2Of w))
  | 0x9, 0x5 => some (.axminSw (rdOf w) (rs1Of w) (rs2Of w))
  | 0x9, 0x6 => some (.axminSd (rdOf w) (rs1Of w) (rs2Of w))
  | _, _ => none

/-- Opcode 0x0A (30_encoding.md R109). -/
def decodeOp0A (w : BitVec 32) : Option Instr :=
  match (fn4Of w).toNat with
  | 0x0 => some (.addiQ (rdOf w) (rs1Of w) (imm12Of w))
  | 0x2 => some (.andiQ (rdOf w) (rs1Of w) (imm12Of w))
  | 0x3 => some (.oriQ (rdOf w) (rs1Of w) (imm12Of w))
  | 0x4 => some (.xoriQ (rdOf w) (rs1Of w) (imm12Of w))
  | 0x5 => some (.shriQ (rdOf w) (rs1Of w) (imm12Of w))
  | 0x6 => some (.asriQ (rdOf w) (rs1Of w) (imm12Of w))
  | 0x7 => some (.shliQ (rdOf w) (rs1Of w) (imm12Of w))
  | 0x8 => some (.cchiQ (rdOf w) (rs1Of w) (imm12Of w))
  | 0x9 => some (.bchiQ (rdOf w) (rs1Of w) (imm12Of w))
  | 0xA => some (.sltiQ (rdOf w) (rs1Of w) (imm12Of w))
  | _ => none

/-- The instruction that the selecting fields of a word name (30_encoding.md R107). -/
def decodeWord (w : BitVec 32) : Option Instr :=
  match (opcodeOf w).toNat with
  | 0x0 => decodeOp00 w
  | 0x1 => decodeOp01 w
  | 0x2 => some (.lui (rdOf w) (imm21Of w))
  | 0x3 => decodeOp03 w
  | 0x4 => decodeOp04 w
  | 0x5 => some (.jal (rdOf w) (imm21Of w))
  | 0x6 => decodeOp06 w
  | 0x7 => decodeOp07 w
  | 0x8 => decodeOp08 w
  | 0x9 => decodeOp09 w
  | 0xA => decodeOp0A w
  | _ => none

/-- The bits of the word that the instruction does not use and an assembler writes as 0: `strict_mask` without `mask`
of spec/opcode_table.json (30_encoding.md R115). -/
def Instr.unusedBits : Instr → BitVec 32
  | .add .. | .sub .. | .and .. | .or .. | .xor .. | .shr .. | .asr .. | .shl .. | .cch .. | .bch .. | .slt ..
  | .addi .. | .andi .. | .ori .. | .xori .. | .shri .. | .asri .. | .shli .. | .cchi .. | .bchi .. | .slti ..
  | .lui .. | .stb .. | .stw .. | .std .. | .ldb .. | .ldsb .. | .ldw .. | .ldsw .. | .ldd .. | .jal .. | .jalr ..
  | .jeq .. | .jlt .. | .jslt .. | .jne .. | .jge .. | .jsge .. | .mul .. | .mulh .. | .smulh .. | .div .. | .sdiv ..
  | .mod .. | .smod .. | .scB .. | .scW .. | .scD .. | .acmpxchgB .. | .acmpxchgW .. | .acmpxchgD .. | .axaddB ..
  | .axaddW .. | .axaddD .. | .axaddSb .. | .axaddSw .. | .axsubB .. | .axsubW .. | .axsubD .. | .axsubSb ..
  | .axsubSw .. | .axandB .. | .axandW .. | .axandD .. | .axandSb .. | .axandSw .. | .axiorB .. | .axiorW ..
  | .axiorD .. | .axiorSb .. | .axiorSw .. | .axxorB .. | .axxorW .. | .axxorD .. | .axxorSb .. | .axxorSw ..
  | .axmaxB .. | .axmaxW .. | .axmaxD .. | .axmaxSb .. | .axmaxSw .. | .axminB .. | .axminW .. | .axminD ..
  | .axminSb .. | .axminSw .. | .stq .. | .ldq .. | .ldsd .. | .addQ .. | .subQ .. | .andQ .. | .orQ .. | .xorQ ..
  | .shrQ .. | .asrQ .. | .shlQ .. | .cchQ .. | .bchQ .. | .sltQ .. | .addiQ .. | .andiQ .. | .oriQ .. | .xoriQ ..
  | .shriQ .. | .asriQ .. | .shliQ .. | .cchiQ .. | .bchiQ .. | .sltiQ .. | .mulQ .. | .mulhQ .. | .smulhQ ..
  | .divQ .. | .sdivQ .. | .modQ .. | .smodQ .. | .scQ .. | .acmpxchgQ .. | .axaddQ .. | .axaddSd .. | .axsubQ ..
  | .axsubSd .. | .axandQ .. | .axandSd .. | .axiorQ .. | .axiorSd .. | .axxorQ .. | .axxorSd .. | .axmaxQ ..
  | .axmaxSd .. | .axminQ .. | .axminSd .. => 0x00000000
  | .syscall | .sysbreak | .mret | .sysret => 0x01F0FFC0
  | .csrr .. | .csrs .. | .csrc .. => 0x0000F800
  | .csrw .. | .outb .. | .outw .. | .outd .. => 0x000007C0
  | .fence .. => 0x0100FFC0
  | .inb .. | .inw .. | .ind .. | .insb .. | .insw .. | .llB .. | .llW .. | .llD .. | .llSb .. | .llSw .. | .llQ ..
  | .llSd .. => 0x01F00000

/-- One instruction word on a configured core (30_encoding.md R114, R115, R117; 10_state.md R25). -/
def decode (c : Config) (w : BitVec 32) : Except DecodeError Instr :=
  match decodeWord w with
  | none => .error .unassigned
  | some i =>
    if !i.available c then .error .absentExtension
    else if c.unusedField = .strict ∧ w &&& i.unusedBits ≠ 0 then .error .unusedField
    else if !i.regs.all (Reg.present c) then .error .absentRegister
    else .ok i

/-- Four bytes, the first at the lowest address, as an instruction word: little-endian (20_memory.md R63). -/
def wordOfBytes (b0 b1 b2 b3 : Byte) : BitVec 32 := b3 ++ b2 ++ b1 ++ b0

/-- The decoder on any bytes: the instruction and the bytes after it (30_encoding.md R90). -/
def decodeBytes (c : Config) : List Byte → Except DecodeError (Instr × List Byte)
  | b0 :: b1 :: b2 :: b3 :: rest =>
    match decode c (wordOfBytes b0 b1 b2 b3) with
    | .ok i => .ok (i, rest)
    | .error e => .error e
  | _ => .error .truncated

/-- The bytes of a word in memory order: little-endian (20_memory.md R63). -/
def bytesOfWord (w : BitVec 32) : List Byte :=
  [w.extractLsb' 0 8, w.extractLsb' 8 8, w.extractLsb' 16 8, w.extractLsb' 24 8]

/-- The instruction the decoder of the reset configuration reads from a word numbered as spec/opcode_table.json numbers
it; every bit above `nbits` is 0. -/
def decodeTableWord (nbits w : Nat) : Option Instr :=
  match decodeBytes Config.default (bytesOfWord (BitVec.ofNat 32 (w % 2 ^ nbits))) with
  | .ok (i, _) => some i
  | .error _ => none

/-! The encoding functions of the formats (30_encoding.md R93 to R98). -/

/-- Format DI (R93). -/
def encDI (op : BitVec 6) (rd : Reg) (imm : BitVec 21) : BitVec 32 := imm ++ rd ++ op

/-- Format DSS (R94). -/
def encDSS (op : BitVec 6) (fn7 : BitVec 7) (fn4 : BitVec 4) (rd rs1 rs2 : Reg) : BitVec 32 :=
  fn7 ++ rs2 ++ fn4 ++ rs1 ++ rd ++ op

/-- Format DSI (R95). -/
def encDSI (op : BitVec 6) (fn4 : BitVec 4) (rd rs1 : Reg) (imm : BitVec 12) : BitVec 32 :=
  imm ++ fn4 ++ rs1 ++ rd ++ op

/-- Format SSI (R96): the low seven bits of the immediate stand high in the word, its high five where `rd` is. -/
def encSSI (op : BitVec 6) (fn4 : BitVec 4) (rs1 rs2 : Reg) (imm : BitVec 12) : BitVec 32 :=
  imm.extractLsb' 0 7 ++ rs2 ++ fn4 ++ rs1 ++ imm.extractLsb' 7 5 ++ op

/-- Format CSB (R97), the reserved bits 0. -/
def encCSB (op : BitVec 6) (fn4 : BitVec 4) (csr : BitVec 12) (sel : BitVec 5) : BitVec 32 :=
  csr ++ fn4 ++ 0#5 ++ sel ++ op

/-- Format FNC (R98), bit 24 and the reserved bits 0. -/
def encFNC (op : BitVec 6) (fn7 : BitVec 7) (fn4 : BitVec 4) (iorw : BitVec 4) : BitVec 32 :=
  fn7 ++ 0#1 ++ iorw ++ fn4 ++ 0#10 ++ op

/-- The word of an instruction; every unused field is 0 (30_encoding.md R115). -/
def encode : Instr → BitVec 32
  | .add rd rs1 rs2 => encDSS 0x0 0x0 0x0 rd rs1 rs2
  | .sub rd rs1 rs2 => encDSS 0x0 0x0 0x1 rd rs1 rs2
  | .and rd rs1 rs2 => encDSS 0x0 0x0 0x2 rd rs1 rs2
  | .or rd rs1 rs2 => encDSS 0x0 0x0 0x3 rd rs1 rs2
  | .xor rd rs1 rs2 => encDSS 0x0 0x0 0x4 rd rs1 rs2
  | .shr rd rs1 rs2 => encDSS 0x0 0x0 0x5 rd rs1 rs2
  | .asr rd rs1 rs2 => encDSS 0x0 0x0 0x6 rd rs1 rs2
  | .shl rd rs1 rs2 => encDSS 0x0 0x0 0x7 rd rs1 rs2
  | .cch rd rs1 rs2 => encDSS 0x0 0x0 0x8 rd rs1 rs2
  | .bch rd rs1 rs2 => encDSS 0x0 0x0 0x9 rd rs1 rs2
  | .slt rd rs1 rs2 => encDSS 0x0 0x0 0xA rd rs1 rs2
  | .addi rd rs1 imm => encDSI 0x1 0x0 rd rs1 imm
  | .andi rd rs1 imm => encDSI 0x1 0x2 rd rs1 imm
  | .ori rd rs1 imm => encDSI 0x1 0x3 rd rs1 imm
  | .xori rd rs1 imm => encDSI 0x1 0x4 rd rs1 imm
  | .shri rd rs1 imm => encDSI 0x1 0x5 rd rs1 imm
  | .asri rd rs1 imm => encDSI 0x1 0x6 rd rs1 imm
  | .shli rd rs1 imm => encDSI 0x1 0x7 rd rs1 imm
  | .cchi rd rs1 imm => encDSI 0x1 0x8 rd rs1 imm
  | .bchi rd rs1 imm => encDSI 0x1 0x9 rd rs1 imm
  | .slti rd rs1 imm => encDSI 0x1 0xA rd rs1 imm
  | .lui rd imm => encDI 0x2 rd imm
  | .stb rs1 rs2 imm => encSSI 0x3 0x0 rs1 rs2 imm
  | .stw rs1 rs2 imm => encSSI 0x3 0x1 rs1 rs2 imm
  | .std rs1 rs2 imm => encSSI 0x3 0x2 rs1 rs2 imm
  | .ldb rd rs1 imm => encDSI 0x4 0x0 rd rs1 imm
  | .ldsb rd rs1 imm => encDSI 0x4 0x4 rd rs1 imm
  | .ldw rd rs1 imm => encDSI 0x4 0x1 rd rs1 imm
  | .ldsw rd rs1 imm => encDSI 0x4 0x5 rd rs1 imm
  | .ldd rd rs1 imm => encDSI 0x4 0x2 rd rs1 imm
  | .jal rd imm => encDI 0x5 rd imm
  | .jalr rd rs1 imm => encDSI 0x6 0x0 rd rs1 imm
  | .jeq rs1 rs2 imm => encSSI 0x7 0x0 rs1 rs2 imm
  | .jlt rs1 rs2 imm => encSSI 0x7 0x1 rs1 rs2 imm
  | .jslt rs1 rs2 imm => encSSI 0x7 0x2 rs1 rs2 imm
  | .jne rs1 rs2 imm => encSSI 0x7 0x4 rs1 rs2 imm
  | .jge rs1 rs2 imm => encSSI 0x7 0x5 rs1 rs2 imm
  | .jsge rs1 rs2 imm => encSSI 0x7 0x6 rs1 rs2 imm
  | .syscall => encDSS 0x8 0x0 0x0 0 0 0
  | .sysbreak => encDSS 0x8 0x1 0x0 0 0 0
  | .mret => encDSS 0x8 0x3 0x1 0 0 0
  | .sysret => encDSS 0x8 0x1 0x1 0 0 0
  | .csrr rd csr => encDSI 0x8 0x2 rd 0 csr
  | .csrw rs1 csr => encDSI 0x8 0x3 0 rs1 csr
  | .csrs csr sel => encCSB 0x8 0x4 csr sel
  | .csrc csr sel => encCSB 0x8 0x5 csr sel
  | .fence iorw => encFNC 0x8 0x0 0x8 iorw
  | .inb rd rs1 => encDSS 0x8 0x0 0x6 rd rs1 0
  | .inw rd rs1 => encDSS 0x8 0x1 0x6 rd rs1 0
  | .ind rd rs1 => encDSS 0x8 0x2 0x6 rd rs1 0
  | .insb rd rs1 => encDSS 0x8 0x4 0x6 rd rs1 0
  | .insw rd rs1 => encDSS 0x8 0x5 0x6 rd rs1 0
  | .outb rs1 rs2 => encDSS 0x8 0x0 0x7 0 rs1 rs2
  | .outw rs1 rs2 => encDSS 0x8 0x1 0x7 0 rs1 rs2
  | .outd rs1 rs2 => encDSS 0x8 0x2 0x7 0 rs1 rs2
  | .mul rd rs1 rs2 => encDSS 0x0 0x1 0x0 rd rs1 rs2
  | .mulh rd rs1 rs2 => encDSS 0x0 0x1 0x2 rd rs1 rs2
  | .smulh rd rs1 rs2 => encDSS 0x0 0x1 0x3 rd rs1 rs2
  | .div rd rs1 rs2 => encDSS 0x0 0x1 0x4 rd rs1 rs2
  | .sdiv rd rs1 rs2 => encDSS 0x0 0x1 0x5 rd rs1 rs2
  | .mod rd rs1 rs2 => encDSS 0x0 0x1 0x6 rd rs1 rs2
  | .smod rd rs1 rs2 => encDSS 0x0 0x1 0x7 rd rs1 rs2
  | .llB rd rs1 => encDSS 0x9 0x0 0x0 rd rs1 0
  | .llW rd rs1 => encDSS 0x9 0x0 0x1 rd rs1 0
  | .llD rd rs1 => encDSS 0x9 0x0 0x2 rd rs1 0
  | .llSb rd rs1 => encDSS 0x9 0x0 0x4 rd rs1 0
  | .llSw rd rs1 => encDSS 0x9 0x0 0x5 rd rs1 0
  | .scB rd rs1 rs2 => encDSS 0x9 0x1 0x0 rd rs1 rs2
  | .scW rd rs1 rs2 => encDSS 0x9 0x1 0x1 rd rs1 rs2
  | .scD rd rs1 rs2 => encDSS 0x9 0x1 0x2 rd rs1 rs2
  | .acmpxchgB rd rs1 rs2 => encDSS 0x9 0x2 0x0 rd rs1 rs2
  | .acmpxchgW rd rs1 rs2 => encDSS 0x9 0x2 0x1 rd rs1 rs2
  | .acmpxchgD rd rs1 rs2 => encDSS 0x9 0x2 0x2 rd rs1 rs2
  | .axaddB rd rs1 rs2 => encDSS 0x9 0x3 0x0 rd rs1 rs2
  | .axaddW rd rs1 rs2 => encDSS 0x9 0x3 0x1 rd rs1 rs2
  | .axaddD rd rs1 rs2 => encDSS 0x9 0x3 0x2 rd rs1 rs2
  | .axaddSb rd rs1 rs2 => encDSS 0x9 0x3 0x4 rd rs1 rs2
  | .axaddSw rd rs1 rs2 => encDSS 0x9 0x3 0x5 rd rs1 rs2
  | .axsubB rd rs1 rs2 => encDSS 0x9 0x4 0x0 rd rs1 rs2
  | .axsubW rd rs1 rs2 => encDSS 0x9 0x4 0x1 rd rs1 rs2
  | .axsubD rd rs1 rs2 => encDSS 0x9 0x4 0x2 rd rs1 rs2
  | .axsubSb rd rs1 rs2 => encDSS 0x9 0x4 0x4 rd rs1 rs2
  | .axsubSw rd rs1 rs2 => encDSS 0x9 0x4 0x5 rd rs1 rs2
  | .axandB rd rs1 rs2 => encDSS 0x9 0x5 0x0 rd rs1 rs2
  | .axandW rd rs1 rs2 => encDSS 0x9 0x5 0x1 rd rs1 rs2
  | .axandD rd rs1 rs2 => encDSS 0x9 0x5 0x2 rd rs1 rs2
  | .axandSb rd rs1 rs2 => encDSS 0x9 0x5 0x4 rd rs1 rs2
  | .axandSw rd rs1 rs2 => encDSS 0x9 0x5 0x5 rd rs1 rs2
  | .axiorB rd rs1 rs2 => encDSS 0x9 0x6 0x0 rd rs1 rs2
  | .axiorW rd rs1 rs2 => encDSS 0x9 0x6 0x1 rd rs1 rs2
  | .axiorD rd rs1 rs2 => encDSS 0x9 0x6 0x2 rd rs1 rs2
  | .axiorSb rd rs1 rs2 => encDSS 0x9 0x6 0x4 rd rs1 rs2
  | .axiorSw rd rs1 rs2 => encDSS 0x9 0x6 0x5 rd rs1 rs2
  | .axxorB rd rs1 rs2 => encDSS 0x9 0x7 0x0 rd rs1 rs2
  | .axxorW rd rs1 rs2 => encDSS 0x9 0x7 0x1 rd rs1 rs2
  | .axxorD rd rs1 rs2 => encDSS 0x9 0x7 0x2 rd rs1 rs2
  | .axxorSb rd rs1 rs2 => encDSS 0x9 0x7 0x4 rd rs1 rs2
  | .axxorSw rd rs1 rs2 => encDSS 0x9 0x7 0x5 rd rs1 rs2
  | .axmaxB rd rs1 rs2 => encDSS 0x9 0x8 0x0 rd rs1 rs2
  | .axmaxW rd rs1 rs2 => encDSS 0x9 0x8 0x1 rd rs1 rs2
  | .axmaxD rd rs1 rs2 => encDSS 0x9 0x8 0x2 rd rs1 rs2
  | .axmaxSb rd rs1 rs2 => encDSS 0x9 0x8 0x4 rd rs1 rs2
  | .axmaxSw rd rs1 rs2 => encDSS 0x9 0x8 0x5 rd rs1 rs2
  | .axminB rd rs1 rs2 => encDSS 0x9 0x9 0x0 rd rs1 rs2
  | .axminW rd rs1 rs2 => encDSS 0x9 0x9 0x1 rd rs1 rs2
  | .axminD rd rs1 rs2 => encDSS 0x9 0x9 0x2 rd rs1 rs2
  | .axminSb rd rs1 rs2 => encDSS 0x9 0x9 0x4 rd rs1 rs2
  | .axminSw rd rs1 rs2 => encDSS 0x9 0x9 0x5 rd rs1 rs2
  | .stq rs1 rs2 imm => encSSI 0x3 0x3 rs1 rs2 imm
  | .ldq rd rs1 imm => encDSI 0x4 0x3 rd rs1 imm
  | .ldsd rd rs1 imm => encDSI 0x4 0x6 rd rs1 imm
  | .addQ rd rs1 rs2 => encDSS 0x0 0x2 0x0 rd rs1 rs2
  | .subQ rd rs1 rs2 => encDSS 0x0 0x2 0x1 rd rs1 rs2
  | .andQ rd rs1 rs2 => encDSS 0x0 0x2 0x2 rd rs1 rs2
  | .orQ rd rs1 rs2 => encDSS 0x0 0x2 0x3 rd rs1 rs2
  | .xorQ rd rs1 rs2 => encDSS 0x0 0x2 0x4 rd rs1 rs2
  | .shrQ rd rs1 rs2 => encDSS 0x0 0x2 0x5 rd rs1 rs2
  | .asrQ rd rs1 rs2 => encDSS 0x0 0x2 0x6 rd rs1 rs2
  | .shlQ rd rs1 rs2 => encDSS 0x0 0x2 0x7 rd rs1 rs2
  | .cchQ rd rs1 rs2 => encDSS 0x0 0x2 0x8 rd rs1 rs2
  | .bchQ rd rs1 rs2 => encDSS 0x0 0x2 0x9 rd rs1 rs2
  | .sltQ rd rs1 rs2 => encDSS 0x0 0x2 0xA rd rs1 rs2
  | .addiQ rd rs1 imm => encDSI 0xA 0x0 rd rs1 imm
  | .andiQ rd rs1 imm => encDSI 0xA 0x2 rd rs1 imm
  | .oriQ rd rs1 imm => encDSI 0xA 0x3 rd rs1 imm
  | .xoriQ rd rs1 imm => encDSI 0xA 0x4 rd rs1 imm
  | .shriQ rd rs1 imm => encDSI 0xA 0x5 rd rs1 imm
  | .asriQ rd rs1 imm => encDSI 0xA 0x6 rd rs1 imm
  | .shliQ rd rs1 imm => encDSI 0xA 0x7 rd rs1 imm
  | .cchiQ rd rs1 imm => encDSI 0xA 0x8 rd rs1 imm
  | .bchiQ rd rs1 imm => encDSI 0xA 0x9 rd rs1 imm
  | .sltiQ rd rs1 imm => encDSI 0xA 0xA rd rs1 imm
  | .mulQ rd rs1 rs2 => encDSS 0x0 0x1 0x8 rd rs1 rs2
  | .mulhQ rd rs1 rs2 => encDSS 0x0 0x1 0xA rd rs1 rs2
  | .smulhQ rd rs1 rs2 => encDSS 0x0 0x1 0xB rd rs1 rs2
  | .divQ rd rs1 rs2 => encDSS 0x0 0x1 0xC rd rs1 rs2
  | .sdivQ rd rs1 rs2 => encDSS 0x0 0x1 0xD rd rs1 rs2
  | .modQ rd rs1 rs2 => encDSS 0x0 0x1 0xE rd rs1 rs2
  | .smodQ rd rs1 rs2 => encDSS 0x0 0x1 0xF rd rs1 rs2
  | .llQ rd rs1 => encDSS 0x9 0x0 0x3 rd rs1 0
  | .llSd rd rs1 => encDSS 0x9 0x0 0x6 rd rs1 0
  | .scQ rd rs1 rs2 => encDSS 0x9 0x1 0x3 rd rs1 rs2
  | .acmpxchgQ rd rs1 rs2 => encDSS 0x9 0x2 0x3 rd rs1 rs2
  | .axaddQ rd rs1 rs2 => encDSS 0x9 0x3 0x3 rd rs1 rs2
  | .axaddSd rd rs1 rs2 => encDSS 0x9 0x3 0x6 rd rs1 rs2
  | .axsubQ rd rs1 rs2 => encDSS 0x9 0x4 0x3 rd rs1 rs2
  | .axsubSd rd rs1 rs2 => encDSS 0x9 0x4 0x6 rd rs1 rs2
  | .axandQ rd rs1 rs2 => encDSS 0x9 0x5 0x3 rd rs1 rs2
  | .axandSd rd rs1 rs2 => encDSS 0x9 0x5 0x6 rd rs1 rs2
  | .axiorQ rd rs1 rs2 => encDSS 0x9 0x6 0x3 rd rs1 rs2
  | .axiorSd rd rs1 rs2 => encDSS 0x9 0x6 0x6 rd rs1 rs2
  | .axxorQ rd rs1 rs2 => encDSS 0x9 0x7 0x3 rd rs1 rs2
  | .axxorSd rd rs1 rs2 => encDSS 0x9 0x7 0x6 rd rs1 rs2
  | .axmaxQ rd rs1 rs2 => encDSS 0x9 0x8 0x3 rd rs1 rs2
  | .axmaxSd rd rs1 rs2 => encDSS 0x9 0x8 0x6 rd rs1 rs2
  | .axminQ rd rs1 rs2 => encDSS 0x9 0x9 0x3 rd rs1 rs2
  | .axminSd rd rs1 rs2 => encDSS 0x9 0x9 0x6 rd rs1 rs2

/-- The bytes of an instruction in memory order. -/
def encodeBytes (i : Instr) : List Byte := bytesOfWord (encode i)

end Sys2Proof
end

