-- ==== Sys2Proof/Machine/Fetch.lean ====
section
/-! DEFINITION. Fetching the instruction at IP, and placing one there. -/

namespace Sys2Proof.Machine

/-- What a fetch gives. -/
inductive Fetched where
  | instr (i : Instr)
  | fault (f : Fault)
  | refused (r : Refusal)
deriving DecidableEq, Repr

/-- The refusal for bytes that are no instruction (30_encoding.md R114; log 17). -/
def refusalOf : DecodeError → Refusal
  | .unassigned => .unassignedEncoding
  | .absentExtension => .absentExtension
  | .unusedField => .unusedField
  | .absentRegister => .absentRegister
  | .truncated => .unassignedEncoding

/-- The four bytes from an address on. -/
def fetchBytes (m : Memory) (a : Nat) : List Byte := [m.read a, m.read (a + 1), m.read (a + 2), m.read (a + 3)]

/-- The fetch at IP: aligned (10_state.md R29), backed (20_memory.md R73), and not of a stored byte unless fetch is coherent
(20_memory.md R79); the word is little-endian (20_memory.md R63). -/
def fetch (s : State) : Fetched :=
  if s.ip.extractLsb' 0 2 ≠ 0 then .refused .misalignedIp
  else if !s.accessible s.ip .d then .fault .unbackedAddress
  else if !s.cfg.ifetchCoherent && Stored.touches s.ip.toNat 4 s.stored then .refused .fetchOfModifiedCode
  else
    match decodeBytes s.cfg (fetchBytes s.mem s.ip.toNat) with
    | .ok (i, _) => .instr i
    | .error e => .refused (refusalOf e)

/-- An instruction word placed at IP by a loader outside the machine: its bytes, which then count as not stored to by the
run (log 24). -/
def State.placeWord (s : State) (w : BitVec 32) : State :=
  { s with
    mem := s.mem.load s.ip.toNat (bytesOfWord w)
    stored := Stored.removeRange s.ip.toNat 4 s.stored }

end Sys2Proof.Machine
end

