-- ==== Sys2Proof/Machine/Step.lean ====
section
/-! DEFINITION. One step of the machine (60_exceptions.md R464). -/

namespace Sys2Proof.Machine

/-- What follows the sampling of the request: the trap entry, which is then the whole step, or one instruction. -/
def stepWith (taken : Option Word) (s : State) : Host.Outcome State Fault Refusal :=
  match taken with
  | some cause => takeTrap cause s
  | none =>
    match fetch s with
    | .instr i => exec i s
    | .fault f => .fault f
    | .refused r => .refused r

/-- One step: the other agents' writes, then the external interrupt input, then a trap entry or one instruction
(60_exceptions.md R464, 70_reset_and_hazards.md R513; D21, log 21). -/
def step (s : State) : Host.Outcome State Fault Refusal :=
  stepWith (sampleIrq (takeInput s).1 (takeInput s).2).1 (sampleIrq (takeInput s).1 (takeInput s).2).2

/-- The state with an instruction stored where `step` fetches next, its bits numbered as spec/opcode_table.json numbers them;
every bit above `nbits` is 0. -/
def State.withFetchWord (s : State) (nbits w : Nat) : State := s.placeWord (BitVec.ofNat 32 (w % 2 ^ nbits))

end Sys2Proof.Machine
end

