-- ==== Sys2Proof/Machine/Assembler.lean ====
section
/-! DEFINITION. The assembler's side of the spec: how an instruction is written, and what the pseudo-instructions and
macro-instructions expand to (43_pseudo_macro.md), with the corrections of D39 (log 20). No hardware. -/

namespace Sys2Proof.Asm

/-! ## Operands -/

/-- The distance from an instruction to a label as an immediate; `none` where it does not fit (30_encoding.md R106). -/
def labelOffset (bits : Nat) (here label : Int) : Option (BitVec bits) :=
  if -(2 ^ (bits - 1)) ≤ label - here ∧ label - here < 2 ^ (bits - 1) then some (BitVec.ofInt bits (label - here))
  else none

/-- The name of a register (10_state.md R23; r21 to r31 by D34). -/
def reg (r : Reg) : String := regNames.getD r.toNat ""

/-- The label of a CSR, or its number where it has none (10_state.md R31). -/
def csrLabel (n : BitVec 12) : String :=
  match n.toNat with
  | 0 => "mstatus"
  | 1 => "miva"
  | 2 => "mra"
  | 3 => "mcause"
  | 4 => "mpriv"
  | 2048 => "kstatus"
  | 2049 => "kiva"
  | 2050 => "kra"
  | 2051 => "kcause"
  | 2052 => "kpriv"
  | m => toString m

/-- The type of a fence: its letters in the order I, O, R, W (20_memory.md R77). -/
def fenceType (iorw : BitVec 4) : String :=
  (if iorw.getLsbD 3 then "i" else "") ++ (if iorw.getLsbD 2 then "o" else "") ++ (if iorw.getLsbD 1 then "r" else "")
    ++ (if iorw.getLsbD 0 then "w" else "")

/-- `name rd, rs1, rs2` -/
def three (m : String) (a b c : Reg) : String := m ++ " " ++ reg a ++ ", " ++ reg b ++ ", " ++ reg c

/-- `name rd, rs1, imm` -/
def twoImm (m : String) (a b : Reg) (imm : BitVec 12) : String :=
  m ++ " " ++ reg a ++ ", " ++ reg b ++ ", " ++ toString imm.toInt

/-- `name data, [base, imm]` (41_base_lui_memory.md R152, R156) -/
def based (m : String) (data base : Reg) (imm : BitVec 12) : String :=
  m ++ " " ++ reg data ++ ", [" ++ reg base ++ ", " ++ toString imm.toInt ++ "]"

/-- `name data, [address]` (44_system.md R260, 46_atomic.md R306) -/
def bracket (m : String) (data address : Reg) : String := m ++ " " ++ reg data ++ ", [" ++ reg address ++ "]"

/-- `name rd, rs2, [rs1]` (46_atomic.md R301, R311) -/
def atomic (m : String) (rd rs1 rs2 : Reg) : String :=
  m ++ " " ++ reg rd ++ ", " ++ reg rs2 ++ ", [" ++ reg rs1 ++ "]"

/-- A target written from the position of the instruction itself (00_scope.md R10) -/
def relative (d : Int) : String := if d < 0 then "$" ++ toString d else "$+" ++ toString d

/-- `name rs1, rs2, label` (42_base_control.md R180) -/
def jumpTo (m : String) (a b : Reg) (imm : BitVec 12) : String :=
  m ++ " " ++ reg a ++ ", " ++ reg b ++ ", " ++ relative imm.toInt

/-! ## The real instructions, as the syntax line of each rule writes them -/

/-- The assembler text of an instruction. -/
def text : Instr → String
  | .add rd rs1 rs2 => three "add" rd rs1 rs2
  | .sub rd rs1 rs2 => three "sub" rd rs1 rs2
  | .and rd rs1 rs2 => three "and" rd rs1 rs2
  | .or rd rs1 rs2 => three "or" rd rs1 rs2
  | .xor rd rs1 rs2 => three "xor" rd rs1 rs2
  | .shr rd rs1 rs2 => three "shr" rd rs1 rs2
  | .asr rd rs1 rs2 => three "asr" rd rs1 rs2
  | .shl rd rs1 rs2 => three "shl" rd rs1 rs2
  | .cch rd rs1 rs2 => three "cch" rd rs1 rs2
  | .bch rd rs1 rs2 => three "bch" rd rs1 rs2
  | .slt rd rs1 rs2 => three "slt" rd rs1 rs2
  | .addi rd rs1 imm => twoImm "addi" rd rs1 imm
  | .andi rd rs1 imm => twoImm "andi" rd rs1 imm
  | .ori rd rs1 imm => twoImm "ori" rd rs1 imm
  | .xori rd rs1 imm => twoImm "xori" rd rs1 imm
  | .shri rd rs1 imm => twoImm "shri" rd rs1 imm
  | .asri rd rs1 imm => twoImm "asri" rd rs1 imm
  | .shli rd rs1 imm => twoImm "shli" rd rs1 imm
  | .cchi rd rs1 imm => twoImm "cchi" rd rs1 imm
  | .bchi rd rs1 imm => twoImm "bchi" rd rs1 imm
  | .slti rd rs1 imm => twoImm "slti" rd rs1 imm
  | .lui rd imm => "lui " ++ reg rd ++ ", " ++ toString imm.toNat
  | .stb rs1 rs2 imm => based "stb" rs2 rs1 imm
  | .stw rs1 rs2 imm => based "stw" rs2 rs1 imm
  | .std rs1 rs2 imm => based "std" rs2 rs1 imm
  | .ldb rd rs1 imm => based "ldb" rd rs1 imm
  | .ldsb rd rs1 imm => based "ldsb" rd rs1 imm
  | .ldw rd rs1 imm => based "ldw" rd rs1 imm
  | .ldsw rd rs1 imm => based "ldsw" rd rs1 imm
  | .ldd rd rs1 imm => based "ldd" rd rs1 imm
  | .jal rd imm => "jal " ++ reg rd ++ ", " ++ relative imm.toInt
  | .jalr rd rs1 imm => twoImm "jalr" rd rs1 imm
  | .jeq rs1 rs2 imm => jumpTo "jeq" rs1 rs2 imm
  | .jlt rs1 rs2 imm => jumpTo "jlt" rs1 rs2 imm
  | .jslt rs1 rs2 imm => jumpTo "jslt" rs1 rs2 imm
  | .jne rs1 rs2 imm => jumpTo "jne" rs1 rs2 imm
  | .jge rs1 rs2 imm => jumpTo "jge" rs1 rs2 imm
  | .jsge rs1 rs2 imm => jumpTo "jsge" rs1 rs2 imm
  | .syscall => "syscall"
  | .sysbreak => "sysbreak"
  | .mret => "mret"
  | .sysret => "sysret"
  | .csrr rd csr => "csrr " ++ reg rd ++ ", " ++ csrLabel csr
  | .csrw rs1 csr => "csrw " ++ reg rs1 ++ ", " ++ csrLabel csr
  | .csrs csr sel => "csrs " ++ csrLabel csr ++ ", " ++ toString sel.toNat
  | .csrc csr sel => "csrc " ++ csrLabel csr ++ ", " ++ toString sel.toNat
  | .fence iorw => "fence " ++ fenceType iorw
  | .inb rd rs1 => bracket "inb" rd rs1
  | .inw rd rs1 => bracket "inw" rd rs1
  | .ind rd rs1 => bracket "ind" rd rs1
  | .insb rd rs1 => bracket "insb" rd rs1
  | .insw rd rs1 => bracket "insw" rd rs1
  | .outb rs1 rs2 => bracket "outb" rs2 rs1
  | .outw rs1 rs2 => bracket "outw" rs2 rs1
  | .outd rs1 rs2 => bracket "outd" rs2 rs1
  | .mul rd rs1 rs2 => three "mul" rd rs1 rs2
  | .mulh rd rs1 rs2 => three "mulh" rd rs1 rs2
  | .smulh rd rs1 rs2 => three "smulh" rd rs1 rs2
  | .div rd rs1 rs2 => three "div" rd rs1 rs2
  | .sdiv rd rs1 rs2 => three "sdiv" rd rs1 rs2
  | .mod rd rs1 rs2 => three "mod" rd rs1 rs2
  | .smod rd rs1 rs2 => three "smod" rd rs1 rs2
  | .llB rd rs1 => bracket "ll.b" rd rs1
  | .llW rd rs1 => bracket "ll.w" rd rs1
  | .llD rd rs1 => bracket "ll.d" rd rs1
  | .llSb rd rs1 => bracket "ll.sb" rd rs1
  | .llSw rd rs1 => bracket "ll.sw" rd rs1
  | .scB rd rs1 rs2 => atomic "sc.b" rd rs1 rs2
  | .scW rd rs1 rs2 => atomic "sc.w" rd rs1 rs2
  | .scD rd rs1 rs2 => atomic "sc.d" rd rs1 rs2
  | .acmpxchgB rd rs1 rs2 => atomic "acmpxchg.b" rd rs1 rs2
  | .acmpxchgW rd rs1 rs2 => atomic "acmpxchg.w" rd rs1 rs2
  | .acmpxchgD rd rs1 rs2 => atomic "acmpxchg.d" rd rs1 rs2
  | .axaddB rd rs1 rs2 => atomic "axadd.b" rd rs1 rs2
  | .axaddW rd rs1 rs2 => atomic "axadd.w" rd rs1 rs2
  | .axaddD rd rs1 rs2 => atomic "axadd.d" rd rs1 rs2
  | .axaddSb rd rs1 rs2 => atomic "axadd.sb" rd rs1 rs2
  | .axaddSw rd rs1 rs2 => atomic "axadd.sw" rd rs1 rs2
  | .axsubB rd rs1 rs2 => atomic "axsub.b" rd rs1 rs2
  | .axsubW rd rs1 rs2 => atomic "axsub.w" rd rs1 rs2
  | .axsubD rd rs1 rs2 => atomic "axsub.d" rd rs1 rs2
  | .axsubSb rd rs1 rs2 => atomic "axsub.sb" rd rs1 rs2
  | .axsubSw rd rs1 rs2 => atomic "axsub.sw" rd rs1 rs2
  | .axandB rd rs1 rs2 => atomic "axand.b" rd rs1 rs2
  | .axandW rd rs1 rs2 => atomic "axand.w" rd rs1 rs2
  | .axandD rd rs1 rs2 => atomic "axand.d" rd rs1 rs2
  | .axandSb rd rs1 rs2 => atomic "axand.sb" rd rs1 rs2
  | .axandSw rd rs1 rs2 => atomic "axand.sw" rd rs1 rs2
  | .axiorB rd rs1 rs2 => atomic "axior.b" rd rs1 rs2
  | .axiorW rd rs1 rs2 => atomic "axior.w" rd rs1 rs2
  | .axiorD rd rs1 rs2 => atomic "axior.d" rd rs1 rs2
  | .axiorSb rd rs1 rs2 => atomic "axior.sb" rd rs1 rs2
  | .axiorSw rd rs1 rs2 => atomic "axior.sw" rd rs1 rs2
  | .axxorB rd rs1 rs2 => atomic "axxor.b" rd rs1 rs2
  | .axxorW rd rs1 rs2 => atomic "axxor.w" rd rs1 rs2
  | .axxorD rd rs1 rs2 => atomic "axxor.d" rd rs1 rs2
  | .axxorSb rd rs1 rs2 => atomic "axxor.sb" rd rs1 rs2
  | .axxorSw rd rs1 rs2 => atomic "axxor.sw" rd rs1 rs2
  | .axmaxB rd rs1 rs2 => atomic "axmax.b" rd rs1 rs2
  | .axmaxW rd rs1 rs2 => atomic "axmax.w" rd rs1 rs2
  | .axmaxD rd rs1 rs2 => atomic "axmax.d" rd rs1 rs2
  | .axmaxSb rd rs1 rs2 => atomic "axmax.sb" rd rs1 rs2
  | .axmaxSw rd rs1 rs2 => atomic "axmax.sw" rd rs1 rs2
  | .axminB rd rs1 rs2 => atomic "axmin.b" rd rs1 rs2
  | .axminW rd rs1 rs2 => atomic "axmin.w" rd rs1 rs2
  | .axminD rd rs1 rs2 => atomic "axmin.d" rd rs1 rs2
  | .axminSb rd rs1 rs2 => atomic "axmin.sb" rd rs1 rs2
  | .axminSw rd rs1 rs2 => atomic "axmin.sw" rd rs1 rs2
  | .stq rs1 rs2 imm => based "stq" rs2 rs1 imm
  | .ldq rd rs1 imm => based "ldq" rd rs1 imm
  | .ldsd rd rs1 imm => based "ldsd" rd rs1 imm
  | .addQ rd rs1 rs2 => three "add.q" rd rs1 rs2
  | .subQ rd rs1 rs2 => three "sub.q" rd rs1 rs2
  | .andQ rd rs1 rs2 => three "and.q" rd rs1 rs2
  | .orQ rd rs1 rs2 => three "or.q" rd rs1 rs2
  | .xorQ rd rs1 rs2 => three "xor.q" rd rs1 rs2
  | .shrQ rd rs1 rs2 => three "shr.q" rd rs1 rs2
  | .asrQ rd rs1 rs2 => three "asr.q" rd rs1 rs2
  | .shlQ rd rs1 rs2 => three "shl.q" rd rs1 rs2
  | .cchQ rd rs1 rs2 => three "cch.q" rd rs1 rs2
  | .bchQ rd rs1 rs2 => three "bch.q" rd rs1 rs2
  | .sltQ rd rs1 rs2 => three "slt.q" rd rs1 rs2
  | .addiQ rd rs1 imm => twoImm "addi.q" rd rs1 imm
  | .andiQ rd rs1 imm => twoImm "andi.q" rd rs1 imm
  | .oriQ rd rs1 imm => twoImm "ori.q" rd rs1 imm
  | .xoriQ rd rs1 imm => twoImm "xori.q" rd rs1 imm
  | .shriQ rd rs1 imm => twoImm "shri.q" rd rs1 imm
  | .asriQ rd rs1 imm => twoImm "asri.q" rd rs1 imm
  | .shliQ rd rs1 imm => twoImm "shli.q" rd rs1 imm
  | .cchiQ rd rs1 imm => twoImm "cchi.q" rd rs1 imm
  | .bchiQ rd rs1 imm => twoImm "bchi.q" rd rs1 imm
  | .sltiQ rd rs1 imm => twoImm "slti.q" rd rs1 imm
  | .mulQ rd rs1 rs2 => three "mul.q" rd rs1 rs2
  | .mulhQ rd rs1 rs2 => three "mulh.q" rd rs1 rs2
  | .smulhQ rd rs1 rs2 => three "smulh.q" rd rs1 rs2
  | .divQ rd rs1 rs2 => three "div.q" rd rs1 rs2
  | .sdivQ rd rs1 rs2 => three "sdiv.q" rd rs1 rs2
  | .modQ rd rs1 rs2 => three "mod.q" rd rs1 rs2
  | .smodQ rd rs1 rs2 => three "smod.q" rd rs1 rs2
  | .llQ rd rs1 => bracket "ll.q" rd rs1
  | .llSd rd rs1 => bracket "ll.sd" rd rs1
  | .scQ rd rs1 rs2 => atomic "sc.q" rd rs1 rs2
  | .acmpxchgQ rd rs1 rs2 => atomic "acmpxchg.q" rd rs1 rs2
  | .axaddQ rd rs1 rs2 => atomic "axadd.q" rd rs1 rs2
  | .axaddSd rd rs1 rs2 => atomic "axadd.sd" rd rs1 rs2
  | .axsubQ rd rs1 rs2 => atomic "axsub.q" rd rs1 rs2
  | .axsubSd rd rs1 rs2 => atomic "axsub.sd" rd rs1 rs2
  | .axandQ rd rs1 rs2 => atomic "axand.q" rd rs1 rs2
  | .axandSd rd rs1 rs2 => atomic "axand.sd" rd rs1 rs2
  | .axiorQ rd rs1 rs2 => atomic "axior.q" rd rs1 rs2
  | .axiorSd rd rs1 rs2 => atomic "axior.sd" rd rs1 rs2
  | .axxorQ rd rs1 rs2 => atomic "axxor.q" rd rs1 rs2
  | .axxorSd rd rs1 rs2 => atomic "axxor.sd" rd rs1 rs2
  | .axmaxQ rd rs1 rs2 => atomic "axmax.q" rd rs1 rs2
  | .axmaxSd rd rs1 rs2 => atomic "axmax.sd" rd rs1 rs2
  | .axminQ rd rs1 rs2 => atomic "axmin.q" rd rs1 rs2
  | .axminSd rd rs1 rs2 => atomic "axmin.sd" rd rs1 rs2

/-! ## Pseudo-instructions (R190 to R210) -/

/-- The registers the assembler's own rules name: at, rp, sp (10_state.md R23). -/
def at' : Reg := 1
/-- The return pointer. -/
def rp : Reg := 4
/-- The stack pointer. -/
def sp : Reg := 5

/-- R191 -/
def nop : Instr := .add 0 0 0
/-- R192 -/
def not (rd rs1 : Reg) : Instr := .xori rd rs1 (-1)
/-- R193 -/
def inc (rd rs1 : Reg) : Instr := .addi rd rs1 1
/-- R194 -/
def dec (rd rs1 : Reg) : Instr := .addi rd rs1 (-1)
/-- R195 -/
def mov (rd rs1 : Reg) : Instr := .add rd rs1 0
/-- R196, corrected -/
def movIp (rd : Reg) : Instr := .jal rd 4
/-- R197 -/
def ret : Instr := .jalr 0 rp 0
/-- R198 -/
def clr (rd : Reg) : Instr := .xor rd rd rd
/-- R199 -/
def neg (rd : Reg) : Instr := .sub rd 0 rd
/-- R200 -/
def sltu (rd rs1 rs2 : Reg) : Instr := .bch rd rs1 rs2
/-- R201 -/
def jle (rs1 rs2 : Reg) (imm : BitVec 12) : Instr := .jge rs2 rs1 imm
/-- R202 -/
def jgt (rs1 rs2 : Reg) (imm : BitVec 12) : Instr := .jlt rs2 rs1 imm
/-- R203 -/
def jmp (imm : BitVec 21) : Instr := .jal 0 imm
/-- R204 -/
def sgt (rd rs1 rs2 : Reg) : Instr := .slt rd rs2 rs1
/-- R205 -/
def sgtu (rd rs1 rs2 : Reg) : Instr := .bch rd rs2 rs1
/-- R206 -/
def jz (rs1 : Reg) (imm : BitVec 12) : Instr := .jeq rs1 0 imm
/-- R207 -/
def jnz (rs1 : Reg) (imm : BitVec 12) : Instr := .jne rs1 0 imm
/-- R208 -/
def jlz (rs1 : Reg) (imm : BitVec 12) : Instr := .jslt rs1 0 imm
/-- R209 -/
def jgz (rs1 : Reg) (imm : BitVec 12) : Instr := .jslt 0 rs1 imm
/-- R210 -/
def lea (rd rs1 : Reg) (imm : BitVec 12) : Instr := .addi rd rs1 imm

/-! ## Macro-instructions (R214 to R227) -/

/-- R215, corrected: the constant in one instruction where that is enough, else LUI and ADDI. -/
def ldi (rd : Reg) (imm : BitVec 32) : List Instr :=
  if imm = 0 then [clr rd]
  else if -2048 ≤ imm.toInt ∧ imm.toInt ≤ 2047 then [.addi rd 0 (imm.setWidth 12)]
  else if imm.setWidth 11 = 0 then [.lui rd (imm.extractLsb' 11 21)]
  else [.lui rd (imm.extractLsb' 11 21), .addi rd rd ((imm.setWidth 11).setWidth 12)]

/-- The stores of a run of pushes, from slot `x` on. The spec does not say what the assembler does with a run of more than
512, whose offsets do not fit the 12-bit immediate: here the immediate wraps modulo 2^12 (DESIGN CHOICE, unsafe, log 20). -/
def pushFrom (x : Nat) : List Reg → List Instr
  | [] => []
  | r :: rs => .std sp r (BitVec.ofInt 12 (-4 * (x + 1))) :: pushFrom (x + 1) rs

/-- R216, corrected: a run of pushes (more than 512: see `pushFrom`, log 20). -/
def push (rs : List Reg) : List Instr :=
  pushFrom 0 rs ++ [.addi sp sp (BitVec.ofInt 12 (-4 * rs.length))]

/-- The loads of a run of pops, from slot `x` on. The spec does not say what the assembler does with an offset above 2047:
here the immediate wraps modulo 2^12 (DESIGN CHOICE, unsafe, log 20). -/
def popFrom (x : Nat) : List Reg → List Instr
  | [] => []
  | r :: rs => .ldd r sp (BitVec.ofNat 12 (4 * x)) :: popFrom (x + 1) rs

/-- R217, corrected: a run of pops. The spec does not say what the assembler does with a run of 512 or more, whose ADDI does
not fit the 12-bit immediate: here the immediate wraps modulo 2^12, so that 4 * 512 becomes -2048 (DESIGN CHOICE, unsafe,
log 20). -/
def pop (rs : List Reg) : List Instr :=
  popFrom 0 rs ++ [.addi sp sp (BitVec.ofNat 12 (4 * rs.length))]

/-- R218 -/
def xchg (rs1 rs2 : Reg) : List Instr := [.xor rs1 rs1 rs2, .xor rs2 rs1 rs2, .xor rs1 rs1 rs2]

/-- R219: `load` is one of LDB, LDSB, LDW, LDSW, LDD. -/
def loadUpdate (load : Reg → Reg → BitVec 12 → Instr) (rd rs1 : Reg) (imm : BitVec 12) : List Instr :=
  [load rd rs1 imm, .addi rs1 rs1 imm]

/-- R220: `store` is one of STB, STW, STD, which take the base first. -/
def storeUpdate (store : Reg → Reg → BitVec 12 → Instr) (rs2 rs1 : Reg) (imm : BitVec 12) : List Instr :=
  [store rs1 rs2 imm, .addi rs1 rs1 imm]

/-- R221, corrected -/
def sslt (rd rs1 rs2 : Reg) : List Instr := [.slt rd rs1 rs2]

/-- R222, corrected -/
def bst (rd : Reg) (bit : BitVec 5) : List Instr :=
  if bit.toNat < 11 then [.ori rd rd (1#12 <<< bit.toNat)]
  else ldi at' (1#32 <<< bit.toNat) ++ [.or rd rd at']

/-- R223, corrected -/
def bcl (rd : Reg) (bit : BitVec 5) : List Instr :=
  if bit.toNat < 11 then [.andi rd rd (~~~(1#12 <<< bit.toNat))]
  else ldi at' (~~~(1#32 <<< bit.toNat)) ++ [.and rd rd at']

/-- R224, corrected -/
def bfl (rd : Reg) (bit : BitVec 5) : List Instr :=
  if bit.toNat < 11 then [.xori rd rd (1#12 <<< bit.toNat)]
  else ldi at' (1#32 <<< bit.toNat) ++ [.xor rd rd at']

/-- R225: `op` is one of MUL, MULH, SMULH, DIV, SDIV, MOD, SMOD; `smuli` is `muli`. The rule excludes `rs1 = at` and does
not say what the assembler does with it: here it is expanded unchecked, so that `op` reads the immediate just loaded into `at`
(DESIGN CHOICE, unsafe, log 20). -/
def opImm (op : Reg → Reg → Reg → Instr) (rd rs1 : Reg) (imm : BitVec 32) : List Instr :=
  ldi at' imm ++ [op rd rs1 at']

/-- R226, corrected: `madd` and `smadd`. -/
def madd (rd rs1 rs2 : Reg) : List Instr := [.mul at' rs1 rs2, .add rd rd at']

/-- R227: `maddi` and `smaddi`. -/
def maddi (rd rs1 : Reg) (imm : BitVec 32) : List Instr := ldi at' imm ++ [.mul at' rs1 at', .add rd rd at']

end Sys2Proof.Asm
end

