-- ==== Sys2Proof/Safety.lean ====
section
/-! DEFINITION. What counts as a well-formed state and as a safe run, in the terms the statements use. -/

namespace Sys2Proof.Machine

/-- A value of `XLEN` bits: on SRM32 the upper 32 bits are 0 (00_scope.md R8, R9; log 2). -/
def fitsX (c : Config) (v : Word) : Prop := truncX c v = v

/-- The ten CSRs hold values of `XLEN` bits. -/
def Csrs.fits (c : Config) (k : Csrs) : Prop :=
  fitsX c k.mstatus ∧ fitsX c k.miva ∧ fitsX c k.mra ∧ fitsX c k.mcause ∧ fitsX c k.mpriv ∧ fitsX c k.kstatus ∧
    fitsX c k.kiva ∧ fitsX c k.kra ∧ fitsX c k.kcause ∧ fitsX c k.kpriv

/-- The memory cells that are listed lie at addresses `MemMap` backs. -/
def Memory.within (mm : List Region) (m : Memory) : Prop := ∀ a, m.read a ≠ Memory.unlisted → backed mm a = true

/-- Every waiting request has an ID of `XLEN` bits above 0x4, as `ExtIrq` supplies it (60_exceptions.md R474; log 9). -/
def State.irqCausesFree (s : State) : Prop := ∀ c ∈ s.pending, fitsX s.cfg c ∧ 4 < c.toNat

/-- The invariant of the machine: every register, IP and CSR holds `XLEN` bits; the mode is User, Kernel or Machine
(60_exceptions.md R469); memory and the stored addresses are in their canonical form; memory holds bytes only where it is
backed (20_memory.md R73); a link names an aligned `XLEN`-bit address (46_atomic.md R302); the queue is no longer than its
depth (60_exceptions.md R473), and its IDs are none of 0x0 to 0x4 (R474). -/
structure State.Inv (s : State) : Prop where
  regs : ∀ r, fitsX s.cfg (s.readReg r)
  ip : fitsX s.cfg s.ip
  csr : s.csr.fits s.cfg
  mode : s.priv ≠ 2
  mem : s.mem.wf = true
  within : s.mem.within s.cfg.memMap
  stored : Stored.wf s.stored = true
  link : ∀ l, s.link = some l → fitsX s.cfg l.addr ∧ alignTo l.size l.addr = l.addr
  pending : ∀ depth, s.cfg.maskedIrq = .queue (some depth) → s.pending.length ≤ depth
  causes : s.irqCausesFree

/-- A run of `k` steps that meets neither a fault nor a refusal. -/
def runsSafely : Nat → State → Prop
  | 0, _ => True
  | k + 1, s => ∃ t, step s = .next t ∧ runsSafely k t

/-! ## Data in memory, in the spec's own concatenations -/

/-- `mem[a]` -/
def byteAt (m : Memory) (a : Nat) : BitVec 8 := m.read a
/-- `{mem[a+1], mem[a]}` (41_base_lui_memory.md R159) -/
def wordAt (m : Memory) (a : Nat) : BitVec 16 := m.read (a + 1) ++ m.read a
/-- Four bytes, the one at the lowest address least significant. -/
def dwordAt (m : Memory) (a : Nat) : BitVec 32 := m.read (a + 3) ++ m.read (a + 2) ++ m.read (a + 1) ++ m.read a
/-- Eight bytes, the one at the lowest address least significant. -/
def qwordAt (m : Memory) (a : Nat) : BitVec 64 := dwordAt m (a + 4) ++ dwordAt m a

/-- The datum of an access zero-extended, or sign-extended, to `XLEN` bits. -/
def datumAt (c : Config) (m : Memory) (a : Nat) : Size → Bool → Word
  | .b, false => (byteAt m a).setWidth 64
  | .w, false => (wordAt m a).setWidth 64
  | .d, false => (dwordAt m a).setWidth 64
  | .q, false => truncX c (qwordAt m a)
  | .b, true => sextX c (byteAt m a)
  | .w, true => sextX c (wordAt m a)
  | .d, true => sextX c (dwordAt m a)
  | .q, true => sextX c (qwordAt m a)

/-! ## What an instruction changes and what it keeps -/

/-- Every register is the same but `rd`, which holds `v`; r0 stays 0 (10_state.md R21). -/
def regsBut (s t : State) (rd : Reg) (v : Word) : Prop :=
  ∀ r, t.readReg r = if r = rd ∧ rd ≠ 0 then v else s.readReg r

/-- Every register is the same. -/
def regsKept (s t : State) : Prop := ∀ r, t.readReg r = s.readReg r

/-- Every byte of memory is the same, and the same addresses count as stored to. -/
def memKept (s t : State) : Prop := (∀ a, t.mem.read a = s.mem.read a) ∧ t.stored = s.stored

/-- The `n` bytes from `a` on are those of `v`, least significant first; every other byte is the same; those addresses count
as stored to; the link is broken as R304 says. -/
def memStored (s t : State) (a n : Nat) (v : Word) : Prop :=
  (∀ k, k < n → t.mem.read (a + k) = v.extractLsb' (8 * k) 8) ∧
    (∀ b, (b < a ∨ a + n ≤ b) → t.mem.read b = s.mem.read b) ∧
    (∀ b, b ∈ t.stored ↔ b ∈ s.stored ∨ (a ≤ b ∧ b < a + n)) ∧
    t.link = breakLink s.cfg.linkGranule s.link a n

/-- The CSRs and the ports are the same. -/
def systemKept (s t : State) : Prop := t.csr = s.csr ∧ t.ports = s.ports

/-- The configuration, the waiting requests and what the environment holds ready are the same. -/
def outsideKept (s t : State) : Prop := t.cfg = s.cfg ∧ t.pending = s.pending ∧ t.inputs = s.inputs

/-- IP is at the next instruction in sequence (10_state.md R28). -/
def advanced (s t : State) : Prop := t.ip = truncX s.cfg (s.ip + 4)

/-- Nothing differs but IP, which has advanced. -/
def onlyAdvanced (s t : State) : Prop :=
  regsKept s t ∧ memKept s t ∧ t.link = s.link ∧ systemKept s t ∧ outsideKept s t ∧ advanced s t

/-- The instruction completes: `rd` holds `v`, IP has advanced, nothing else differs. -/
def givesReg (i : Instr) (s : State) (rd : Reg) (v : Word) : Prop :=
  ∃ t, exec i s = .next t ∧ regsBut s t rd v ∧ memKept s t ∧ t.link = s.link ∧ systemKept s t ∧ outsideKept s t ∧
    advanced s t

/-- The instruction completes with the 32-bit result whose bit `k` is `bit k`, sign-extended. -/
def givesBits32 (i : Instr) (s : State) (rd : Reg) (bit : Nat → Bool) : Prop :=
  ∃ r : BitVec 32, (∀ k, k < 32 → r.getLsbD k = bit k) ∧ givesReg i s rd (sextX s.cfg r)

/-- The instruction completes with the 64-bit result whose bit `k` is `bit k`. -/
def givesBits64 (i : Instr) (s : State) (rd : Reg) (bit : Nat → Bool) : Prop :=
  ∃ r : Word, (∀ k, k < 64 → r.getLsbD k = bit k) ∧ givesReg i s rd (truncX s.cfg r)

/-- The store completes: the low `n` bytes of `v` are at `a`, IP has advanced, nothing else differs. -/
def givesStore (i : Instr) (s : State) (a n : Nat) (v : Word) : Prop :=
  ∃ t, exec i s = .next t ∧ memStored s t a n v ∧ regsKept s t ∧ systemKept s t ∧ outsideKept s t ∧ advanced s t

/-- The instruction completes: `rd` holds `v`, the low `n` bytes of `m` are at `a`, nothing else differs. -/
def givesRegAndStore (i : Instr) (s : State) (rd : Reg) (v : Word) (a n : Nat) (m : Word) : Prop :=
  ∃ t, exec i s = .next t ∧ regsBut s t rd v ∧ memStored s t a n m ∧ systemKept s t ∧ outsideKept s t ∧ advanced s t

/-- The LL.x completes: `rd` holds `v`, the link is the address and the size, nothing else differs. -/
def givesLink (i : Instr) (s : State) (rd : Reg) (v a : Word) (sz : Size) : Prop :=
  ∃ t, exec i s = .next t ∧ regsBut s t rd v ∧ memKept s t ∧ t.link = some ⟨a, sz⟩ ∧ systemKept s t ∧ outsideKept s t ∧
    advanced s t

/-- The conditional jump completes: IP is the target when the condition holds, else the next instruction; nothing else
differs. -/
def jumpsWhen (i : Instr) (s : State) (imm : BitVec 12) (taken : Prop) : Prop :=
  ∃ t, exec i s = .next t ∧ regsKept s t ∧ memKept s t ∧ t.link = s.link ∧ systemKept s t ∧ outsideKept s t ∧
    (taken → (t.ip.toNat : Int) = (s.ip.toNat + imm.toInt) % 2 ^ s.cfg.xlen) ∧ (¬ taken → advanced s t)

/-- The port read completes with a datum: `rd` holds `v`, the ports are `p`, nothing else differs. -/
def givesPortRead (i : Instr) (s : State) (rd : Reg) (v : Word) (p : Ports) : Prop :=
  ∃ t, exec i s = .next t ∧ regsBut s t rd v ∧ memKept s t ∧ t.link = s.link ∧ t.csr = s.csr ∧ t.ports = p ∧
    outsideKept s t ∧ advanced s t

/-- The port write completes: one entry more in the log, IP advanced, nothing else differs. -/
def givesPortWrite (i : Instr) (s : State) (w : PortWrite) : Prop :=
  ∃ t, exec i s = .next t ∧ regsKept s t ∧ memKept s t ∧ t.link = s.link ∧ t.csr = s.csr ∧
    t.ports = { s.ports with log := s.ports.log ++ [w] } ∧ outsideKept s t ∧ advanced s t

/-- Bit `k` of `a` shifted by `n` places. -/
def shiftedBit {w : Nat} (kind : ShiftKind) (a : BitVec w) (n k : Nat) : Bool :=
  match kind with
  | .shr => a.getLsbD (k + n)
  | .asr => a.getLsbD (min (k + n) (w - 1))
  | .shl => decide (n ≤ k) && a.getLsbD (k - n)

/-- `r` is what `ShAmt` gives for a shift by the width or more (40_base_arithmetic.md R122; log 6). -/
def shiftedPast (p : ShiftPolicy) {w : Nat} (kind : ShiftKind) (a b r : BitVec w) : Prop :=
  match p with
  | .literal => r = if kind = .asr ∧ a.msb = true then BitVec.allOnes w else 0
  | .lowBits => ∀ k, k < w → r.getLsbD k = shiftedBit kind a (b.toNat % w) k
  | .other => r = Config.shAmtOther kind a b

/-! ## Traps -/

/-- mstatus with the mode `p`, every other bit as before. -/
def modeChanged (m m' : Word) (p : BitVec 2) : Prop :=
  privBits m' = p ∧ ∀ k, k ≠ 1 → k ≠ 2 → m'.getLsbD k = m.getLsbD k

/-- No register, no memory, no link, no port differs. -/
def coreKept (s t : State) : Prop := regsKept s t ∧ memKept s t ∧ t.link = s.link ∧ t.ports = s.ports

/-- The entry of 60_exceptions.md R468 took place, and nothing else. -/
def entersKernel (cause : Word) (s t : State) : Prop :=
  t.csr.kra = s.ip ∧ t.csr.kcause = truncX s.cfg cause ∧ t.csr.kpriv = 0 ∧ modeChanged s.csr.mstatus t.csr.mstatus 1 ∧
    t.ip = s.csr.kiva ∧ t.csr.miva = s.csr.miva ∧ t.csr.mra = s.csr.mra ∧ t.csr.mcause = s.csr.mcause ∧
    t.csr.mpriv = s.csr.mpriv ∧ t.csr.kstatus = s.csr.kstatus ∧ t.csr.kiva = s.csr.kiva ∧ coreKept s t ∧ outsideKept s t

/-- The entry of 60_exceptions.md R466 or R467 took place from a level, and nothing else. -/
def entersMachine (cause : Word) (level : Word) (s t : State) : Prop :=
  t.csr.mra = s.ip ∧ t.csr.mcause = truncX s.cfg cause ∧ t.csr.mpriv = level ∧
    modeChanged s.csr.mstatus t.csr.mstatus 3 ∧ t.ip = s.csr.miva ∧ t.csr.miva = s.csr.miva ∧
    t.csr.kra = s.csr.kra ∧ t.csr.kcause = s.csr.kcause ∧ t.csr.kpriv = s.csr.kpriv ∧ t.csr.kstatus = s.csr.kstatus ∧
    t.csr.kiva = s.csr.kiva ∧ coreKept s t ∧ outsideKept s t

/-- IP and the mode are set, and nothing else differs (60_exceptions.md R476). -/
def returns (target : Word) (p : BitVec 2) (s t : State) : Prop :=
  t.ip = target ∧ modeChanged s.csr.mstatus t.csr.mstatus p ∧ t.csr = { s.csr with mstatus := t.csr.mstatus } ∧
    coreKept s t ∧ outsideKept s t

/-- What an instruction does below its level, by `PRIV_VIOLATION` (44_system.md R241; log 10). -/
def belowLevel (i : Instr) (s : State) : Prop :=
  (s.cfg.privViolation = .refuse → exec i s = .refused .privilegedBelowLevel) ∧
    (s.cfg.privViolation = .ignore → ∃ t, exec i s = .next t ∧ onlyAdvanced s t) ∧
    ∀ c, s.cfg.privViolation = .trap c → exec i s = takeTrap c s

/-- The step takes an external request, whose ID is none of 0x0 to 0x4 (60_exceptions.md R474): it is the entry `enters`, and
the request is used up. -/
def stepTakes (s : State) (cause : Word) (rest : List StepInput) (enters : State → State → Prop) : Prop :=
  s.cfg.extS = true → 4 < (truncX s.cfg cause).toNat → s.pending = [] → s.inputs = ⟨some cause, []⟩ :: rest →
    ∃ t, step s = .next t ∧ enters { s with inputs := rest } t

/-! ## CSRs -/

/-- The CSR instruction completes: CSR `n` holds `v`, every other CSR is the same, IP has advanced, nothing else differs. -/
def givesCsr (i : Instr) (s : State) (n : BitVec 12) (v : Word) : Prop :=
  ∃ t, exec i s = .next t ∧ t.csr.read? n = some v ∧ (∀ m, m ≠ n → t.csr.read? m = s.csr.read? m) ∧
    coreKept s t ∧ outsideKept s t ∧ advanced s t

/-- The numbers of the named CSRs (10_state.md R31). -/
def namedCsrs : List Nat := [0, 1, 2, 3, 4, 2048, 2049, 2050, 2051, 2052]

/-- The level of the core is high enough for the CSR, in numbers (10_state.md R32). -/
def csrOpen (s : State) (n : BitVec 12) : Prop := 3 - n.toNat / 1024 ≤ s.priv.toNat

/-! ## Sequences of instructions -/

/-- The instructions of a list, one after the other, as if each were where IP is. -/
def execAll : List Instr → State → Result
  | [], s => .next s
  | i :: is, s =>
    match exec i s with
    | .next t => execAll is t
    | .fault f => .fault f
    | .refused r => .refused r

/-- The access to memory that an instruction makes whatever the link is: its aligned address and its size. -/
def memoryAccess (s : State) : Instr → Option (Word × Size)
  | .add .. | .sub .. | .and .. | .or .. | .xor .. | .shr .. | .asr .. | .shl .. | .cch .. | .bch .. | .slt ..
  | .addi .. | .andi .. | .ori .. | .xori .. | .shri .. | .asri .. | .shli .. | .cchi .. | .bchi .. | .slti ..
  | .lui .. | .jal .. | .jalr .. | .jeq .. | .jlt .. | .jslt .. | .jne .. | .jge .. | .jsge .. | .syscall | .sysbreak
  | .mret | .sysret | .csrr .. | .csrw .. | .csrs .. | .csrc .. | .fence .. | .inb .. | .inw .. | .ind .. | .insb ..
  | .insw .. | .outb .. | .outw .. | .outd .. | .mul .. | .mulh .. | .smulh .. | .div .. | .sdiv .. | .mod ..
  | .smod .. | .scB .. | .scW .. | .scD .. | .addQ .. | .subQ .. | .andQ .. | .orQ .. | .xorQ .. | .shrQ ..
  | .asrQ .. | .shlQ .. | .cchQ .. | .bchQ .. | .sltQ .. | .addiQ .. | .andiQ .. | .oriQ .. | .xoriQ .. | .shriQ ..
  | .asriQ .. | .shliQ .. | .cchiQ .. | .bchiQ .. | .sltiQ .. | .mulQ .. | .mulhQ .. | .smulhQ .. | .divQ ..
  | .sdivQ .. | .modQ .. | .smodQ .. | .scQ .. => none
  | .stb rs1 _ imm | .ldb _ rs1 imm | .ldsb _ rs1 imm => some (alignTo .b (s.effAddr rs1 imm), .b)
  | .stw rs1 _ imm | .ldw _ rs1 imm | .ldsw _ rs1 imm => some (alignTo .w (s.effAddr rs1 imm), .w)
  | .std rs1 _ imm | .ldd _ rs1 imm | .ldsd _ rs1 imm => some (alignTo .d (s.effAddr rs1 imm), .d)
  | .llB _ rs1 | .llSb _ rs1 | .acmpxchgB _ rs1 _ | .axaddB _ rs1 _ | .axaddSb _ rs1 _ | .axsubB _ rs1 _
  | .axsubSb _ rs1 _ | .axandB _ rs1 _ | .axandSb _ rs1 _ | .axiorB _ rs1 _ | .axiorSb _ rs1 _ | .axxorB _ rs1 _
  | .axxorSb _ rs1 _ | .axmaxB _ rs1 _ | .axmaxSb _ rs1 _ | .axminB _ rs1 _ | .axminSb _ rs1 _ =>
    some (s.atomAddr .b rs1, .b)
  | .llW _ rs1 | .llSw _ rs1 | .acmpxchgW _ rs1 _ | .axaddW _ rs1 _ | .axaddSw _ rs1 _ | .axsubW _ rs1 _
  | .axsubSw _ rs1 _ | .axandW _ rs1 _ | .axandSw _ rs1 _ | .axiorW _ rs1 _ | .axiorSw _ rs1 _ | .axxorW _ rs1 _
  | .axxorSw _ rs1 _ | .axmaxW _ rs1 _ | .axmaxSw _ rs1 _ | .axminW _ rs1 _ | .axminSw _ rs1 _ =>
    some (s.atomAddr .w rs1, .w)
  | .llD _ rs1 | .acmpxchgD _ rs1 _ | .axaddD _ rs1 _ | .axsubD _ rs1 _ | .axandD _ rs1 _ | .axiorD _ rs1 _
  | .axxorD _ rs1 _ | .axmaxD _ rs1 _ | .axminD _ rs1 _ | .llSd _ rs1 | .axaddSd _ rs1 _ | .axsubSd _ rs1 _
  | .axandSd _ rs1 _ | .axiorSd _ rs1 _ | .axxorSd _ rs1 _ | .axmaxSd _ rs1 _ | .axminSd _ rs1 _ =>
    some (s.atomAddr .d rs1, .d)
  | .stq rs1 _ imm | .ldq _ rs1 imm => some (alignTo .q (s.effAddr rs1 imm), .q)
  | .llQ _ rs1 | .acmpxchgQ _ rs1 _ | .axaddQ _ rs1 _ | .axsubQ _ rs1 _ | .axandQ _ rs1 _ | .axiorQ _ rs1 _
  | .axxorQ _ rs1 _ | .axmaxQ _ rs1 _ | .axminQ _ rs1 _ => some (s.atomAddr .q rs1, .q)

end Sys2Proof.Machine
end

