-- ==== Sys2Proof/Certificates/Slice0/Obligations.lean ====
section
/-! DEFINITION. The statements for the provers. -/

open Sys2Proof Sys2Proof.Machine

/-- Words written out bit by bit from the formats, one or more per family, are the instructions they stand for
(30_encoding.md R93 to R99). -/
def Obligations.SampleWordsDecode : Prop :=
  decode Config.default 0b0000000_01111_0000_01110_01101_000000 = .ok (.add 13 14 15) ∧
    decode Config.default 0b111111111111_0000_01110_01101_000001 = .ok (.addi 13 14 (-1)) ∧
    decode Config.default 0b000010010001101000101_01101_000010 = .ok (.lui 13 0x12345) ∧
    decode Config.default 0b1111100_01110_0010_01101_00000_000011 = .ok (.std 13 14 124) ∧
    decode Config.default 0b000000000011_0000_01101_01110_000100 = .ok (.ldb 14 13 3) ∧
    decode Config.default 0b1111000_01110_0000_01101_11111_000111 = .ok (.jeq 13 14 (-8)) ∧
    decode Config.default 0b100000000011_0010_00000_01101_001000 = .ok (.csrr 13 0x803) ∧
    decode Config.default 0b000000000000_0100_00000_00000_001000 = .ok (.csrs 0 0) ∧
    decode Config.default 0b000000000000_0101_00000_00010_001000 = .ok (.csrc 0 2) ∧
    decode Config.default 0b0000000_00000_0110_01110_01101_001000 = .ok (.inb 13 14) ∧
    decode Config.default 0b0000010_01111_0111_01110_00000_001000 = .ok (.outd 14 15) ∧
    decode Config.default 0b0000001_00000_0000_00000_00000_001000 = .ok .sysbreak ∧
    decode Config.default 0b000000000000000010000_00100_000101 = .ok (.jal 4 16) ∧
    decode Config.default 0b000000001000_0000_01110_00100_000110 = .ok (.jalr 4 14 8) ∧
    decode Config.default 0b0000000_01001_1000_00000_00000_001000 = .ok (.fence 9) ∧
    decode Config.default 0b0000001_01111_0101_01110_01101_000000 = .ok (.sdiv 13 14 15) ∧
    decode Config.default 0b0000011_01111_0100_01110_01101_001001 = .ok (.axaddSb 13 14 15) ∧
    decode Config.default 0b000000100000_0111_01110_01101_001010 = .ok (.shliQ 13 14 32)

/-- Decode and encode agree, for every instruction, every operand and every configuration (30_encoding.md R93 to R99).
-/
def Obligations.EncodeThenDecode : Prop :=
  ∀ (c : Config) (i : Instr) (rest : List Byte), WellFormed c i = true →
    decodeBytes c (encodeBytes i ++ rest) = .ok (i, rest)

/-- No two words are one instruction where unused fields are checked: a decoded word is the encoding of what it
decodes to (30_encoding.md R114, R115; the strict policy is the default of D9, log 11). -/
def Obligations.DecodedWordEncodesBack : Prop :=
  ∀ (c : Config) (w : BitVec 32) (i : Instr), decode c w = .ok i →
    WellFormed c i = true ∧ (c.unusedField = .strict → encode i = w)

/-- The encoding of an instruction of an absent extension, or with a register absent under H, is rejected by name
(30_encoding.md R114, R117, 10_state.md R25; D10, D11, log 17). -/
def Obligations.AbsentInstructionRejected : Prop :=
  ∀ (c : Config) (i : Instr), i.fenceTyped = true →
    (i.available c = false → decode c (encode i) = .error .absentExtension) ∧
      (i.available c = true → i.regs.all (Reg.present c) = false → decode c (encode i) = .error .absentRegister)

/-- When the bytes at IP decode to an instruction, the step is `exec` of it, on the state after the sampling of the
external input (60_exceptions.md R464); with nothing outside, that state is the state itself. -/
def Obligations.StepRunsDecodedInstruction : Prop :=
  (∀ (s s' : State) (i : Instr) (rest : List Byte),
      sampleIrq (takeInput s).1 (takeInput s).2 = (none, s') → s'.ip.extractLsb' 0 2 = 0 →
      s'.accessible s'.ip .d = true →
      (s'.cfg.ifetchCoherent = true ∨ ∀ b ∈ s'.stored, b < s'.ip.toNat ∨ s'.ip.toNat + 4 ≤ b) →
      decodeBytes s'.cfg (fetchBytes s'.mem s'.ip.toNat) = .ok (i, rest) → step s = exec i s') ∧
    ∀ s : State, s.inputs = [] → s.pending = [] → sampleIrq (takeInput s).1 (takeInput s).2 = (none, s)

/-- The stops of a fetch, each under its name (10_state.md R29, 20_memory.md R73, R79, 30_encoding.md R114; decisions
D3, D10, D26, D38, logs 12, 14, 17, 18). -/
def Obligations.FetchStops : Prop :=
  ∀ s : State, s.inputs = [] → s.pending = [] →
    (s.ip.extractLsb' 0 2 ≠ 0 → step s = .refused .misalignedIp) ∧
    (s.ip.extractLsb' 0 2 = 0 →
      (s.accessible s.ip .d = false → step s = .fault .unbackedAddress) ∧
      (s.accessible s.ip .d = true →
        (s.cfg.ifetchCoherent = false → (∃ b ∈ s.stored, s.ip.toNat ≤ b ∧ b < s.ip.toNat + 4) →
          step s = .refused .fetchOfModifiedCode) ∧
        ((s.cfg.ifetchCoherent = true ∨ ∀ b ∈ s.stored, b < s.ip.toNat ∨ s.ip.toNat + 4 ≤ b) →
          ∀ e, decodeBytes s.cfg (fetchBytes s.mem s.ip.toNat) = .error e → step s = .refused (refusalOf e))))

/-- The loader of the model places a word where the next step fetches it, little-endian, and changes nothing else
(20_memory.md R63; log 24). -/
def Obligations.PlacedWordRuns : Prop :=
  ∀ (s : State) (w : BitVec 32) (i : Instr), s.inputs = [] → s.pending = [] → s.ip.extractLsb' 0 2 = 0 →
    s.accessible s.ip .d = true → decode s.cfg w = .ok i →
    step (s.withFetchWord 32 w.toNat) = exec i (s.withFetchWord 32 w.toNat) ∧
      (∀ b, (b < s.ip.toNat ∨ s.ip.toNat + 4 ≤ b) → (s.withFetchWord 32 w.toNat).mem.read b = s.mem.read b) ∧
      dwordAt (s.withFetchWord 32 w.toNat).mem s.ip.toNat = w ∧
      (∀ b, b ∈ (s.withFetchWord 32 w.toNat).stored ↔ b ∈ s.stored ∧ (b < s.ip.toNat ∨ s.ip.toNat + 4 ≤ b)) ∧
      s.withFetchWord 32 w.toNat =
        { s with mem := (s.withFetchWord 32 w.toNat).mem, stored := (s.withFetchWord 32 w.toNat).stored }

/-- The state after reset: IP 0, Machine mode, no link, no waiting request (10_state.md R50; D24); the zeros of the
registers and of the other CSR bits are the choice of logs 3 and 4. -/
def Obligations.ResetValues : Prop :=
  ∀ c : Config, (State.resetOf c).ip = 0 ∧ (State.resetOf c).priv = 3 ∧ (State.resetOf c).link = none ∧
    (State.resetOf c).pending = [] ∧ (∀ r, (State.resetOf c).readReg r = 0) ∧
    (State.resetOf c).csr = ⟨6, 0, 0, 0, 0, 0, 0, 0, 0, 0⟩ ∧ State.reset = State.resetOf Config.default

/-- The state after reset meets the invariant, in every configuration (10_state.md R50, R51). -/
def Obligations.ResetMeetsInvariant : Prop :=
  State.reset.Inv ∧ ∀ c : Config, (State.resetOf c).Inv

/-- Every step keeps the invariant, whatever comes from outside (10_state.md R51, 20_memory.md R66, R73,
60_exceptions.md R469, R473). -/
def Obligations.StepKeepsInvariant : Prop :=
  ∀ s t : State, s.Inv → step s = .next t → t.Inv

/-- No mode bit and no instruction changes the variant (47_srm64.md R380, 70_reset_and_hazards.md R517): the
configuration is constant. -/
def Obligations.StepKeepsConfiguration : Prop :=
  ∀ s t : State, step s = .next t → t.cfg = s.cfg

/-- From User mode a step changes no CSR except by the trap entry into the handler at `kiva`, and reaches no port
(60_exceptions.md R479, R480; D12, D13). -/
def Obligations.UserModeConfined : Prop :=
  ∀ s t : State, s.priv = 0 → step s = .next t →
    (t.csr = s.csr ∨
      t.ip = s.csr.kiva ∧ ∃ cause, t.csr = { s.csr with
        kra := s.ip, kcause := truncX s.cfg cause, kpriv := 0, mstatus := withPriv s.csr.mstatus 1 }) ∧
    t.ports = s.ports

/-- The vector bases are written only at the level that may access them (10_state.md R32, R35, R39, R44; D12). -/
def Obligations.VectorBasesProtected : Prop :=
  ∀ s t : State, step s = .next t →
    (s.priv ≠ 3 → t.csr.miva = s.csr.miva) ∧ (s.priv = 0 → t.csr.kiva = s.csr.kiva)

/-- On an H core nothing writes r16 to r31 (10_state.md R25; D11, log 17). -/
def Obligations.ReducedRegistersUntouched : Prop :=
  ∀ s t : State, s.cfg.extH = true → step s = .next t → ∀ r : Reg, 16 ≤ r.toNat → t.readReg r = s.readReg r

/-- Effective addresses and relative targets wrap modulo `2^XLEN`, and an access is aligned downward and never wraps
(20_memory.md R64 to R66, R72, 42_base_control.md R171, 46_atomic.md R301; D4, D8, logs 19, 21). -/
def Obligations.EffectiveAddresses : Prop :=
  ∀ (s : State) (rs1 : Reg) (imm : BitVec 12) (jmp : BitVec 21) (sz : Size) (a : Word),
    ((s.effAddr rs1 imm).toNat : Int) = ((s.readReg rs1).toNat + imm.toInt) % 2 ^ s.cfg.xlen ∧
      ((s.relTarget jmp).toNat : Int) = (s.ip.toNat + jmp.toInt) % 2 ^ s.cfg.xlen ∧
      (alignTo sz a).toNat = a.toNat / sz.bytes * sz.bytes ∧
      (alignTo sz (s.effAddr rs1 imm)).toNat + sz.bytes ≤ 2 ^ s.cfg.xlen ∧
      (fitsX s.cfg (s.readReg rs1) → (alignTo sz (s.readReg rs1)).toNat + sz.bytes ≤ 2 ^ s.cfg.xlen)

/-- Memory is little-endian: reading what was written, part of it, and other bytes (20_memory.md R60 to R62). -/
def Obligations.WriteThenRead : Prop :=
  ∀ (s : State) (a b : Word) (sz sz' : Size) (v : Word),
    (s.memWrite a sz v).memRead a sz = lowBytes sz v ∧
      (s.memWrite a .d v).mem.readLE (a.toNat + 2) 2 = (v.extractLsb' 16 16).setWidth 64 ∧
      ((b.toNat + sz'.bytes ≤ a.toNat ∨ a.toNat + sz.bytes ≤ b.toNat) →
        (s.memWrite a sz v).memRead b sz' = s.memRead b sz')

/-- A write breaks the link exactly when it meets the watched bytes (46_atomic.md R304; D30 and `LinkGranule`, log
13); a write by another agent too, which changes memory and the link alone (70_reset_and_hazards.md R513; D40;
alignment, an unbacked address and `stored`: the choice of log 9). -/
def Obligations.LinkBreaks : Prop :=
  (∀ (l : Link) (a : Nat) (sz : Size) (k : Nat),
    (breakLink .exact (some l) a sz.bytes = none ↔
      ∃ x, a ≤ x ∧ x < a + sz.bytes ∧ l.addr.toNat ≤ x ∧ x < l.addr.toNat + l.size.bytes) ∧
    (breakLink .exact (some l) a sz.bytes = none ∨ breakLink .exact (some l) a sz.bytes = some l) ∧
    (breakLink (.block k) (some l) a sz.bytes = none ↔
      ∃ x y, a ≤ x ∧ x < a + sz.bytes ∧ l.addr.toNat ≤ y ∧ y < l.addr.toNat + l.size.bytes ∧ x / 2 ^ k = y / 2 ^ k) ∧
    (breakLink (.block k) (some l) a sz.bytes = none ∨ breakLink (.block k) (some l) a sz.bytes = some l)) ∧
    ∀ (s : State) (w : ExtWrite),
      let a := alignTo w.size (truncX s.cfg w.addr)
      let t := externalWrite s w
      (s.accessible a w.size = true →
        (∀ k, k < w.size.bytes → t.mem.read (a.toNat + k) = w.value.extractLsb' (8 * k) 8) ∧
          (∀ b, (b < a.toNat ∨ a.toNat + w.size.bytes ≤ b) → t.mem.read b = s.mem.read b) ∧
          t.link = breakLink s.cfg.linkGranule s.link a.toNat w.size.bytes ∧
          t = { s with mem := t.mem, link := t.link }) ∧
      (s.accessible a w.size = false → t = s) ∧
      ∀ irq rest, s.inputs = ⟨irq, [w]⟩ :: rest → takeInput s = (irq, externalWrite { s with inputs := rest } w)

/-- ADD, SUB and ADDI complete with the wrapped 32-bit result, sign-extended (40_base_arithmetic.md R123, R124, R134).
-/
def Obligations.AddAndSubtract : Prop :=
  ∀ (rd rs1 rs2 : Reg) (imm : BitVec 12) (s : State),
    let a := low32 (s.readReg rs1)
    let b := low32 (s.readReg rs2)
    givesReg (.add rd rs1 rs2) s rd (sextX s.cfg (BitVec.ofNat 32 (a.toNat + b.toNat))) ∧
    givesReg (.sub rd rs1 rs2) s rd (sextX s.cfg (BitVec.ofInt 32 ((a.toNat : Int) - b.toNat))) ∧
    givesReg (.addi rd rs1 imm) s rd (sextX s.cfg (BitVec.ofInt 32 (a.toNat + imm.toInt))) ∧
    decodeWord 0x00F07340 = some (.add 13 14 15) ∧ encode (.add 13 14 15) = 0x00F07340 ∧
    decodeWord 0x00F17340 = some (.sub 13 14 15) ∧ encode (.sub 13 14 15) = 0x00F17340 ∧
    decodeWord 0xFFF07341 = some (.addi 13 14 (-1)) ∧ encode (.addi 13 14 (-1)) = 0xFFF07341 ∧
    decodeWord 0x00507341 = some (.addi 13 14 5) ∧ encode (.addi 13 14 5) = 0x00507341

/-- The bitwise instructions complete with the result bit by bit (40_base_arithmetic.md R125 to R127, R135 to R137).
-/
def Obligations.BitwiseOperations : Prop :=
  ∀ (rd rs1 rs2 : Reg) (imm : BitVec 12) (s : State),
    let a := low32 (s.readReg rs1)
    let b := low32 (s.readReg rs2)
    givesBits32 (.and rd rs1 rs2) s rd (fun k => a.getLsbD k && b.getLsbD k) ∧
    givesBits32 (.or rd rs1 rs2) s rd (fun k => a.getLsbD k || b.getLsbD k) ∧
    givesBits32 (.xor rd rs1 rs2) s rd (fun k => a.getLsbD k ^^ b.getLsbD k) ∧
    givesBits32 (.andi rd rs1 imm) s rd (fun k => a.getLsbD k && imm.getLsbD (min k 11)) ∧
    givesBits32 (.ori rd rs1 imm) s rd (fun k => a.getLsbD k || imm.getLsbD (min k 11)) ∧
    givesBits32 (.xori rd rs1 imm) s rd (fun k => a.getLsbD k ^^ imm.getLsbD (min k 11)) ∧
    decodeWord 0x00F27340 = some (.and 13 14 15) ∧ encode (.and 13 14 15) = 0x00F27340 ∧
    decodeWord 0x00F37340 = some (.or 13 14 15) ∧ encode (.or 13 14 15) = 0x00F37340 ∧
    decodeWord 0x00F47340 = some (.xor 13 14 15) ∧ encode (.xor 13 14 15) = 0x00F47340 ∧
    decodeWord 0x0FF27341 = some (.andi 13 14 255) ∧ encode (.andi 13 14 255) = 0x0FF27341 ∧
    decodeWord 0x01037341 = some (.ori 13 14 16) ∧ encode (.ori 13 14 16) = 0x01037341 ∧
    decodeWord 0xFFF47341 = some (.xori 13 14 (-1)) ∧ encode (.xori 13 14 (-1)) = 0xFFF47341

/-- The 32-bit shifts by an amount below the width (40_base_arithmetic.md R122, R128 to R130, R138 to R140). -/
def Obligations.ShiftsBelowWidth : Prop :=
  ∀ (rd rs1 rs2 : Reg) (imm : BitVec 12) (s : State),
    let a := low32 (s.readReg rs1)
    let b := low32 (s.readReg rs2)
    (b.toNat < 32 → givesBits32 (.shr rd rs1 rs2) s rd (shiftedBit .shr a b.toNat)) ∧
    (b.toNat < 32 → givesBits32 (.asr rd rs1 rs2) s rd (shiftedBit .asr a b.toNat)) ∧
    (b.toNat < 32 → givesBits32 (.shl rd rs1 rs2) s rd (shiftedBit .shl a b.toNat)) ∧
    (imm.toNat < 32 → givesBits32 (.shri rd rs1 imm) s rd (shiftedBit .shr a imm.toNat)) ∧
    (imm.toNat < 32 → givesBits32 (.asri rd rs1 imm) s rd (shiftedBit .asr a imm.toNat)) ∧
    (imm.toNat < 32 → givesBits32 (.shli rd rs1 imm) s rd (shiftedBit .shl a imm.toNat))

/-- The 64-bit shifts by an amount below the width (47_srm64.md R387, R393 to R395, R399, R404 to R406). -/
def Obligations.QwordShiftsBelowWidth : Prop :=
  ∀ (rd rs1 rs2 : Reg) (imm : BitVec 12) (s : State),
    let a := s.readReg rs1
    let b := s.readReg rs2
    (b.toNat < 64 → givesBits64 (.shrQ rd rs1 rs2) s rd (shiftedBit .shr a b.toNat)) ∧
    (b.toNat < 64 → givesBits64 (.asrQ rd rs1 rs2) s rd (shiftedBit .asr a b.toNat)) ∧
    (b.toNat < 64 → givesBits64 (.shlQ rd rs1 rs2) s rd (shiftedBit .shl a b.toNat)) ∧
    (imm.toNat < 64 → givesBits64 (.shriQ rd rs1 imm) s rd (shiftedBit .shr a imm.toNat)) ∧
    (imm.toNat < 64 → givesBits64 (.asriQ rd rs1 imm) s rd (shiftedBit .asr a imm.toNat)) ∧
    (imm.toNat < 64 → givesBits64 (.shliQ rd rs1 imm) s rd (shiftedBit .shl a imm.toNat))

/-- Shifts by the width or more, under each policy of `ShAmt`: the model takes D5 and its alternatives as a parameter
(40_base_arithmetic.md R122; log 6). -/
def Obligations.ShiftsAtOrAboveWidth : Prop :=
  ∀ (rd rs1 rs2 : Reg) (imm : BitVec 12) (s : State),
    let a := low32 (s.readReg rs1)
    let b := low32 (s.readReg rs2)
    let aq := s.readReg rs1
    let bq := s.readReg rs2
    (32 ≤ b.toNat → ∃ r, shiftedPast s.cfg.shAmt .shr a b r ∧
      givesReg (.shr rd rs1 rs2) s rd (sextX s.cfg r)) ∧
    (32 ≤ (imm32 imm).toNat → ∃ r, shiftedPast s.cfg.shAmt .shr a (imm32 imm) r ∧
      givesReg (.shri rd rs1 imm) s rd (sextX s.cfg r)) ∧
    (32 ≤ b.toNat → ∃ r, shiftedPast s.cfg.shAmt .asr a b r ∧
      givesReg (.asr rd rs1 rs2) s rd (sextX s.cfg r)) ∧
    (32 ≤ (imm32 imm).toNat → ∃ r, shiftedPast s.cfg.shAmt .asr a (imm32 imm) r ∧
      givesReg (.asri rd rs1 imm) s rd (sextX s.cfg r)) ∧
    (32 ≤ b.toNat → ∃ r, shiftedPast s.cfg.shAmt .shl a b r ∧
      givesReg (.shl rd rs1 rs2) s rd (sextX s.cfg r)) ∧
    (32 ≤ (imm32 imm).toNat → ∃ r, shiftedPast s.cfg.shAmt .shl a (imm32 imm) r ∧
      givesReg (.shli rd rs1 imm) s rd (sextX s.cfg r)) ∧
    (64 ≤ bq.toNat → ∃ r, shiftedPast s.cfg.shAmt .shr aq bq r ∧
      givesReg (.shrQ rd rs1 rs2) s rd (truncX s.cfg r)) ∧
    (64 ≤ (imm64 imm).toNat → ∃ r, shiftedPast s.cfg.shAmt .shr aq (imm64 imm) r ∧
      givesReg (.shriQ rd rs1 imm) s rd (truncX s.cfg r)) ∧
    (64 ≤ bq.toNat → ∃ r, shiftedPast s.cfg.shAmt .asr aq bq r ∧
      givesReg (.asrQ rd rs1 rs2) s rd (truncX s.cfg r)) ∧
    (64 ≤ (imm64 imm).toNat → ∃ r, shiftedPast s.cfg.shAmt .asr aq (imm64 imm) r ∧
      givesReg (.asriQ rd rs1 imm) s rd (truncX s.cfg r)) ∧
    (64 ≤ bq.toNat → ∃ r, shiftedPast s.cfg.shAmt .shl aq bq r ∧
      givesReg (.shlQ rd rs1 rs2) s rd (truncX s.cfg r)) ∧
    (64 ≤ (imm64 imm).toNat → ∃ r, shiftedPast s.cfg.shAmt .shl aq (imm64 imm) r ∧
      givesReg (.shliQ rd rs1 imm) s rd (truncX s.cfg r))

/-- CCH, BCH and SLT complete with 0 or 1 (40_base_arithmetic.md R131 to R133). -/
def Obligations.CarryBorrowAndSignedLess : Prop :=
  ∀ (rd rs1 rs2 : Reg) (s : State),
    let a := low32 (s.readReg rs1)
    let b := low32 (s.readReg rs2)
    givesReg (.cch rd rs1 rs2) s rd (if 2 ^ 32 ≤ a.toNat + b.toNat then 1 else 0) ∧
    givesReg (.bch rd rs1 rs2) s rd (if a.toNat < b.toNat then 1 else 0) ∧
    givesReg (.slt rd rs1 rs2) s rd (if a.toInt < b.toInt then 1 else 0) ∧
    decodeWord 0x00F87340 = some (.cch 13 14 15) ∧ encode (.cch 13 14 15) = 0x00F87340 ∧
    decodeWord 0x00F97340 = some (.bch 13 14 15) ∧ encode (.bch 13 14 15) = 0x00F97340 ∧
    decodeWord 0x00FA7340 = some (.slt 13 14 15) ∧ encode (.slt 13 14 15) = 0x00FA7340

/-- CCHI, BCHI and SLTI (40_base_arithmetic.md R141 to R143; the unsigned reading of the extended immediate is D6, log
20). -/
def Obligations.ImmediateComparisons : Prop :=
  ∀ (rd rs1 : Reg) (imm : BitVec 12) (s : State),
    let a := low32 (s.readReg rs1)
    let u : Nat := (imm.toInt % 2 ^ 32).toNat
    givesReg (.cchi rd rs1 imm) s rd (if 2 ^ 32 ≤ a.toNat + u then 1 else 0) ∧
    givesReg (.bchi rd rs1 imm) s rd (if a.toNat < u then 1 else 0) ∧
    givesReg (.slti rd rs1 imm) s rd (if a.toInt < imm.toInt then 1 else 0)

/-- LUI sets the register to the immediate shifted left by 11 (41_base_lui_memory.md R150; sign-extended on SRM64 by
D7, log 20). -/
def Obligations.LoadUpperImmediate : Prop :=
  ∀ (rd : Reg) (imm : BitVec 21) (s : State),
    givesReg (.lui rd imm) s rd (sextX s.cfg (BitVec.ofNat 32 (imm.toNat * 2 ^ 11)))

/-- ADD.Q, SUB.Q and ADDI.Q complete with the wrapped 64-bit result (47_srm64.md R388, R389, R400). -/
def Obligations.QwordAddSubtract : Prop :=
  ∀ (rd rs1 rs2 : Reg) (imm : BitVec 12) (s : State),
    let a := s.readReg rs1
    let b := s.readReg rs2
    givesReg (.addQ rd rs1 rs2) s rd (truncX s.cfg (BitVec.ofNat 64 (a.toNat + b.toNat))) ∧
    givesReg (.subQ rd rs1 rs2) s rd (truncX s.cfg (BitVec.ofInt 64 ((a.toNat : Int) - b.toNat))) ∧
    givesReg (.addiQ rd rs1 imm) s rd (truncX s.cfg (BitVec.ofInt 64 (a.toNat + imm.toInt))) ∧
    decodeWord 0x04F07340 = some (.addQ 13 14 15) ∧ encode (.addQ 13 14 15) = 0x04F07340 ∧
    decodeWord 0x04F17340 = some (.subQ 13 14 15) ∧ encode (.subQ 13 14 15) = 0x04F17340 ∧
    decodeWord 0xFFF0734A = some (.addiQ 13 14 (-1)) ∧ encode (.addiQ 13 14 (-1)) = 0xFFF0734A

/-- The 64-bit bitwise instructions complete with the result bit by bit (47_srm64.md R390 to R392, R401 to R403). -/
def Obligations.QwordBitwise : Prop :=
  ∀ (rd rs1 rs2 : Reg) (imm : BitVec 12) (s : State),
    let a := s.readReg rs1
    let b := s.readReg rs2
    givesBits64 (.andQ rd rs1 rs2) s rd (fun k => a.getLsbD k && b.getLsbD k) ∧
    givesBits64 (.orQ rd rs1 rs2) s rd (fun k => a.getLsbD k || b.getLsbD k) ∧
    givesBits64 (.xorQ rd rs1 rs2) s rd (fun k => a.getLsbD k ^^ b.getLsbD k) ∧
    givesBits64 (.andiQ rd rs1 imm) s rd (fun k => a.getLsbD k && imm.getLsbD (min k 11)) ∧
    givesBits64 (.oriQ rd rs1 imm) s rd (fun k => a.getLsbD k || imm.getLsbD (min k 11)) ∧
    givesBits64 (.xoriQ rd rs1 imm) s rd (fun k => a.getLsbD k ^^ imm.getLsbD (min k 11)) ∧
    decodeWord 0x04F27340 = some (.andQ 13 14 15) ∧ encode (.andQ 13 14 15) = 0x04F27340 ∧
    decodeWord 0x04F37340 = some (.orQ 13 14 15) ∧ encode (.orQ 13 14 15) = 0x04F37340 ∧
    decodeWord 0x04F47340 = some (.xorQ 13 14 15) ∧ encode (.xorQ 13 14 15) = 0x04F47340 ∧
    decodeWord 0x0FF2734A = some (.andiQ 13 14 255) ∧ encode (.andiQ 13 14 255) = 0x0FF2734A ∧
    decodeWord 0x0103734A = some (.oriQ 13 14 16) ∧ encode (.oriQ 13 14 16) = 0x0103734A ∧
    decodeWord 0xFFF4734A = some (.xoriQ 13 14 (-1)) ∧ encode (.xoriQ 13 14 (-1)) = 0xFFF4734A

/-- The 64-bit carry, borrow and comparison instructions (47_srm64.md R396 to R399, R407 to R409; D6, log 20). -/
def Obligations.QwordComparisons : Prop :=
  ∀ (rd rs1 rs2 : Reg) (imm : BitVec 12) (s : State),
    let a := s.readReg rs1
    let b := s.readReg rs2
    let u : Nat := (imm.toInt % 2 ^ 64).toNat
    givesReg (.cchQ rd rs1 rs2) s rd (if 2 ^ 64 ≤ a.toNat + b.toNat then 1 else 0) ∧
    givesReg (.bchQ rd rs1 rs2) s rd (if a.toNat < b.toNat then 1 else 0) ∧
    givesReg (.sltQ rd rs1 rs2) s rd (if a.toInt < b.toInt then 1 else 0) ∧
    givesReg (.cchiQ rd rs1 imm) s rd (if 2 ^ 64 ≤ a.toNat + u then 1 else 0) ∧
    givesReg (.bchiQ rd rs1 imm) s rd (if a.toNat < u then 1 else 0) ∧
    givesReg (.sltiQ rd rs1 imm) s rd (if a.toInt < imm.toInt then 1 else 0)

/-- MUL, MULH and SMULH complete with the halves of the product (45_mul_div.md R285 to R287). -/
def Obligations.Multiply : Prop :=
  ∀ (rd rs1 rs2 : Reg) (s : State),
    let a := low32 (s.readReg rs1)
    let b := low32 (s.readReg rs2)
    givesReg (.mul rd rs1 rs2) s rd (sextX s.cfg (BitVec.ofNat 32 (a.toNat * b.toNat))) ∧
    givesReg (.mulh rd rs1 rs2) s rd (sextX s.cfg (BitVec.ofNat 32 (a.toNat * b.toNat / 2 ^ 32))) ∧
    givesReg (.smulh rd rs1 rs2) s rd (sextX s.cfg (BitVec.ofInt 32 (a.toInt * b.toInt / 2 ^ 32))) ∧
    decodeWord 0x02F07340 = some (.mul 13 14 15) ∧ encode (.mul 13 14 15) = 0x02F07340 ∧
    decodeWord 0x02F27340 = some (.mulh 13 14 15) ∧ encode (.mulh 13 14 15) = 0x02F27340 ∧
    decodeWord 0x02F37340 = some (.smulh 13 14 15) ∧ encode (.smulh 13 14 15) = 0x02F37340

/-- MUL.Q, MULH.Q and SMULH.Q complete with the halves of the 128-bit product (47_srm64.md R411 to R413). -/
def Obligations.QwordMultiply : Prop :=
  ∀ (rd rs1 rs2 : Reg) (s : State),
    let a := s.readReg rs1
    let b := s.readReg rs2
    givesReg (.mulQ rd rs1 rs2) s rd (truncX s.cfg (BitVec.ofNat 64 (a.toNat * b.toNat))) ∧
    givesReg (.mulhQ rd rs1 rs2) s rd (truncX s.cfg (BitVec.ofNat 64 (a.toNat * b.toNat / 2 ^ 64))) ∧
    givesReg (.smulhQ rd rs1 rs2) s rd (truncX s.cfg (BitVec.ofInt 64 (a.toInt * b.toInt / 2 ^ 64))) ∧
    decodeWord 0x02F87340 = some (.mulQ 13 14 15) ∧ encode (.mulQ 13 14 15) = 0x02F87340 ∧
    decodeWord 0x02FA7340 = some (.mulhQ 13 14 15) ∧ encode (.mulhQ 13 14 15) = 0x02FA7340 ∧
    decodeWord 0x02FB7340 = some (.smulhQ 13 14 15) ∧ encode (.smulhQ 13 14 15) = 0x02FB7340

/-- Unsigned division by a divisor that is not 0 (45_mul_div.md R282, R288, R289, R291, 47_srm64.md R414, R416; D27,
log 22). -/
def Obligations.UnsignedDivision : Prop :=
  ∀ (rd rs1 rs2 : Reg) (s : State),
    let a := low32 (s.readReg rs1)
    let b := low32 (s.readReg rs2)
    let aq := s.readReg rs1
    let bq := s.readReg rs2
    (b ≠ 0 → ∃ q r : BitVec 32, a.toNat = b.toNat * q.toNat + r.toNat ∧ r.toNat < b.toNat ∧
      givesReg (.div rd rs1 rs2) s rd (sextX s.cfg q) ∧ givesReg (.mod rd rs1 rs2) s rd (sextX s.cfg r)) ∧
    (bq ≠ 0 → ∃ q r : Word, aq.toNat = bq.toNat * q.toNat + r.toNat ∧ r.toNat < bq.toNat ∧
      givesReg (.divQ rd rs1 rs2) s rd (truncX s.cfg q) ∧ givesReg (.modQ rd rs1 rs2) s rd (truncX s.cfg r))

/-- Signed division truncates toward zero and the remainder has the sign of the dividend (45_mul_div.md R282, R284,
R289, R290, R292, 47_srm64.md R410; D27, log 22). -/
def Obligations.SignedDivision : Prop :=
  ∀ (rd rs1 rs2 : Reg) (s : State),
    let a := low32 (s.readReg rs1)
    let b := low32 (s.readReg rs2)
    let aq := s.readReg rs1
    let bq := s.readReg rs2
    (b ≠ 0 → ∃ q r : Int, a.toInt = b.toInt * q + r ∧ |r| < |b.toInt| ∧ 0 ≤ r * a.toInt ∧
      givesReg (.sdiv rd rs1 rs2) s rd (sextX s.cfg (BitVec.ofInt 32 q)) ∧
      givesReg (.smod rd rs1 rs2) s rd (sextX s.cfg (BitVec.ofInt 32 r))) ∧
    (bq ≠ 0 → ∃ q r : Int, aq.toInt = bq.toInt * q + r ∧ |r| < |bq.toInt| ∧ 0 ≤ r * aq.toInt ∧
      givesReg (.sdivQ rd rs1 rs2) s rd (truncX s.cfg (BitVec.ofInt 64 q)) ∧
      givesReg (.smodQ rd rs1 rs2) s rd (truncX s.cfg (BitVec.ofInt 64 r)))

/-- A division by zero takes no trap and completes; its value is free (45_mul_div.md R283; DESIGN CHOICE, log 7). -/
def Obligations.DivisionByZeroRuns : Prop :=
  ∀ (rd rs1 rs2 : Reg) (s : State),
    let a := low32 (s.readReg rs1)
    let aq := s.readReg rs1
    (low32 (s.readReg rs2) = 0 →
      givesReg (.div rd rs1 rs2) s rd (sextX s.cfg (Config.divZeroQ false a)) ∧
      givesReg (.sdiv rd rs1 rs2) s rd (sextX s.cfg (Config.divZeroQ true a)) ∧
      givesReg (.mod rd rs1 rs2) s rd (sextX s.cfg (Config.divZeroR false a)) ∧
      givesReg (.smod rd rs1 rs2) s rd (sextX s.cfg (Config.divZeroR true a))) ∧
    (s.readReg rs2 = 0 →
      givesReg (.divQ rd rs1 rs2) s rd (truncX s.cfg (Config.divZeroQ false aq)) ∧
      givesReg (.sdivQ rd rs1 rs2) s rd (truncX s.cfg (Config.divZeroQ true aq)) ∧
      givesReg (.modQ rd rs1 rs2) s rd (truncX s.cfg (Config.divZeroR false aq)) ∧
      givesReg (.smodQ rd rs1 rs2) s rd (truncX s.cfg (Config.divZeroR true aq)))

/-- The loads complete with the datum at the aligned address, zero- or sign-extended (41_base_lui_memory.md R157 to
R161). -/
def Obligations.Loads : Prop :=
  ∀ (rd rs1 : Reg) (imm : BitVec 12) (s : State),
    (s.accessible (alignTo .b (s.effAddr rs1 imm)) .b = true →
      givesReg (.ldb rd rs1 imm) s rd ((byteAt s.mem (alignTo .b (s.effAddr rs1 imm)).toNat).setWidth 64)) ∧
    (s.accessible (alignTo .b (s.effAddr rs1 imm)) .b = true →
      givesReg (.ldsb rd rs1 imm) s rd (sextX s.cfg (byteAt s.mem (alignTo .b (s.effAddr rs1 imm)).toNat))) ∧
    (s.accessible (alignTo .w (s.effAddr rs1 imm)) .w = true →
      givesReg (.ldw rd rs1 imm) s rd ((wordAt s.mem (alignTo .w (s.effAddr rs1 imm)).toNat).setWidth 64)) ∧
    (s.accessible (alignTo .w (s.effAddr rs1 imm)) .w = true →
      givesReg (.ldsw rd rs1 imm) s rd (sextX s.cfg (wordAt s.mem (alignTo .w (s.effAddr rs1 imm)).toNat))) ∧
    (s.accessible (alignTo .d (s.effAddr rs1 imm)) .d = true →
      givesReg (.ldd rd rs1 imm) s rd ((dwordAt s.mem (alignTo .d (s.effAddr rs1 imm)).toNat).setWidth 64)) ∧
    decodeWord 0x00306B84 = some (.ldb 14 13 3) ∧ encode (.ldb 14 13 3) = 0x00306B84 ∧
    decodeWord 0x00346B84 = some (.ldsb 14 13 3) ∧ encode (.ldsb 14 13 3) = 0x00346B84 ∧
    decodeWord 0x00216B84 = some (.ldw 14 13 2) ∧ encode (.ldw 14 13 2) = 0x00216B84 ∧
    decodeWord 0x00256B84 = some (.ldsw 14 13 2) ∧ encode (.ldsw 14 13 2) = 0x00256B84 ∧
    decodeWord 0x00026B84 = some (.ldd 14 13 0) ∧ encode (.ldd 14 13 0) = 0x00026B84 ∧
    decodeWord 0xFFC26B84 = some (.ldd 14 13 (-4)) ∧ encode (.ldd 14 13 (-4)) = 0xFFC26B84

/-- LDQ, LDSD and STQ (47_srm64.md R384 to R386; the alignment is D8, log 21; the link, at `LinkGranule`, is D30, log
13). -/
def Obligations.QwordMemory : Prop :=
  ∀ (rd rs1 rs2 : Reg) (imm : BitVec 12) (s : State),
    (s.accessible (alignTo .q (s.effAddr rs1 imm)) .q = true →
      givesReg (.ldq rd rs1 imm) s rd (truncX s.cfg (qwordAt s.mem (alignTo .q (s.effAddr rs1 imm)).toNat))) ∧
    (s.accessible (alignTo .d (s.effAddr rs1 imm)) .d = true →
      givesReg (.ldsd rd rs1 imm) s rd (sextX s.cfg (dwordAt s.mem (alignTo .d (s.effAddr rs1 imm)).toNat))) ∧
    (s.accessible (alignTo .q (s.effAddr rs1 imm)) .q = true →
      givesStore (.stq rs1 rs2 imm) s (alignTo .q (s.effAddr rs1 imm)).toNat 8 (s.readReg rs2))

/-- The stores complete with the low bytes of `rs2` at the aligned address and nothing else changed
(41_base_lui_memory.md R153 to R155; that a store breaks the link, at `LinkGranule`, is 46_atomic.md R304, D30, log
13). -/
def Obligations.Stores : Prop :=
  ∀ (rs1 rs2 : Reg) (imm : BitVec 12) (s : State),
    (s.accessible (alignTo .b (s.effAddr rs1 imm)) .b = true →
      givesStore (.stb rs1 rs2 imm) s (alignTo .b (s.effAddr rs1 imm)).toNat 1 (s.readReg rs2)) ∧
    (s.accessible (alignTo .w (s.effAddr rs1 imm)) .w = true →
      givesStore (.stw rs1 rs2 imm) s (alignTo .w (s.effAddr rs1 imm)).toNat 2 (s.readReg rs2)) ∧
    (s.accessible (alignTo .d (s.effAddr rs1 imm)) .d = true →
      givesStore (.std rs1 rs2 imm) s (alignTo .d (s.effAddr rs1 imm)).toNat 4 (s.readReg rs2)) ∧
    decodeWord 0x06E06803 = some (.stb 13 14 3) ∧ encode (.stb 13 14 3) = 0x06E06803 ∧
    decodeWord 0xFCE16FC3 = some (.stw 13 14 (-2)) ∧ encode (.stw 13 14 (-2)) = 0xFCE16FC3 ∧
    decodeWord 0xF8E26803 = some (.std 13 14 124) ∧ encode (.std 13 14 124) = 0xF8E26803 ∧
    decodeWord 0x00E26FC3 = some (.std 13 14 (-128)) ∧ encode (.std 13 14 (-128)) = 0x00E26FC3

/-- A data access to an address that `MemMap` does not back is a fault (20_memory.md R73; D38, log 18). -/
def Obligations.UnbackedAccessFaults : Prop :=
  ∀ (i : Instr) (s : State) (a : Word) (sz : Size),
    memoryAccess s i = some (a, sz) → s.accessible a sz = false → exec i s = .fault .unbackedAddress

/-- JAL and JALR set IP and leave the old IP + 4 in `rd` (42_base_control.md R172, R173; that the target and IP + 4
wrap modulo `2^XLEN` is D4, log 19). -/
def Obligations.JumpAndLink : Prop :=
  (∀ (rd rs1 : Reg) (imm : BitVec 21) (off : BitVec 12) (s : State),
      (∃ t, exec (.jal rd imm) s = .next t ∧ regsBut s t rd (truncX s.cfg (s.ip + 4)) ∧ memKept s t ∧ t.link = s.link ∧
        systemKept s t ∧ outsideKept s t ∧ (t.ip.toNat : Int) = (s.ip.toNat + imm.toInt) % 2 ^ s.cfg.xlen) ∧
      ∃ t, exec (.jalr rd rs1 off) s = .next t ∧ regsBut s t rd (truncX s.cfg (s.ip + 4)) ∧ memKept s t ∧
        t.link = s.link ∧ systemKept s t ∧ outsideKept s t ∧
        (t.ip.toNat : Int) = ((s.readReg rs1).toNat + off.toInt) % 2 ^ s.cfg.xlen) ∧
    decodeWord 0x00080105 = some (.jal 4 256) ∧ encode (.jal 4 256) = 0x00080105 ∧
    decodeWord 0xFFFFC005 = some (.jal 0 (-8)) ∧ encode (.jal 0 (-8)) = 0xFFFFC005 ∧
    decodeWord 0x00002006 = some (.jalr 0 4 0) ∧ encode (.jalr 0 4 0) = 0x00002006 ∧
    decodeWord 0x01006906 = some (.jalr 4 13 16) ∧ encode (.jalr 4 13 16) = 0x01006906

/-- The conditional jumps compare whole registers (42_base_control.md R180 to R186; D31, log 22; the wrap of the
target is D4, log 19). -/
def Obligations.ConditionalJumps : Prop :=
  ∀ (rs1 rs2 : Reg) (imm : BitVec 12) (s : State),
    let a := s.readReg rs1
    let b := s.readReg rs2
    jumpsWhen (.jeq rs1 rs2 imm) s imm (a = b) ∧
    jumpsWhen (.jlt rs1 rs2 imm) s imm (a.toNat < b.toNat) ∧
    jumpsWhen (.jslt rs1 rs2 imm) s imm (signedX s.cfg a < signedX s.cfg b) ∧
    jumpsWhen (.jne rs1 rs2 imm) s imm (a ≠ b) ∧
    jumpsWhen (.jge rs1 rs2 imm) s imm (b.toNat ≤ a.toNat) ∧
    jumpsWhen (.jsge rs1 rs2 imm) s imm (signedX s.cfg b ≤ signedX s.cfg a)

/-- The entry from User level: `kra`, `kcause`, `kpriv`, Kernel mode, `kiva`; always taken (60_exceptions.md R468; the
causes are R242, R243 and R462; the saved address is D18, the cause register D36 and its format D20, the sampling
before the fetch, which makes the entry the whole step, D21, all log 21; that a request's cause is none of 0x0 to 0x4
is R474). -/
def Obligations.TrapFromUser : Prop :=
  ∀ s : State, s.priv = 0 →
    (∃ t, exec .syscall s = .next t ∧ entersKernel 0 s t) ∧
    (∃ t, exec .sysbreak s = .next t ∧ entersKernel 4 s t) ∧
    ∀ cause rest, stepTakes s cause rest (entersKernel cause)

/-- The entry from Kernel level: `mra`, `mcause`, `mpriv` = 1, Machine mode, `miva`; external requests are gated by
`kstatus[0]` (60_exceptions.md R467; the causes are R242, R243 and R462; the saved address is D18, the cause register
D36 and its format D20, the sampling before the fetch, which makes the entry the whole step, D21, all log 21; that a
request's cause is none of 0x0 to 0x4 is R474). -/
def Obligations.TrapFromKernel : Prop :=
  ∀ s : State, s.priv = 1 →
    (∃ t, exec .syscall s = .next t ∧ entersMachine 1 1 s t) ∧
    (∃ t, exec .sysbreak s = .next t ∧ entersMachine 4 1 s t) ∧
    (s.csr.kstatus.getLsbD 0 = true → ∀ cause rest, stepTakes s cause rest (entersMachine cause 1)) ∧
    (s.csr.kstatus.getLsbD 0 = false → ∀ irq, (sampleIrq irq s).1 = none)

/-- The entry from Machine level; that `mpriv` becomes 3 is D19, the other conventions are as in the entry from User
level (60_exceptions.md R466, 44_system.md R242, R243; the causes are R242, R243 and R462; the saved address is D18,
the cause register D36 and its format D20, the sampling before the fetch, which makes the entry the whole step, D21,
all log 21; that a request's cause is none of 0x0 to 0x4 is R474). -/
def Obligations.TrapFromMachine : Prop :=
  ∀ s : State, s.priv = 3 →
    (∃ t, exec .syscall s = .next t ∧ entersMachine 3 3 s t) ∧
    (∃ t, exec .sysbreak s = .next t ∧ entersMachine 4 3 s t) ∧
    (s.csr.mstatus.getLsbD 0 = true → ∀ cause rest, stepTakes s cause rest (entersMachine cause 3)) ∧
    (s.csr.mstatus.getLsbD 0 = false → ∀ irq, (sampleIrq irq s).1 = none)

/-- Masked external requests, by policy, and the taking of a waiting one (60_exceptions.md R473; D22; which is taken,
and that a full queue drops the new one where none is permitted and keeps it where one is, is the model's choice, log 9). -/
def Obligations.MaskedRequests : Prop :=
  ∀ (s : State) (irq : Option Word) (cause : Word), s.cfg.extS = true → 4 < (truncX s.cfg cause).toNat →
    (s.irqPermitted = false →
      (s.cfg.maskedIrq = .ignore → sampleIrq irq s = (none, s)) ∧
      (s.cfg.maskedIrq = .queue none →
        sampleIrq (some cause) s = (none, { s with pending := s.pending ++ [truncX s.cfg cause] })) ∧
      ∀ depth, s.cfg.maskedIrq = .queue (some depth) →
        (s.pending.length < depth →
          sampleIrq (some cause) s = (none, { s with pending := s.pending ++ [truncX s.cfg cause] })) ∧
        (depth ≤ s.pending.length → sampleIrq (some cause) s = (none, s))) ∧
    (s.irqPermitted = true →
      (s.cfg.maskedIrq = .ignore →
        sampleIrq (some cause) s = (some (truncX s.cfg cause), s) ∧ sampleIrq none s = (none, s)) ∧
      ∀ depth, s.cfg.maskedIrq = .queue depth →
        (∃ k c, (s.pending ++ [truncX s.cfg cause])[k]? = some c ∧
          sampleIrq (some cause) s =
            (some c, { s with pending := (s.pending ++ [truncX s.cfg cause]).eraseIdx k })) ∧
        (s.pending ≠ [] → ∃ k c, s.pending[k]? = some c ∧
          sampleIrq none s = (some c, { s with pending := s.pending.eraseIdx k })))

/-- The causes of external requests are none of the standard ones, so that a handler can tell them apart
(60_exceptions.md R474; D22; that another input is no request is the model's choice, log 9; the cause register is D36,
log 21). -/
def Obligations.RequestCausesAreFree : Prop :=
  ∀ s : State,
    (∀ id : Word, (truncX s.cfg id).toNat ≤ 4 → sampleIrq (some id) s = sampleIrq none s) ∧
    (s.irqCausesFree →
      (∀ irq c, (sampleIrq irq s).1 = some c → fitsX s.cfg c ∧ 4 < c.toNat) ∧
      (∀ irq, (sampleIrq irq s).2.irqCausesFree) ∧
      ∀ c s' t, sampleIrq (takeInput s).1 (takeInput s).2 = (some c, s') → step s = .next t →
        4 < c.toNat ∧ if s.priv = 0 then t.csr.kcause = c else t.csr.mcause = c)

/-- MRET and SYSRET restore IP and the mode and nothing else (44_system.md R244, R245, 60_exceptions.md R476; D20, log
21; level 2: log 16). -/
def Obligations.ReturnsFromTraps : Prop :=
  ∀ s : State,
    (s.priv = 3 → s.csr.mpriv.extractLsb' 0 2 ≠ 2 →
      ∃ t, exec .mret s = .next t ∧ returns s.csr.mra (s.csr.mpriv.extractLsb' 0 2) s t) ∧
    (s.priv = 3 → s.csr.mpriv.extractLsb' 0 2 = 2 → exec .mret s = .refused .privilegeLevel2) ∧
    (1 ≤ s.priv → s.csr.kpriv.extractLsb' 0 2 ≠ 2 →
      ∃ t, exec .sysret s = .next t ∧ returns s.csr.kra (s.csr.kpriv.extractLsb' 0 2) s t) ∧
    (1 ≤ s.priv → s.csr.kpriv.extractLsb' 0 2 = 2 → exec .sysret s = .refused .privilegeLevel2)

/-- The privileged instructions below their level do what `PRIV_VIOLATION` says, and none of their own effect
(44_system.md R241; D17, log 10). -/
def Obligations.PrivilegedBelowLevel : Prop :=
  ∀ (rd rs1 rs2 : Reg) (s : State),
    (s.priv ≠ 3 → belowLevel .mret s) ∧
    (s.priv = 0 →
      belowLevel .sysret s ∧
      belowLevel (.inb rd rs1) s ∧
      belowLevel (.inw rd rs1) s ∧
      belowLevel (.ind rd rs1) s ∧
      belowLevel (.insb rd rs1) s ∧
      belowLevel (.insw rd rs1) s ∧
      belowLevel (.outb rs1 rs2) s ∧
      belowLevel (.outw rs1 rs2) s ∧
      belowLevel (.outd rs1 rs2) s)

/-- CSRR reads a named CSR, or 0 without privilege (44_system.md R246, R247; the level formula is D12). -/
def Obligations.CsrReads : Prop :=
  (∀ (rd : Reg) (n : BitVec 12) (s : State) (v : Word), s.csr.read? n = some v →
      (csrOpen s n → givesReg (.csrr rd n) s rd (truncX s.cfg v)) ∧
      (¬ csrOpen s n → givesReg (.csrr rd n) s rd 0)) ∧
    ∀ k : Csrs, k.read? 0 = some k.mstatus ∧ k.read? 1 = some k.miva ∧ k.read? 2 = some k.mra ∧
      k.read? 3 = some k.mcause ∧ k.read? 4 = some k.mpriv ∧ k.read? 2048 = some k.kstatus ∧
      k.read? 2049 = some k.kiva ∧ k.read? 2050 = some k.kra ∧ k.read? 2051 = some k.kcause ∧
      k.read? 2052 = some k.kpriv

/-- CSRW, CSRS and CSRC write one CSR with privilege and nothing without (44_system.md R246, R248 to R251; D12, D13,
D15, log 15). -/
def Obligations.CsrWrites : Prop :=
  ∀ (rs1 : Reg) (n : BitVec 12) (sel : BitVec 5) (s : State) (v : Word), s.csr.read? n = some v →
    (csrOpen s n →
      ((n = 0 → (s.readReg rs1).extractLsb' 1 2 ≠ 2) → givesCsr (.csrw rs1 n) s n (truncX s.cfg (s.readReg rs1))) ∧
      (∀ w : Word, (∀ k, k < 64 → w.getLsbD k = (decide (k = sel.toNat) || v.getLsbD k)) →
        (n = 0 → w.extractLsb' 1 2 ≠ 2) → givesCsr (.csrs n sel) s n (truncX s.cfg w)) ∧
      ∀ w : Word, (∀ k, k < 64 → w.getLsbD k = (!decide (k = sel.toNat) && v.getLsbD k)) →
        (n = 0 → w.extractLsb' 1 2 ≠ 2) → givesCsr (.csrc n sel) s n (truncX s.cfg w)) ∧
    (¬ csrOpen s n →
      (∃ t, exec (.csrw rs1 n) s = .next t ∧ onlyAdvanced s t) ∧
      (∃ t, exec (.csrs n sel) s = .next t ∧ onlyAdvanced s t) ∧
      ∃ t, exec (.csrc n sel) s = .next t ∧ onlyAdvanced s t)

/-- The refusals of the CSR instructions: reserved numbers (44_system.md R246; D14, log 15) and privilege level 2
(R249; D15, log 16). -/
def Obligations.CsrRefusals : Prop :=
  ∀ (rd : Reg) (n : BitVec 12) (sel : BitVec 5) (s : State),
    (n.toNat ∉ namedCsrs →
      exec (.csrr rd n) s = .refused .reservedCsr ∧ exec (.csrw rd n) s = .refused .reservedCsr ∧
      exec (.csrs n sel) s = .refused .reservedCsr ∧ exec (.csrc n sel) s = .refused .reservedCsr) ∧
    (s.priv = 3 →
      ((s.readReg rd).extractLsb' 1 2 = 2 → exec (.csrw rd 0) s = .refused .privilegeLevel2) ∧
      exec (.csrc 0 1) s = .refused .privilegeLevel2)

/-- On one core FENCE is a no-op that advances IP (20_memory.md R76, 44_system.md R259; D32, log 23). -/
def Obligations.FenceOnlyAdvances : Prop :=
  ∀ (iorw : BitVec 4) (s : State), ∃ t, exec (.fence iorw) s = .next t ∧ onlyAdvanced s t

/-- Port reads take the next supplied datum, or a free value (44_system.md R260 to R265, 70_reset_and_hazards.md R512;
D33, log 8). -/
def Obligations.PortInput : Prop :=
  ∀ (rd rs1 : Reg) (s : State), 1 ≤ s.priv →
    (∀ (d : BitVec 32) (rest : List (BitVec 32)), s.ports.stream = d :: rest →
      let p := { s.ports with stream := rest }
      givesPortRead (.inb rd rs1) s rd ((d.extractLsb' 0 8).setWidth 64) p ∧
      givesPortRead (.insb rd rs1) s rd (sextX s.cfg (d.extractLsb' 0 8)) p ∧
      givesPortRead (.inw rd rs1) s rd ((d.extractLsb' 0 16).setWidth 64) p ∧
      givesPortRead (.insw rd rs1) s rd (sextX s.cfg (d.extractLsb' 0 16)) p ∧
      givesPortRead (.ind rd rs1) s rd ((d.extractLsb' 0 32).setWidth 64) p) ∧
    (s.ports.stream = [] →
      let p := { s.ports with drawn := s.ports.drawn + 1 }
      (∀ d, d = Config.portDatum s.ports.drawn (s.readReg rs1) .b →
        givesPortRead (.inb rd rs1) s rd ((d.extractLsb' 0 8).setWidth 64) p ∧
        givesPortRead (.insb rd rs1) s rd (sextX s.cfg (d.extractLsb' 0 8)) p) ∧
      (∀ d, d = Config.portDatum s.ports.drawn (alignTo .w (s.readReg rs1)) .w →
        givesPortRead (.inw rd rs1) s rd ((d.extractLsb' 0 16).setWidth 64) p ∧
        givesPortRead (.insw rd rs1) s rd (sextX s.cfg (d.extractLsb' 0 16)) p) ∧
      (∀ d, d = Config.portDatum s.ports.drawn (alignTo .d (s.readReg rs1)) .d →
        givesPortRead (.ind rd rs1) s rd ((d.extractLsb' 0 32).setWidth 64) p))

/-- Port writes hand the low bits of `rs2` to the port at `rs1` (44_system.md R260, R266 to R268; D8, D33, log 8). -/
def Obligations.PortOutput : Prop :=
  ∀ (rs1 rs2 : Reg) (s : State), 1 ≤ s.priv →
    givesPortWrite (.outb rs1 rs2) s ⟨s.readReg rs1, .b, ((s.readReg rs2).extractLsb' 0 8).setWidth 64⟩ ∧
    givesPortWrite (.outw rs1 rs2) s
      ⟨alignTo .w (s.readReg rs1), .w, ((s.readReg rs2).extractLsb' 0 16).setWidth 64⟩ ∧
    givesPortWrite (.outd rs1 rs2) s
      ⟨alignTo .d (s.readReg rs1), .d, ((s.readReg rs2).extractLsb' 0 32).setWidth 64⟩

/-- The LL.x complete with the datum in `rd` and the link set (46_atomic.md R301, R302, R306 to R310, 47_srm64.md
R431, R432; the forced alignment is D8, log 21; that the link records the size is D30, log 13). -/
def Obligations.LoadAndLink : Prop :=
  ∀ (rd rs1 : Reg) (s : State),
    (s.accessible (alignTo .b (s.readReg rs1)) .b = true →
      givesLink (.llB rd rs1) s rd ((byteAt s.mem (alignTo .b (s.readReg rs1)).toNat).setWidth 64) (alignTo .b (s.readReg rs1)) .b) ∧
    (s.accessible (alignTo .w (s.readReg rs1)) .w = true →
      givesLink (.llW rd rs1) s rd ((wordAt s.mem (alignTo .w (s.readReg rs1)).toNat).setWidth 64) (alignTo .w (s.readReg rs1)) .w) ∧
    (s.accessible (alignTo .d (s.readReg rs1)) .d = true →
      givesLink (.llD rd rs1) s rd ((dwordAt s.mem (alignTo .d (s.readReg rs1)).toNat).setWidth 64) (alignTo .d (s.readReg rs1)) .d) ∧
    (s.accessible (alignTo .b (s.readReg rs1)) .b = true →
      givesLink (.llSb rd rs1) s rd (sextX s.cfg (byteAt s.mem (alignTo .b (s.readReg rs1)).toNat)) (alignTo .b (s.readReg rs1)) .b) ∧
    (s.accessible (alignTo .w (s.readReg rs1)) .w = true →
      givesLink (.llSw rd rs1) s rd (sextX s.cfg (wordAt s.mem (alignTo .w (s.readReg rs1)).toNat)) (alignTo .w (s.readReg rs1)) .w) ∧
    (s.accessible (alignTo .q (s.readReg rs1)) .q = true →
      givesLink (.llQ rd rs1) s rd (truncX s.cfg (qwordAt s.mem (alignTo .q (s.readReg rs1)).toNat)) (alignTo .q (s.readReg rs1)) .q) ∧
    (s.accessible (alignTo .d (s.readReg rs1)) .d = true →
      givesLink (.llSd rd rs1) s rd (sextX s.cfg (dwordAt s.mem (alignTo .d (s.readReg rs1)).toNat)) (alignTo .d (s.readReg rs1)) .d) ∧
    decodeWord 0x00007349 = some (.llB 13 14) ∧ encode (.llB 13 14) = 0x00007349 ∧
    decodeWord 0x00017349 = some (.llW 13 14) ∧ encode (.llW 13 14) = 0x00017349 ∧
    decodeWord 0x00027349 = some (.llD 13 14) ∧ encode (.llD 13 14) = 0x00027349 ∧
    decodeWord 0x00047349 = some (.llSb 13 14) ∧ encode (.llSb 13 14) = 0x00047349 ∧
    decodeWord 0x00057349 = some (.llSw 13 14) ∧ encode (.llSw 13 14) = 0x00057349 ∧
    decodeWord 0x00037349 = some (.llQ 13 14) ∧ encode (.llQ 13 14) = 0x00037349 ∧
    decodeWord 0x00067349 = some (.llSd 13 14) ∧ encode (.llSd 13 14) = 0x00067349

/-- SC.x succeeds exactly on the linked address and size, fails elsewhere, and is refused where it overlaps the link
without matching it (46_atomic.md R303, R311 to R314, 47_srm64.md R433; D30 and `LinkGranule`, log 13; the alignment
of `rs1` is D8, log 21). -/
def Obligations.StoreConditional : Prop :=
  ∀ (rd rs1 rs2 : Reg) (s : State),
    (s.link = some ⟨(alignTo .b (s.readReg rs1)), .b⟩ → s.accessible (alignTo .b (s.readReg rs1)) .b = true →
      givesRegAndStore (.scB rd rs1 rs2) s rd 1 (alignTo .b (s.readReg rs1)).toNat 1 (s.readReg rs2)) ∧
    (s.link = none → givesReg (.scB rd rs1 rs2) s rd 0) ∧
    (∀ l, s.link = some l → l ≠ ⟨(alignTo .b (s.readReg rs1)), .b⟩ →
      ((∀ x, (alignTo .b (s.readReg rs1)).toNat ≤ x → x < (alignTo .b (s.readReg rs1)).toNat + 1 → x < l.addr.toNat ∨ l.addr.toNat + l.size.bytes ≤ x) →
        givesReg (.scB rd rs1 rs2) s rd 0) ∧
      ((∃ x, (alignTo .b (s.readReg rs1)).toNat ≤ x ∧ x < (alignTo .b (s.readReg rs1)).toNat + 1 ∧ l.addr.toNat ≤ x ∧ x < l.addr.toNat + l.size.bytes) →
        exec (.scB rd rs1 rs2) s = .refused .scMismatch)) ∧
    (s.link = some ⟨(alignTo .w (s.readReg rs1)), .w⟩ → s.accessible (alignTo .w (s.readReg rs1)) .w = true →
      givesRegAndStore (.scW rd rs1 rs2) s rd 1 (alignTo .w (s.readReg rs1)).toNat 2 (s.readReg rs2)) ∧
    (s.link = none → givesReg (.scW rd rs1 rs2) s rd 0) ∧
    (∀ l, s.link = some l → l ≠ ⟨(alignTo .w (s.readReg rs1)), .w⟩ →
      ((∀ x, (alignTo .w (s.readReg rs1)).toNat ≤ x → x < (alignTo .w (s.readReg rs1)).toNat + 2 → x < l.addr.toNat ∨ l.addr.toNat + l.size.bytes ≤ x) →
        givesReg (.scW rd rs1 rs2) s rd 0) ∧
      ((∃ x, (alignTo .w (s.readReg rs1)).toNat ≤ x ∧ x < (alignTo .w (s.readReg rs1)).toNat + 2 ∧ l.addr.toNat ≤ x ∧ x < l.addr.toNat + l.size.bytes) →
        exec (.scW rd rs1 rs2) s = .refused .scMismatch)) ∧
    (s.link = some ⟨(alignTo .d (s.readReg rs1)), .d⟩ → s.accessible (alignTo .d (s.readReg rs1)) .d = true →
      givesRegAndStore (.scD rd rs1 rs2) s rd 1 (alignTo .d (s.readReg rs1)).toNat 4 (s.readReg rs2)) ∧
    (s.link = none → givesReg (.scD rd rs1 rs2) s rd 0) ∧
    (∀ l, s.link = some l → l ≠ ⟨(alignTo .d (s.readReg rs1)), .d⟩ →
      ((∀ x, (alignTo .d (s.readReg rs1)).toNat ≤ x → x < (alignTo .d (s.readReg rs1)).toNat + 4 → x < l.addr.toNat ∨ l.addr.toNat + l.size.bytes ≤ x) →
        givesReg (.scD rd rs1 rs2) s rd 0) ∧
      ((∃ x, (alignTo .d (s.readReg rs1)).toNat ≤ x ∧ x < (alignTo .d (s.readReg rs1)).toNat + 4 ∧ l.addr.toNat ≤ x ∧ x < l.addr.toNat + l.size.bytes) →
        exec (.scD rd rs1 rs2) s = .refused .scMismatch)) ∧
    (s.link = some ⟨(alignTo .q (s.readReg rs1)), .q⟩ → s.accessible (alignTo .q (s.readReg rs1)) .q = true →
      givesRegAndStore (.scQ rd rs1 rs2) s rd 1 (alignTo .q (s.readReg rs1)).toNat 8 (s.readReg rs2)) ∧
    (s.link = none → givesReg (.scQ rd rs1 rs2) s rd 0) ∧
    (∀ l, s.link = some l → l ≠ ⟨(alignTo .q (s.readReg rs1)), .q⟩ →
      ((∀ x, (alignTo .q (s.readReg rs1)).toNat ≤ x → x < (alignTo .q (s.readReg rs1)).toNat + 8 → x < l.addr.toNat ∨ l.addr.toNat + l.size.bytes ≤ x) →
        givesReg (.scQ rd rs1 rs2) s rd 0) ∧
      ((∃ x, (alignTo .q (s.readReg rs1)).toNat ≤ x ∧ x < (alignTo .q (s.readReg rs1)).toNat + 8 ∧ l.addr.toNat ≤ x ∧ x < l.addr.toNat + l.size.bytes) →
        exec (.scQ rd rs1 rs2) s = .refused .scMismatch))

/-- ACMPXCHG.x compares, stores on equality, and returns the old datum (46_atomic.md R316 to R319, 47_srm64.md R434;
the zero extension is D29, log 22; the alignment of `rs1` is D8, log 21; the link, at `LinkGranule`, is D30, log 13).
-/
def Obligations.CompareAndExchange : Prop :=
  ∀ (rd rs1 rs2 : Reg) (s : State),
    (s.accessible (alignTo .b (s.readReg rs1)) .b = true →
      ((s.readReg rd).extractLsb' 0 8 = byteAt s.mem (alignTo .b (s.readReg rs1)).toNat →
        givesRegAndStore (.acmpxchgB rd rs1 rs2) s rd ((byteAt s.mem (alignTo .b (s.readReg rs1)).toNat).setWidth 64) (alignTo .b (s.readReg rs1)).toNat 1 (s.readReg rs2)) ∧
      ((s.readReg rd).extractLsb' 0 8 ≠ byteAt s.mem (alignTo .b (s.readReg rs1)).toNat → givesReg (.acmpxchgB rd rs1 rs2) s rd ((byteAt s.mem (alignTo .b (s.readReg rs1)).toNat).setWidth 64))) ∧
    (s.accessible (alignTo .w (s.readReg rs1)) .w = true →
      ((s.readReg rd).extractLsb' 0 16 = wordAt s.mem (alignTo .w (s.readReg rs1)).toNat →
        givesRegAndStore (.acmpxchgW rd rs1 rs2) s rd ((wordAt s.mem (alignTo .w (s.readReg rs1)).toNat).setWidth 64) (alignTo .w (s.readReg rs1)).toNat 2 (s.readReg rs2)) ∧
      ((s.readReg rd).extractLsb' 0 16 ≠ wordAt s.mem (alignTo .w (s.readReg rs1)).toNat → givesReg (.acmpxchgW rd rs1 rs2) s rd ((wordAt s.mem (alignTo .w (s.readReg rs1)).toNat).setWidth 64))) ∧
    (s.accessible (alignTo .d (s.readReg rs1)) .d = true →
      ((s.readReg rd).extractLsb' 0 32 = dwordAt s.mem (alignTo .d (s.readReg rs1)).toNat →
        givesRegAndStore (.acmpxchgD rd rs1 rs2) s rd ((dwordAt s.mem (alignTo .d (s.readReg rs1)).toNat).setWidth 64) (alignTo .d (s.readReg rs1)).toNat 4 (s.readReg rs2)) ∧
      ((s.readReg rd).extractLsb' 0 32 ≠ dwordAt s.mem (alignTo .d (s.readReg rs1)).toNat → givesReg (.acmpxchgD rd rs1 rs2) s rd ((dwordAt s.mem (alignTo .d (s.readReg rs1)).toNat).setWidth 64))) ∧
    (s.accessible (alignTo .q (s.readReg rs1)) .q = true →
      ((s.readReg rd).extractLsb' 0 64 = qwordAt s.mem (alignTo .q (s.readReg rs1)).toNat →
        givesRegAndStore (.acmpxchgQ rd rs1 rs2) s rd (truncX s.cfg (qwordAt s.mem (alignTo .q (s.readReg rs1)).toNat)) (alignTo .q (s.readReg rs1)).toNat 8 (s.readReg rs2)) ∧
      ((s.readReg rd).extractLsb' 0 64 ≠ qwordAt s.mem (alignTo .q (s.readReg rs1)).toNat → givesReg (.acmpxchgQ rd rs1 rs2) s rd (truncX s.cfg (qwordAt s.mem (alignTo .q (s.readReg rs1)).toNat))))

/-- AXADD.x and AXSUB.x exchange and operate, in every size (46_atomic.md R320 to R330, 47_srm64.md R430, R435 to
R438; the width is D28, log 22; the alignment of `rs1` is D8, log 21; the link, at `LinkGranule`, is D30, log 13). -/
def Obligations.ExchangeAndAdd : Prop :=
  ∀ (rd rs1 rs2 : Reg) (s : State),
    let v := s.readReg rs2
    (s.accessible (alignTo .b (s.readReg rs1)) .b = true →
      givesRegAndStore (.axaddB rd rs1 rs2) s rd (truncX s.cfg ((datumAt s.cfg s.mem (alignTo .b (s.readReg rs1)).toNat .b false) + v))
        (alignTo .b (s.readReg rs1)).toNat 1 (s.readReg rd)) ∧
    (s.accessible (alignTo .w (s.readReg rs1)) .w = true →
      givesRegAndStore (.axaddW rd rs1 rs2) s rd (truncX s.cfg ((datumAt s.cfg s.mem (alignTo .w (s.readReg rs1)).toNat .w false) + v))
        (alignTo .w (s.readReg rs1)).toNat 2 (s.readReg rd)) ∧
    (s.accessible (alignTo .d (s.readReg rs1)) .d = true →
      givesRegAndStore (.axaddD rd rs1 rs2) s rd (truncX s.cfg ((datumAt s.cfg s.mem (alignTo .d (s.readReg rs1)).toNat .d false) + v))
        (alignTo .d (s.readReg rs1)).toNat 4 (s.readReg rd)) ∧
    (s.accessible (alignTo .b (s.readReg rs1)) .b = true →
      givesRegAndStore (.axaddSb rd rs1 rs2) s rd (truncX s.cfg ((datumAt s.cfg s.mem (alignTo .b (s.readReg rs1)).toNat .b true) + v))
        (alignTo .b (s.readReg rs1)).toNat 1 (s.readReg rd)) ∧
    (s.accessible (alignTo .w (s.readReg rs1)) .w = true →
      givesRegAndStore (.axaddSw rd rs1 rs2) s rd (truncX s.cfg ((datumAt s.cfg s.mem (alignTo .w (s.readReg rs1)).toNat .w true) + v))
        (alignTo .w (s.readReg rs1)).toNat 2 (s.readReg rd)) ∧
    (s.accessible (alignTo .q (s.readReg rs1)) .q = true →
      givesRegAndStore (.axaddQ rd rs1 rs2) s rd (truncX s.cfg ((datumAt s.cfg s.mem (alignTo .q (s.readReg rs1)).toNat .q false) + v))
        (alignTo .q (s.readReg rs1)).toNat 8 (s.readReg rd)) ∧
    (s.accessible (alignTo .d (s.readReg rs1)) .d = true →
      givesRegAndStore (.axaddSd rd rs1 rs2) s rd (truncX s.cfg ((datumAt s.cfg s.mem (alignTo .d (s.readReg rs1)).toNat .d true) + v))
        (alignTo .d (s.readReg rs1)).toNat 4 (s.readReg rd)) ∧
    (s.accessible (alignTo .b (s.readReg rs1)) .b = true →
      givesRegAndStore (.axsubB rd rs1 rs2) s rd (truncX s.cfg ((datumAt s.cfg s.mem (alignTo .b (s.readReg rs1)).toNat .b false) - v))
        (alignTo .b (s.readReg rs1)).toNat 1 (s.readReg rd)) ∧
    (s.accessible (alignTo .w (s.readReg rs1)) .w = true →
      givesRegAndStore (.axsubW rd rs1 rs2) s rd (truncX s.cfg ((datumAt s.cfg s.mem (alignTo .w (s.readReg rs1)).toNat .w false) - v))
        (alignTo .w (s.readReg rs1)).toNat 2 (s.readReg rd)) ∧
    (s.accessible (alignTo .d (s.readReg rs1)) .d = true →
      givesRegAndStore (.axsubD rd rs1 rs2) s rd (truncX s.cfg ((datumAt s.cfg s.mem (alignTo .d (s.readReg rs1)).toNat .d false) - v))
        (alignTo .d (s.readReg rs1)).toNat 4 (s.readReg rd)) ∧
    (s.accessible (alignTo .b (s.readReg rs1)) .b = true →
      givesRegAndStore (.axsubSb rd rs1 rs2) s rd (truncX s.cfg ((datumAt s.cfg s.mem (alignTo .b (s.readReg rs1)).toNat .b true) - v))
        (alignTo .b (s.readReg rs1)).toNat 1 (s.readReg rd)) ∧
    (s.accessible (alignTo .w (s.readReg rs1)) .w = true →
      givesRegAndStore (.axsubSw rd rs1 rs2) s rd (truncX s.cfg ((datumAt s.cfg s.mem (alignTo .w (s.readReg rs1)).toNat .w true) - v))
        (alignTo .w (s.readReg rs1)).toNat 2 (s.readReg rd)) ∧
    (s.accessible (alignTo .q (s.readReg rs1)) .q = true →
      givesRegAndStore (.axsubQ rd rs1 rs2) s rd (truncX s.cfg ((datumAt s.cfg s.mem (alignTo .q (s.readReg rs1)).toNat .q false) - v))
        (alignTo .q (s.readReg rs1)).toNat 8 (s.readReg rd)) ∧
    (s.accessible (alignTo .d (s.readReg rs1)) .d = true →
      givesRegAndStore (.axsubSd rd rs1 rs2) s rd (truncX s.cfg ((datumAt s.cfg s.mem (alignTo .d (s.readReg rs1)).toNat .d true) - v))
        (alignTo .d (s.readReg rs1)).toNat 4 (s.readReg rd))

/-- AXAND.x, AXIOR.x and AXXOR.x exchange and operate, in every size (46_atomic.md R320, R331 to R345, 47_srm64.md
R430, R439 to R444; the width is D28, log 22; the alignment of `rs1` is D8, log 21; the link, at `LinkGranule`, is
D30, log 13). -/
def Obligations.ExchangeAndBitwise : Prop :=
  ∀ (rd rs1 rs2 : Reg) (s : State),
    let v := s.readReg rs2
    (s.accessible (alignTo .b (s.readReg rs1)) .b = true →
      givesRegAndStore (.axandB rd rs1 rs2) s rd (truncX s.cfg ((datumAt s.cfg s.mem (alignTo .b (s.readReg rs1)).toNat .b false) &&& v))
        (alignTo .b (s.readReg rs1)).toNat 1 (s.readReg rd)) ∧
    (s.accessible (alignTo .w (s.readReg rs1)) .w = true →
      givesRegAndStore (.axandW rd rs1 rs2) s rd (truncX s.cfg ((datumAt s.cfg s.mem (alignTo .w (s.readReg rs1)).toNat .w false) &&& v))
        (alignTo .w (s.readReg rs1)).toNat 2 (s.readReg rd)) ∧
    (s.accessible (alignTo .d (s.readReg rs1)) .d = true →
      givesRegAndStore (.axandD rd rs1 rs2) s rd (truncX s.cfg ((datumAt s.cfg s.mem (alignTo .d (s.readReg rs1)).toNat .d false) &&& v))
        (alignTo .d (s.readReg rs1)).toNat 4 (s.readReg rd)) ∧
    (s.accessible (alignTo .b (s.readReg rs1)) .b = true →
      givesRegAndStore (.axandSb rd rs1 rs2) s rd (truncX s.cfg ((datumAt s.cfg s.mem (alignTo .b (s.readReg rs1)).toNat .b true) &&& v))
        (alignTo .b (s.readReg rs1)).toNat 1 (s.readReg rd)) ∧
    (s.accessible (alignTo .w (s.readReg rs1)) .w = true →
      givesRegAndStore (.axandSw rd rs1 rs2) s rd (truncX s.cfg ((datumAt s.cfg s.mem (alignTo .w (s.readReg rs1)).toNat .w true) &&& v))
        (alignTo .w (s.readReg rs1)).toNat 2 (s.readReg rd)) ∧
    (s.accessible (alignTo .q (s.readReg rs1)) .q = true →
      givesRegAndStore (.axandQ rd rs1 rs2) s rd (truncX s.cfg ((datumAt s.cfg s.mem (alignTo .q (s.readReg rs1)).toNat .q false) &&& v))
        (alignTo .q (s.readReg rs1)).toNat 8 (s.readReg rd)) ∧
    (s.accessible (alignTo .d (s.readReg rs1)) .d = true →
      givesRegAndStore (.axandSd rd rs1 rs2) s rd (truncX s.cfg ((datumAt s.cfg s.mem (alignTo .d (s.readReg rs1)).toNat .d true) &&& v))
        (alignTo .d (s.readReg rs1)).toNat 4 (s.readReg rd)) ∧
    (s.accessible (alignTo .b (s.readReg rs1)) .b = true →
      givesRegAndStore (.axiorB rd rs1 rs2) s rd (truncX s.cfg ((datumAt s.cfg s.mem (alignTo .b (s.readReg rs1)).toNat .b false) ||| v))
        (alignTo .b (s.readReg rs1)).toNat 1 (s.readReg rd)) ∧
    (s.accessible (alignTo .w (s.readReg rs1)) .w = true →
      givesRegAndStore (.axiorW rd rs1 rs2) s rd (truncX s.cfg ((datumAt s.cfg s.mem (alignTo .w (s.readReg rs1)).toNat .w false) ||| v))
        (alignTo .w (s.readReg rs1)).toNat 2 (s.readReg rd)) ∧
    (s.accessible (alignTo .d (s.readReg rs1)) .d = true →
      givesRegAndStore (.axiorD rd rs1 rs2) s rd (truncX s.cfg ((datumAt s.cfg s.mem (alignTo .d (s.readReg rs1)).toNat .d false) ||| v))
        (alignTo .d (s.readReg rs1)).toNat 4 (s.readReg rd)) ∧
    (s.accessible (alignTo .b (s.readReg rs1)) .b = true →
      givesRegAndStore (.axiorSb rd rs1 rs2) s rd (truncX s.cfg ((datumAt s.cfg s.mem (alignTo .b (s.readReg rs1)).toNat .b true) ||| v))
        (alignTo .b (s.readReg rs1)).toNat 1 (s.readReg rd)) ∧
    (s.accessible (alignTo .w (s.readReg rs1)) .w = true →
      givesRegAndStore (.axiorSw rd rs1 rs2) s rd (truncX s.cfg ((datumAt s.cfg s.mem (alignTo .w (s.readReg rs1)).toNat .w true) ||| v))
        (alignTo .w (s.readReg rs1)).toNat 2 (s.readReg rd)) ∧
    (s.accessible (alignTo .q (s.readReg rs1)) .q = true →
      givesRegAndStore (.axiorQ rd rs1 rs2) s rd (truncX s.cfg ((datumAt s.cfg s.mem (alignTo .q (s.readReg rs1)).toNat .q false) ||| v))
        (alignTo .q (s.readReg rs1)).toNat 8 (s.readReg rd)) ∧
    (s.accessible (alignTo .d (s.readReg rs1)) .d = true →
      givesRegAndStore (.axiorSd rd rs1 rs2) s rd (truncX s.cfg ((datumAt s.cfg s.mem (alignTo .d (s.readReg rs1)).toNat .d true) ||| v))
        (alignTo .d (s.readReg rs1)).toNat 4 (s.readReg rd)) ∧
    (s.accessible (alignTo .b (s.readReg rs1)) .b = true →
      givesRegAndStore (.axxorB rd rs1 rs2) s rd (truncX s.cfg ((datumAt s.cfg s.mem (alignTo .b (s.readReg rs1)).toNat .b false) ^^^ v))
        (alignTo .b (s.readReg rs1)).toNat 1 (s.readReg rd)) ∧
    (s.accessible (alignTo .w (s.readReg rs1)) .w = true →
      givesRegAndStore (.axxorW rd rs1 rs2) s rd (truncX s.cfg ((datumAt s.cfg s.mem (alignTo .w (s.readReg rs1)).toNat .w false) ^^^ v))
        (alignTo .w (s.readReg rs1)).toNat 2 (s.readReg rd)) ∧
    (s.accessible (alignTo .d (s.readReg rs1)) .d = true →
      givesRegAndStore (.axxorD rd rs1 rs2) s rd (truncX s.cfg ((datumAt s.cfg s.mem (alignTo .d (s.readReg rs1)).toNat .d false) ^^^ v))
        (alignTo .d (s.readReg rs1)).toNat 4 (s.readReg rd)) ∧
    (s.accessible (alignTo .b (s.readReg rs1)) .b = true →
      givesRegAndStore (.axxorSb rd rs1 rs2) s rd (truncX s.cfg ((datumAt s.cfg s.mem (alignTo .b (s.readReg rs1)).toNat .b true) ^^^ v))
        (alignTo .b (s.readReg rs1)).toNat 1 (s.readReg rd)) ∧
    (s.accessible (alignTo .w (s.readReg rs1)) .w = true →
      givesRegAndStore (.axxorSw rd rs1 rs2) s rd (truncX s.cfg ((datumAt s.cfg s.mem (alignTo .w (s.readReg rs1)).toNat .w true) ^^^ v))
        (alignTo .w (s.readReg rs1)).toNat 2 (s.readReg rd)) ∧
    (s.accessible (alignTo .q (s.readReg rs1)) .q = true →
      givesRegAndStore (.axxorQ rd rs1 rs2) s rd (truncX s.cfg ((datumAt s.cfg s.mem (alignTo .q (s.readReg rs1)).toNat .q false) ^^^ v))
        (alignTo .q (s.readReg rs1)).toNat 8 (s.readReg rd)) ∧
    (s.accessible (alignTo .d (s.readReg rs1)) .d = true →
      givesRegAndStore (.axxorSd rd rs1 rs2) s rd (truncX s.cfg ((datumAt s.cfg s.mem (alignTo .d (s.readReg rs1)).toNat .d true) ^^^ v))
        (alignTo .d (s.readReg rs1)).toNat 4 (s.readReg rd))

/-- AXMAX.x and AXMIN.x exchange and operate, in every size (46_atomic.md R320, R346 to R355, 47_srm64.md R430, R445
to R448; the width is D28, log 22; the alignment of `rs1` is D8, log 21; the link, at `LinkGranule`, is D30, log 13).
-/
def Obligations.ExchangeAndMaxMin : Prop :=
  ∀ (rd rs1 rs2 : Reg) (s : State),
    let v := s.readReg rs2
    (s.accessible (alignTo .b (s.readReg rs1)) .b = true →
      ∃ r, signedX s.cfg r = max (signedX s.cfg (datumAt s.cfg s.mem (alignTo .b (s.readReg rs1)).toNat .b false)) (signedX s.cfg v) ∧
        givesRegAndStore (.axmaxB rd rs1 rs2) s rd (truncX s.cfg r) (alignTo .b (s.readReg rs1)).toNat 1 (s.readReg rd)) ∧
    (s.accessible (alignTo .w (s.readReg rs1)) .w = true →
      ∃ r, signedX s.cfg r = max (signedX s.cfg (datumAt s.cfg s.mem (alignTo .w (s.readReg rs1)).toNat .w false)) (signedX s.cfg v) ∧
        givesRegAndStore (.axmaxW rd rs1 rs2) s rd (truncX s.cfg r) (alignTo .w (s.readReg rs1)).toNat 2 (s.readReg rd)) ∧
    (s.accessible (alignTo .d (s.readReg rs1)) .d = true →
      ∃ r, signedX s.cfg r = max (signedX s.cfg (datumAt s.cfg s.mem (alignTo .d (s.readReg rs1)).toNat .d false)) (signedX s.cfg v) ∧
        givesRegAndStore (.axmaxD rd rs1 rs2) s rd (truncX s.cfg r) (alignTo .d (s.readReg rs1)).toNat 4 (s.readReg rd)) ∧
    (s.accessible (alignTo .b (s.readReg rs1)) .b = true →
      ∃ r, signedX s.cfg r = max (signedX s.cfg (datumAt s.cfg s.mem (alignTo .b (s.readReg rs1)).toNat .b true)) (signedX s.cfg v) ∧
        givesRegAndStore (.axmaxSb rd rs1 rs2) s rd (truncX s.cfg r) (alignTo .b (s.readReg rs1)).toNat 1 (s.readReg rd)) ∧
    (s.accessible (alignTo .w (s.readReg rs1)) .w = true →
      ∃ r, signedX s.cfg r = max (signedX s.cfg (datumAt s.cfg s.mem (alignTo .w (s.readReg rs1)).toNat .w true)) (signedX s.cfg v) ∧
        givesRegAndStore (.axmaxSw rd rs1 rs2) s rd (truncX s.cfg r) (alignTo .w (s.readReg rs1)).toNat 2 (s.readReg rd)) ∧
    (s.accessible (alignTo .q (s.readReg rs1)) .q = true →
      ∃ r, signedX s.cfg r = max (signedX s.cfg (datumAt s.cfg s.mem (alignTo .q (s.readReg rs1)).toNat .q false)) (signedX s.cfg v) ∧
        givesRegAndStore (.axmaxQ rd rs1 rs2) s rd (truncX s.cfg r) (alignTo .q (s.readReg rs1)).toNat 8 (s.readReg rd)) ∧
    (s.accessible (alignTo .d (s.readReg rs1)) .d = true →
      ∃ r, signedX s.cfg r = max (signedX s.cfg (datumAt s.cfg s.mem (alignTo .d (s.readReg rs1)).toNat .d true)) (signedX s.cfg v) ∧
        givesRegAndStore (.axmaxSd rd rs1 rs2) s rd (truncX s.cfg r) (alignTo .d (s.readReg rs1)).toNat 4 (s.readReg rd)) ∧
    (s.accessible (alignTo .b (s.readReg rs1)) .b = true →
      ∃ r, signedX s.cfg r = min (signedX s.cfg (datumAt s.cfg s.mem (alignTo .b (s.readReg rs1)).toNat .b false)) (signedX s.cfg v) ∧
        givesRegAndStore (.axminB rd rs1 rs2) s rd (truncX s.cfg r) (alignTo .b (s.readReg rs1)).toNat 1 (s.readReg rd)) ∧
    (s.accessible (alignTo .w (s.readReg rs1)) .w = true →
      ∃ r, signedX s.cfg r = min (signedX s.cfg (datumAt s.cfg s.mem (alignTo .w (s.readReg rs1)).toNat .w false)) (signedX s.cfg v) ∧
        givesRegAndStore (.axminW rd rs1 rs2) s rd (truncX s.cfg r) (alignTo .w (s.readReg rs1)).toNat 2 (s.readReg rd)) ∧
    (s.accessible (alignTo .d (s.readReg rs1)) .d = true →
      ∃ r, signedX s.cfg r = min (signedX s.cfg (datumAt s.cfg s.mem (alignTo .d (s.readReg rs1)).toNat .d false)) (signedX s.cfg v) ∧
        givesRegAndStore (.axminD rd rs1 rs2) s rd (truncX s.cfg r) (alignTo .d (s.readReg rs1)).toNat 4 (s.readReg rd)) ∧
    (s.accessible (alignTo .b (s.readReg rs1)) .b = true →
      ∃ r, signedX s.cfg r = min (signedX s.cfg (datumAt s.cfg s.mem (alignTo .b (s.readReg rs1)).toNat .b true)) (signedX s.cfg v) ∧
        givesRegAndStore (.axminSb rd rs1 rs2) s rd (truncX s.cfg r) (alignTo .b (s.readReg rs1)).toNat 1 (s.readReg rd)) ∧
    (s.accessible (alignTo .w (s.readReg rs1)) .w = true →
      ∃ r, signedX s.cfg r = min (signedX s.cfg (datumAt s.cfg s.mem (alignTo .w (s.readReg rs1)).toNat .w true)) (signedX s.cfg v) ∧
        givesRegAndStore (.axminSw rd rs1 rs2) s rd (truncX s.cfg r) (alignTo .w (s.readReg rs1)).toNat 2 (s.readReg rd)) ∧
    (s.accessible (alignTo .q (s.readReg rs1)) .q = true →
      ∃ r, signedX s.cfg r = min (signedX s.cfg (datumAt s.cfg s.mem (alignTo .q (s.readReg rs1)).toNat .q false)) (signedX s.cfg v) ∧
        givesRegAndStore (.axminQ rd rs1 rs2) s rd (truncX s.cfg r) (alignTo .q (s.readReg rs1)).toNat 8 (s.readReg rd)) ∧
    (s.accessible (alignTo .d (s.readReg rs1)) .d = true →
      ∃ r, signedX s.cfg r = min (signedX s.cfg (datumAt s.cfg s.mem (alignTo .d (s.readReg rs1)).toNat .d true)) (signedX s.cfg v) ∧
        givesRegAndStore (.axminSd rd rs1 rs2) s rd (truncX s.cfg r) (alignTo .d (s.readReg rs1)).toNat 4 (s.readReg rd))

/-- An LL and an SC of one address and size: the first SC succeeds, the second fails (46_atomic.md R302, R309 to R311,
R315, 47_srm64.md R432; D30, log 13). -/
def Obligations.LinkThenStore : Prop :=
  ∀ (rd rd' rs1 rs2 : Reg) (s : State),
    (∀ t, exec (.llB rd rs1) s = .next t → (rd = rs1 → rd = 0) →
      ∃ u, exec (.scB rd' rs1 rs2) t = .next u ∧ u.link = none ∧ (rd' ≠ 0 → u.readReg rd' = 1) ∧
        ∃ w, exec (.scB rd' rs1 rs2) u = .next w ∧ w.readReg rd' = 0) ∧
    (∀ t, exec (.llW rd rs1) s = .next t → (rd = rs1 → rd = 0) →
      ∃ u, exec (.scW rd' rs1 rs2) t = .next u ∧ u.link = none ∧ (rd' ≠ 0 → u.readReg rd' = 1) ∧
        ∃ w, exec (.scW rd' rs1 rs2) u = .next w ∧ w.readReg rd' = 0) ∧
    (∀ t, exec (.llD rd rs1) s = .next t → (rd = rs1 → rd = 0) →
      ∃ u, exec (.scD rd' rs1 rs2) t = .next u ∧ u.link = none ∧ (rd' ≠ 0 → u.readReg rd' = 1) ∧
        ∃ w, exec (.scD rd' rs1 rs2) u = .next w ∧ w.readReg rd' = 0) ∧
    (∀ t, exec (.llSb rd rs1) s = .next t → (rd = rs1 → rd = 0) →
      ∃ u, exec (.scB rd' rs1 rs2) t = .next u ∧ u.link = none ∧ (rd' ≠ 0 → u.readReg rd' = 1) ∧
        ∃ w, exec (.scB rd' rs1 rs2) u = .next w ∧ w.readReg rd' = 0) ∧
    (∀ t, exec (.llSw rd rs1) s = .next t → (rd = rs1 → rd = 0) →
      ∃ u, exec (.scW rd' rs1 rs2) t = .next u ∧ u.link = none ∧ (rd' ≠ 0 → u.readReg rd' = 1) ∧
        ∃ w, exec (.scW rd' rs1 rs2) u = .next w ∧ w.readReg rd' = 0) ∧
    (∀ t, exec (.llQ rd rs1) s = .next t → (rd = rs1 → rd = 0) →
      ∃ u, exec (.scQ rd' rs1 rs2) t = .next u ∧ u.link = none ∧ (rd' ≠ 0 → u.readReg rd' = 1) ∧
        ∃ w, exec (.scQ rd' rs1 rs2) u = .next w ∧ w.readReg rd' = 0) ∧
    (∀ t, exec (.llSd rd rs1) s = .next t → (rd = rs1 → rd = 0) →
      ∃ u, exec (.scD rd' rs1 rs2) t = .next u ∧ u.link = none ∧ (rd' ≠ 0 → u.readReg rd' = 1) ∧
        ∃ w, exec (.scD rd' rs1 rs2) u = .next w ∧ w.readReg rd' = 0)

/-- The corrected expansion of the macro LDI leaves the constant in the register (43_pseudo_macro.md R215; D39, log
20). -/
def Obligations.LdiLoadsConstant : Prop :=
  ∀ (rd : Reg) (imm : BitVec 32) (s : State), rd ≠ 0 →
    ∃ t, execAll (Asm.ldi rd imm) s = .next t ∧ regsBut s t rd (sextX s.cfg imm) ∧ memKept s t ∧ t.csr = s.csr
end

