-- ==== Sys2Proof/Laws/Encoding.lean ====
section
/-! SUPPORT. The fields of the words that the encoding functions of the formats build (30_encoding.md R93 to R98), and every
word as its fields. -/

namespace Sys2Proof

/-- The fields of a word of format DSS (R94). -/
theorem fields_encDSS (op : BitVec 6) (fn7 : BitVec 7) (fn4 : BitVec 4) (rd rs1 rs2 : Reg) :
    opcodeOf (encDSS op fn7 fn4 rd rs1 rs2) = op ∧
      fn7Of (encDSS op fn7 fn4 rd rs1 rs2) = fn7 ∧
      fn4Of (encDSS op fn7 fn4 rd rs1 rs2) = fn4 ∧
      rdOf (encDSS op fn7 fn4 rd rs1 rs2) = rd ∧
      rs1Of (encDSS op fn7 fn4 rd rs1 rs2) = rs1 ∧
      rs2Of (encDSS op fn7 fn4 rd rs1 rs2) = rs2 := by
  refine ⟨?_, ?_, ?_, ?_, ?_, ?_⟩ <;> apply BitVec.eq_of_getLsbD_eq <;> intro i hi <;>
    simp only [opcodeOf, fn7Of, fn4Of, rdOf, rs1Of, rs2Of, encDSS, BitVec.getLsbD_extractLsb',
      BitVec.getLsbD_append] <;>
    simp [hi] <;> grind

/-- The fields of a word of format DSI (R95). -/
theorem fields_encDSI (op : BitVec 6) (fn4 : BitVec 4) (rd rs1 : Reg) (imm : BitVec 12) :
    opcodeOf (encDSI op fn4 rd rs1 imm) = op ∧
      fn4Of (encDSI op fn4 rd rs1 imm) = fn4 ∧
      rdOf (encDSI op fn4 rd rs1 imm) = rd ∧
      rs1Of (encDSI op fn4 rd rs1 imm) = rs1 ∧
      imm12Of (encDSI op fn4 rd rs1 imm) = imm := by
  refine ⟨?_, ?_, ?_, ?_, ?_⟩ <;> apply BitVec.eq_of_getLsbD_eq <;> intro i hi <;>
    simp only [opcodeOf, fn4Of, rdOf, rs1Of, imm12Of, encDSI, BitVec.getLsbD_extractLsb',
      BitVec.getLsbD_append] <;>
    simp [hi] <;> grind

/-- The fields of a word of format DI (R93). -/
theorem fields_encDI (op : BitVec 6) (rd : Reg) (imm : BitVec 21) :
    opcodeOf (encDI op rd imm) = op ∧
      rdOf (encDI op rd imm) = rd ∧
      imm21Of (encDI op rd imm) = imm := by
  refine ⟨?_, ?_, ?_⟩ <;> apply BitVec.eq_of_getLsbD_eq <;> intro i hi <;>
    simp only [opcodeOf, rdOf, imm21Of, encDI, BitVec.getLsbD_extractLsb',
      BitVec.getLsbD_append] <;>
    simp [hi] <;> grind

/-- The fields of a word of format SSI (R96). -/
theorem fields_encSSI (op : BitVec 6) (fn4 : BitVec 4) (rs1 rs2 : Reg) (imm : BitVec 12) :
    opcodeOf (encSSI op fn4 rs1 rs2 imm) = op ∧
      fn4Of (encSSI op fn4 rs1 rs2 imm) = fn4 ∧
      rs1Of (encSSI op fn4 rs1 rs2 imm) = rs1 ∧
      rs2Of (encSSI op fn4 rs1 rs2 imm) = rs2 ∧
      immSSIOf (encSSI op fn4 rs1 rs2 imm) = imm := by
  refine ⟨?_, ?_, ?_, ?_, ?_⟩ <;> apply BitVec.eq_of_getLsbD_eq <;> intro i hi <;>
    simp only [opcodeOf, fn4Of, rs1Of, rs2Of, immSSIOf, rdOf, fn7Of, encSSI, BitVec.getLsbD_extractLsb',
      BitVec.getLsbD_append] <;>
    simp [hi] <;> grind

/-- The fields of a word of format CSB (R97). -/
theorem fields_encCSB (op : BitVec 6) (fn4 : BitVec 4) (csr : BitVec 12) (sel : BitVec 5) :
    opcodeOf (encCSB op fn4 csr sel) = op ∧
      fn4Of (encCSB op fn4 csr sel) = fn4 ∧
      imm12Of (encCSB op fn4 csr sel) = csr ∧
      rdOf (encCSB op fn4 csr sel) = sel := by
  refine ⟨?_, ?_, ?_, ?_⟩ <;> apply BitVec.eq_of_getLsbD_eq <;> intro i hi <;>
    simp only [opcodeOf, fn4Of, imm12Of, rdOf, encCSB, BitVec.getLsbD_extractLsb',
      BitVec.getLsbD_append] <;>
    simp [hi] <;> grind

/-- The fields of a word of format FNC (R98). -/
theorem fields_encFNC (op : BitVec 6) (fn7 : BitVec 7) (fn4 : BitVec 4) (iorw : BitVec 4) :
    opcodeOf (encFNC op fn7 fn4 iorw) = op ∧
      fn7Of (encFNC op fn7 fn4 iorw) = fn7 ∧
      fn4Of (encFNC op fn7 fn4 iorw) = fn4 ∧
      iorwOf (encFNC op fn7 fn4 iorw) = iorw := by
  refine ⟨?_, ?_, ?_, ?_⟩ <;> apply BitVec.eq_of_getLsbD_eq <;> intro i hi <;>
    simp only [opcodeOf, fn7Of, fn4Of, iorwOf, encFNC, BitVec.getLsbD_extractLsb',
      BitVec.getLsbD_append] <;>
    simp [hi] <;> grind

/-- Every word is the word of format DSS with its own fields. -/
theorem encDSS_fields (w : BitVec 32) :
    encDSS (opcodeOf w) (fn7Of w) (fn4Of w) (rdOf w) (rs1Of w) (rs2Of w) = w := by
  apply BitVec.eq_of_getLsbD_eq
  intro i hi
  simp only [opcodeOf, fn7Of, fn4Of, rdOf, rs1Of, rs2Of, encDSS, BitVec.getLsbD_extractLsb',
    BitVec.getLsbD_append]
  simp; grind

/-- Every word is the word of format DSI with its own fields. -/
theorem encDSI_fields (w : BitVec 32) :
    encDSI (opcodeOf w) (fn4Of w) (rdOf w) (rs1Of w) (imm12Of w) = w := by
  apply BitVec.eq_of_getLsbD_eq
  intro i hi
  simp only [opcodeOf, fn4Of, rdOf, rs1Of, imm12Of, encDSI, BitVec.getLsbD_extractLsb',
    BitVec.getLsbD_append]
  simp; grind

/-- Every word is the word of format DI with its own fields. -/
theorem encDI_fields (w : BitVec 32) :
    encDI (opcodeOf w) (rdOf w) (imm21Of w) = w := by
  apply BitVec.eq_of_getLsbD_eq
  intro i hi
  simp only [opcodeOf, rdOf, imm21Of, encDI, BitVec.getLsbD_extractLsb',
    BitVec.getLsbD_append]
  simp; grind

/-- Every word is the word of format SSI with its own fields. -/
theorem encSSI_fields (w : BitVec 32) :
    encSSI (opcodeOf w) (fn4Of w) (rs1Of w) (rs2Of w) (immSSIOf w) = w := by
  apply BitVec.eq_of_getLsbD_eq
  intro i hi
  simp only [opcodeOf, fn4Of, rs1Of, rs2Of, immSSIOf, rdOf, fn7Of, encSSI, BitVec.getLsbD_extractLsb',
    BitVec.getLsbD_append]
  simp; grind

end Sys2Proof
end

