-- ==== Sys2Proof/Laws/Memory.lean ====
section
/-! SUPPORT. Memory: a read after a write, and the canonical form that every operation keeps. -/

namespace Sys2Proof.Machine

theorem Memory.read_erase (m : Memory) (a b : Nat) :
    (m.erase a).read b = if a = b then Memory.unlisted else m.read b := by
  induction m with
  | nil => simp [Memory.erase, Memory.read]
  | cons c m ih =>
    obtain ⟨k, w⟩ := c
    simp only [Memory.erase, Memory.read]
    split
    · rw [ih]; subst_vars; split <;> simp_all
    · simp only [Memory.read]
      split <;> split <;> simp_all

theorem Memory.read_insertCell_same (m : Memory) (a : Nat) (v : Byte) (h : m.read a = Memory.unlisted)
    (hm : ∀ c ∈ m, c.1 ≠ a) : (m.insertCell a v).read a = v := by
  induction m with
  | nil => simp [Memory.insertCell, Memory.read]
  | cons c m ih =>
    obtain ⟨k, w⟩ := c
    have hk : k ≠ a := hm (k, w) (by simp)
    simp only [Memory.insertCell]
    split
    · simp [Memory.read]
    · simp only [Memory.read, if_neg hk] at h ⊢
      exact ih h fun c hc => hm c (by simp [hc])

theorem Memory.read_insertCell_other (m : Memory) (a b : Nat) (v : Byte) (h : a ≠ b) :
    (m.insertCell a v).read b = m.read b := by
  induction m with
  | nil => simp [Memory.insertCell, Memory.read, h]
  | cons c m ih =>
    obtain ⟨k, w⟩ := c
    simp only [Memory.insertCell]
    split
    · simp [Memory.read, h]
    · simp only [Memory.read, ih]

theorem Memory.erase_ne (m : Memory) (a : Nat) : ∀ c ∈ m.erase a, c.1 ≠ a := by
  induction m with
  | nil => simp [Memory.erase]
  | cons c m ih =>
    obtain ⟨k, w⟩ := c
    simp only [Memory.erase]
    split
    · exact ih
    · intro c hc
      rcases List.mem_cons.1 hc with rfl | hc
      · assumption
      · exact ih c hc

/-- A read after a write of one byte, in any memory. -/
theorem Memory.read_write (m : Memory) (a b : Nat) (v : Byte) :
    (m.write a v).read b = if b = a then v else m.read b := by
  unfold Memory.write
  split
  · rw [Memory.read_erase]; subst_vars; split <;> split <;> simp_all
  · split
    · subst_vars
      exact Memory.read_insertCell_same _ _ _ (by simp [Memory.read_erase]) (Memory.erase_ne m _)
    · rw [Memory.read_insertCell_other _ _ _ _ (by omega), Memory.read_erase, if_neg (by omega)]

/-- A read after a little-endian write: byte `i` of the value inside, the old byte outside. -/
theorem Memory.read_writeLE (m : Memory) (a n b : Nat) (v : Word) :
    (m.writeLE a n v).read b = if a ≤ b ∧ b < a + n then (v >>> (8 * (b - a))).setWidth 8 else m.read b := by
  induction n generalizing m a v with
  | zero => simp only [Memory.writeLE]; rw [if_neg (by omega)]
  | succ n ih =>
    simp only [Memory.writeLE, ih, Memory.read_write]
    by_cases h1 : a + 1 ≤ b ∧ b < a + 1 + n
    · rw [if_pos h1, if_pos (by omega), ← BitVec.shiftRight_add]
      congr 2; omega
    · rw [if_neg h1]
      by_cases h2 : b = a
      · subst h2; simp
      · rw [if_neg h2, if_neg (by omega)]

/-- A read after bytes were placed: the placed byte inside, the old byte outside. -/
theorem Memory.read_load (m : Memory) (a b : Nat) (bs : List Byte) :
    (m.load a bs).read b = if a ≤ b then bs.getD (b - a) (m.read b) else m.read b := by
  induction bs generalizing m a with
  | nil => simp [Memory.load]
  | cons x xs ih =>
    simp only [Memory.load, ih, Memory.read_write]
    by_cases h1 : a + 1 ≤ b
    · obtain ⟨d, rfl⟩ : ∃ d, b = a + 1 + d := ⟨b - (a + 1), by omega⟩
      rw [if_pos h1, if_pos (show a ≤ a + 1 + d by omega), if_neg (show ¬ a + 1 + d = a by omega),
        show a + 1 + d - a = d + 1 by omega, show a + 1 + d - (a + 1) = d by omega, List.getD_cons_succ]
    · by_cases h2 : b = a
      · subst h2; simp
      · simp [h2, h1, show ¬ a ≤ b by omega]

/-! ## The canonical form -/

/-- The canonical form as a fact about all cells: addresses rise, no cell holds what an unlisted address reads as. -/
theorem Memory.wf_iff (m : Memory) :
    m.wf = true ↔ m.Pairwise (fun c d => c.1 < d.1) ∧ ∀ c ∈ m, c.2 ≠ Memory.unlisted := by
  induction m with
  | nil => simp [Memory.wf]
  | cons c m ih =>
    obtain ⟨k, v⟩ := c
    cases m with
    | nil => simp [Memory.wf]
    | cons d m =>
      obtain ⟨k', v'⟩ := d
      rw [Memory.wf, Bool.and_eq_true, Bool.and_eq_true, ih]
      simp only [List.pairwise_cons, List.mem_cons, forall_eq_or_imp, bne_iff_ne, decide_eq_true_eq]
      constructor
      · rintro ⟨⟨h1, h2⟩, ⟨h3, h4⟩, h5, h6⟩
        exact ⟨⟨⟨h2, fun c hc => Nat.lt_trans h2 (h3 c hc)⟩, h3, h4⟩, h1, h5, h6⟩
      · rintro ⟨⟨⟨h1, h2⟩, h3, h4⟩, h5, h6, h7⟩
        exact ⟨⟨h5, h1⟩, ⟨h3, h4⟩, h6, h7⟩

theorem Memory.erase_sublist (m : Memory) (a : Nat) : (m.erase a).Sublist m := by
  induction m with
  | nil => simp [Memory.erase]
  | cons c m ih =>
    obtain ⟨k, w⟩ := c
    simp only [Memory.erase]
    split
    · exact ih.cons _
    · exact ih.cons_cons _

theorem Memory.mem_insertCell (m : Memory) (a : Nat) (v : Byte) (c : Host.Cell) :
    c ∈ m.insertCell a v ↔ c = (a, v) ∨ c ∈ m := by
  induction m with
  | nil => simp [Memory.insertCell]
  | cons d m ih =>
    obtain ⟨k, w⟩ := d
    simp only [Memory.insertCell]
    split
    · simp
    · simp only [List.mem_cons, ih]; tauto

theorem Memory.pairwise_insertCell (m : Memory) (a : Nat) (v : Byte)
    (h : m.Pairwise (fun c d => c.1 < d.1)) (hm : ∀ c ∈ m, c.1 ≠ a) :
    (m.insertCell a v).Pairwise (fun c d => c.1 < d.1) := by
  induction m with
  | nil => simp [Memory.insertCell]
  | cons d m ih =>
    obtain ⟨k, w⟩ := d
    rw [List.pairwise_cons] at h
    simp only [Memory.insertCell]
    split
    · rename_i hk
      rw [List.pairwise_cons, List.pairwise_cons]
      refine ⟨fun c hc => ?_, h⟩
      rcases List.mem_cons.1 hc with rfl | hc
      · exact hk
      · exact Nat.lt_trans hk (h.1 c hc)
    · rw [List.pairwise_cons]
      refine ⟨fun c hc => ?_, ih h.2 fun c hc => hm c (by simp [hc])⟩
      rcases (Memory.mem_insertCell _ _ _ _).1 hc with rfl | hc
      · have := hm (k, w) (by simp)
        simp only at this ⊢
        omega
      · exact h.1 c hc

/-- A write of one byte keeps the canonical form. -/
theorem Memory.wf_write (m : Memory) (a : Nat) (v : Byte) (h : m.wf = true) : (m.write a v).wf = true := by
  rw [Memory.wf_iff] at h
  have he : (m.erase a).Pairwise (fun c d => c.1 < d.1) := h.1.sublist (m.erase_sublist a)
  have hu : ∀ c ∈ m.erase a, c.2 ≠ Memory.unlisted := fun c hc => h.2 c ((m.erase_sublist a).mem hc)
  unfold Memory.write
  split
  · exact (Memory.wf_iff _).2 ⟨he, hu⟩
  · refine (Memory.wf_iff _).2 ⟨Memory.pairwise_insertCell _ _ _ he (m.erase_ne a), fun c hc => ?_⟩
    rcases (Memory.mem_insertCell _ _ _ _).1 hc with rfl | hc
    · assumption
    · exact hu c hc

/-- A little-endian write keeps the canonical form. -/
theorem Memory.wf_writeLE (m : Memory) (a n : Nat) (v : Word) (h : m.wf = true) : (m.writeLE a n v).wf = true := by
  induction n generalizing m a v with
  | zero => exact h
  | succ n ih => exact ih _ _ _ (m.wf_write a _ h)

/-- Placing bytes keeps the canonical form. -/
theorem Memory.wf_load (m : Memory) (a : Nat) (bs : List Byte) (h : m.wf = true) : (m.load a bs).wf = true := by
  induction bs generalizing m a with
  | nil => exact h
  | cons b bs ih => exact ih _ _ (m.wf_write a b h)

/-! ## The addresses stored to -/

theorem Stored.wf_iff (l : List Nat) : Stored.wf l = true ↔ l.Pairwise (· < ·) := by
  induction l with
  | nil => simp [Stored.wf]
  | cons k l ih =>
    cases l with
    | nil => simp [Stored.wf]
    | cons k' l =>
      rw [Stored.wf, Bool.and_eq_true, ih]
      simp only [List.pairwise_cons, List.mem_cons, forall_eq_or_imp, decide_eq_true_eq]
      constructor
      · rintro ⟨h1, h2, h3⟩
        exact ⟨⟨h1, fun c hc => Nat.lt_trans h1 (h2 c hc)⟩, h2, h3⟩
      · rintro ⟨⟨h1, -⟩, h2, h3⟩
        exact ⟨h1, h2, h3⟩

theorem Stored.mem_insert (a b : Nat) (l : List Nat) : b ∈ Stored.insert a l ↔ b = a ∨ b ∈ l := by
  induction l with
  | nil => simp [Stored.insert]
  | cons k l ih =>
    simp only [Stored.insert]
    split
    · simp
    · split
      · subst_vars; simp
      · simp only [List.mem_cons, ih]; tauto

theorem Stored.wf_insert (a : Nat) (l : List Nat) (h : Stored.wf l = true) : Stored.wf (Stored.insert a l) = true := by
  rw [Stored.wf_iff] at h ⊢
  induction l with
  | nil => simp [Stored.insert]
  | cons k l ih =>
    rw [List.pairwise_cons] at h
    simp only [Stored.insert]
    split
    · rename_i hk
      rw [List.pairwise_cons, List.pairwise_cons]
      exact ⟨fun c hc => (List.mem_cons.1 hc).elim (fun e => e ▸ hk) fun hc => Nat.lt_trans hk (h.1 c hc), h⟩
    · split
      · exact List.pairwise_cons.2 h
      · rw [List.pairwise_cons]
        refine ⟨fun c hc => ?_, ih h.2⟩
        rcases (Stored.mem_insert _ _ _).1 hc with rfl | hc
        · omega
        · exact h.1 c hc

/-- The addresses that still count as stored to after a word was placed: the ones outside it. -/
theorem Stored.mem_removeRange (l : List Nat) (a n b : Nat) :
    b ∈ Stored.removeRange a n l ↔ b ∈ l ∧ (b < a ∨ a + n ≤ b) := by
  induction l with
  | nil => simp [Stored.removeRange]
  | cons k l ih =>
    simp only [Stored.removeRange]
    split
    · rw [ih, List.mem_cons]
      constructor
      · exact fun h => ⟨.inr h.1, h.2⟩
      · rintro ⟨rfl | h, h'⟩
        · omega
        · exact ⟨h, h'⟩
    · rw [List.mem_cons, ih, List.mem_cons]
      constructor
      · rintro (rfl | h)
        · exact ⟨.inl rfl, by omega⟩
        · exact ⟨.inr h.1, h.2⟩
      · rintro ⟨rfl | h, h'⟩
        · exact .inl rfl
        · exact .inr ⟨h, h'⟩

/-- The addresses after a store: the old ones and the `n` from `a` on. -/
theorem Stored.mem_insertRange (l : List Nat) (a n b : Nat) :
    b ∈ Stored.insertRange l a n ↔ b ∈ l ∨ (a ≤ b ∧ b < a + n) := by
  induction n generalizing l a with
  | zero => simp only [Stored.insertRange]; constructor <;> [tauto; (rintro (h | h) <;> [exact h; omega])]
  | succ n ih =>
    simp only [Stored.insertRange, ih, Stored.mem_insert]
    constructor
    · rintro ((rfl | h) | h)
      · exact .inr (by omega)
      · exact .inl h
      · exact .inr (by omega)
    · rintro (h | h)
      · exact .inl (.inr h)
      · by_cases hb : b = a
        · exact .inl (.inl hb)
        · exact .inr (by omega)

theorem Stored.wf_insertRange (l : List Nat) (a n : Nat) (h : Stored.wf l = true) :
    Stored.wf (Stored.insertRange l a n) = true := by
  induction n generalizing l a with
  | zero => exact h
  | succ n ih => exact ih _ _ (Stored.wf_insert a l h)

end Sys2Proof.Machine
end

