-- ==== Sys2Proof/Laws/Width.lean ====
section
/-! SUPPORT. The width primitives. -/

namespace Sys2Proof.Machine

theorem truncX_toNat (c : Config) (v : Word) : (truncX c v).toNat = v.toNat % 2 ^ c.xlen := by
  unfold truncX Config.xlen
  split
  · exact (Nat.mod_eq_of_lt v.isLt).symm
  · simp only [BitVec.toNat_setWidth]
    omega

@[simp] theorem truncX_truncX (c : Config) (v : Word) : truncX c (truncX c v) = truncX c v := by
  apply BitVec.eq_of_toNat_eq
  simp [truncX_toNat]

@[simp] theorem truncX_zero (c : Config) : truncX c 0#64 = 0#64 := by unfold truncX; split <;> rfl

@[simp] theorem truncX_sextX (c : Config) {w : Nat} (v : BitVec w) : truncX c (sextX c v) = sextX c v := by simp [sextX]

@[simp] theorem truncX_widen (c : Config) (sz : Size) (b : Bool) (v : Word) :
    truncX c (widen c sz b v) = widen c sz b v := by simp [widen]

/-- Every bit of a truncated value is the bit of the value, or 0 above `XLEN`. -/
theorem truncX_getLsbD (c : Config) (v : Word) (i : Nat) :
    (truncX c v).getLsbD i = (decide (i < c.xlen) && v.getLsbD i) := by
  unfold truncX Config.xlen
  split
  · by_cases h : i < 64
    · simp [h]
    · simp [h]; exact BitVec.getLsbD_of_ge _ _ (by omega)
  · simp only [BitVec.getLsbD_setWidth]
    by_cases h : i < 32 <;> simp [h]
    omega

theorem alignTo_toNat (sz : Size) (a : Word) : (alignTo sz a).toNat = a.toNat / sz.bytes * sz.bytes := by
  have key : ∀ (k : Nat), k < 64 → (a &&& ~~~(BitVec.ofNat 64 (2 ^ k - 1))).toNat = a.toNat / 2 ^ k * 2 ^ k := by
    intro k hk
    have h : a &&& ~~~(BitVec.ofNat 64 (2 ^ k - 1)) = (a >>> k) <<< k := by
      apply BitVec.eq_of_getLsbD_eq
      intro i hi
      have hlt : 2 ^ k - 1 < 2 ^ 64 := Nat.lt_of_le_of_lt (Nat.sub_le _ _) (Nat.pow_lt_pow_right (by omega) hk)
      simp only [BitVec.getLsbD_and, BitVec.getLsbD_not, BitVec.getLsbD_ofNat, BitVec.getLsbD_shiftLeft,
        BitVec.getLsbD_ushiftRight, Nat.testBit_two_pow_sub_one, hi, decide_true, Bool.true_and]
      by_cases h2 : i < k
      · simp [h2]
      · simp [h2, show k + (i - k) = i by omega]
    rw [h, BitVec.toNat_shiftLeft, BitVec.toNat_ushiftRight, Nat.shiftLeft_eq, Nat.shiftRight_eq_div_pow,
      Nat.mod_eq_of_lt]
    exact Nat.lt_of_le_of_lt (Nat.div_mul_le_self _ _) a.isLt
  cases sz
  · simp [alignTo, Size.bytes]
  · exact key 1 (by omega)
  · exact key 2 (by omega)
  · exact key 3 (by omega)

theorem alignTo_alignTo (sz : Size) (a : Word) : alignTo sz (alignTo sz a) = alignTo sz a := by
  apply BitVec.eq_of_toNat_eq
  have : 0 < sz.bytes := by cases sz <;> decide
  simp [alignTo_toNat, Nat.mul_div_cancel _ this]

/-- Aligning keeps an `XLEN`-bit value an `XLEN`-bit value. -/
theorem truncX_alignTo (c : Config) (sz : Size) (a : Word) (h : truncX c a = a) :
    truncX c (alignTo sz a) = alignTo sz a := by
  apply BitVec.eq_of_toNat_eq
  rw [truncX_toNat, alignTo_toNat, Nat.mod_eq_of_lt]
  have ha : a.toNat < 2 ^ c.xlen := by
    rw [← h, truncX_toNat]; exact Nat.mod_lt _ (Nat.two_pow_pos _)
  exact Nat.lt_of_le_of_lt (Nat.div_mul_le_self _ _) ha

end Sys2Proof.Machine
end

