-- ==== Sys2Proof/Laws/State.lean ====
section
/-! SUPPORT. The fields of the state after each named update, and the register file. -/

namespace Sys2Proof.Machine

/-! ## One lemma per field per update -/

@[simp] theorem State.writeReg_cfg (s : State) (r : Reg) (v : Word) : (s.writeReg r v).cfg = s.cfg := by
  unfold State.writeReg; split <;> rfl

@[simp] theorem State.writeReg_ip (s : State) (r : Reg) (v : Word) : (s.writeReg r v).ip = s.ip := by
  unfold State.writeReg; split <;> rfl

@[simp] theorem State.writeReg_csr (s : State) (r : Reg) (v : Word) : (s.writeReg r v).csr = s.csr := by
  unfold State.writeReg; split <;> rfl

@[simp] theorem State.writeReg_link (s : State) (r : Reg) (v : Word) : (s.writeReg r v).link = s.link := by
  unfold State.writeReg; split <;> rfl

@[simp] theorem State.writeReg_mem (s : State) (r : Reg) (v : Word) : (s.writeReg r v).mem = s.mem := by
  unfold State.writeReg; split <;> rfl

@[simp] theorem State.writeReg_stored (s : State) (r : Reg) (v : Word) : (s.writeReg r v).stored = s.stored := by
  unfold State.writeReg; split <;> rfl

@[simp] theorem State.writeReg_pending (s : State) (r : Reg) (v : Word) : (s.writeReg r v).pending = s.pending := by
  unfold State.writeReg; split <;> rfl

@[simp] theorem State.writeReg_inputs (s : State) (r : Reg) (v : Word) : (s.writeReg r v).inputs = s.inputs := by
  unfold State.writeReg; split <;> rfl

@[simp] theorem State.writeReg_ports (s : State) (r : Reg) (v : Word) : (s.writeReg r v).ports = s.ports := by
  unfold State.writeReg; split <;> rfl

@[simp] theorem State.advance_cfg (s : State) : (s.advance).cfg = s.cfg := rfl

@[simp] theorem State.advance_regs (s : State) : (s.advance).regs = s.regs := rfl

@[simp] theorem State.advance_ip (s : State) : (s.advance).ip = truncX s.cfg (s.ip + 4) := rfl

@[simp] theorem State.advance_csr (s : State) : (s.advance).csr = s.csr := rfl

@[simp] theorem State.advance_link (s : State) : (s.advance).link = s.link := rfl

@[simp] theorem State.advance_mem (s : State) : (s.advance).mem = s.mem := rfl

@[simp] theorem State.advance_stored (s : State) : (s.advance).stored = s.stored := rfl

@[simp] theorem State.advance_pending (s : State) : (s.advance).pending = s.pending := rfl

@[simp] theorem State.advance_inputs (s : State) : (s.advance).inputs = s.inputs := rfl

@[simp] theorem State.advance_ports (s : State) : (s.advance).ports = s.ports := rfl

@[simp] theorem State.setReg_cfg (s : State) (r : Reg) (v : Word) : (s.setReg r v).cfg = s.cfg := by
  simp [State.setReg]

@[simp] theorem State.setReg_regs (s : State) (r : Reg) (v : Word) : (s.setReg r v).regs = (s.writeReg r v).regs := by
  simp [State.setReg]

@[simp] theorem State.setReg_ip (s : State) (r : Reg) (v : Word) : (s.setReg r v).ip = truncX s.cfg (s.ip + 4) := by
  simp [State.setReg]

@[simp] theorem State.setReg_csr (s : State) (r : Reg) (v : Word) : (s.setReg r v).csr = s.csr := by
  simp [State.setReg]

@[simp] theorem State.setReg_link (s : State) (r : Reg) (v : Word) : (s.setReg r v).link = s.link := by
  simp [State.setReg]

@[simp] theorem State.setReg_mem (s : State) (r : Reg) (v : Word) : (s.setReg r v).mem = s.mem := by
  simp [State.setReg]

@[simp] theorem State.setReg_stored (s : State) (r : Reg) (v : Word) : (s.setReg r v).stored = s.stored := by
  simp [State.setReg]

@[simp] theorem State.setReg_pending (s : State) (r : Reg) (v : Word) : (s.setReg r v).pending = s.pending := by
  simp [State.setReg]

@[simp] theorem State.setReg_inputs (s : State) (r : Reg) (v : Word) : (s.setReg r v).inputs = s.inputs := by
  simp [State.setReg]

@[simp] theorem State.setReg_ports (s : State) (r : Reg) (v : Word) : (s.setReg r v).ports = s.ports := by
  simp [State.setReg]

@[simp] theorem State.poke_cfg (s : State) (a : Word) (sz : Size) (v : Word) : (s.poke a sz v).cfg = s.cfg := rfl

@[simp] theorem State.poke_regs (s : State) (a : Word) (sz : Size) (v : Word) : (s.poke a sz v).regs = s.regs := rfl

@[simp] theorem State.poke_ip (s : State) (a : Word) (sz : Size) (v : Word) : (s.poke a sz v).ip = s.ip := rfl

@[simp] theorem State.poke_csr (s : State) (a : Word) (sz : Size) (v : Word) : (s.poke a sz v).csr = s.csr := rfl

@[simp] theorem State.poke_link (s : State) (a : Word) (sz : Size) (v : Word) :
    (s.poke a sz v).link = breakLink s.cfg.linkGranule s.link a.toNat sz.bytes := rfl

@[simp] theorem State.poke_mem (s : State) (a : Word) (sz : Size) (v : Word) :
    (s.poke a sz v).mem = s.mem.writeLE a.toNat sz.bytes v := rfl

@[simp] theorem State.poke_stored (s : State) (a : Word) (sz : Size) (v : Word) :
    (s.poke a sz v).stored = s.stored := rfl

@[simp] theorem State.poke_pending (s : State) (a : Word) (sz : Size) (v : Word) :
    (s.poke a sz v).pending = s.pending := rfl

@[simp] theorem State.poke_inputs (s : State) (a : Word) (sz : Size) (v : Word) :
    (s.poke a sz v).inputs = s.inputs := rfl

@[simp] theorem State.poke_ports (s : State) (a : Word) (sz : Size) (v : Word) : (s.poke a sz v).ports = s.ports := rfl

@[simp] theorem State.memWrite_cfg (s : State) (a : Word) (sz : Size) (v : Word) :
    (s.memWrite a sz v).cfg = s.cfg := rfl

@[simp] theorem State.memWrite_regs (s : State) (a : Word) (sz : Size) (v : Word) :
    (s.memWrite a sz v).regs = s.regs := rfl

@[simp] theorem State.memWrite_ip (s : State) (a : Word) (sz : Size) (v : Word) : (s.memWrite a sz v).ip = s.ip := rfl

@[simp] theorem State.memWrite_csr (s : State) (a : Word) (sz : Size) (v : Word) :
    (s.memWrite a sz v).csr = s.csr := rfl

@[simp] theorem State.memWrite_link (s : State) (a : Word) (sz : Size) (v : Word) :
    (s.memWrite a sz v).link = breakLink s.cfg.linkGranule s.link a.toNat sz.bytes := rfl

@[simp] theorem State.memWrite_mem (s : State) (a : Word) (sz : Size) (v : Word) :
    (s.memWrite a sz v).mem = s.mem.writeLE a.toNat sz.bytes v := rfl

@[simp] theorem State.memWrite_stored (s : State) (a : Word) (sz : Size) (v : Word) :
    (s.memWrite a sz v).stored = Stored.insertRange s.stored a.toNat sz.bytes := rfl

@[simp] theorem State.memWrite_pending (s : State) (a : Word) (sz : Size) (v : Word) :
    (s.memWrite a sz v).pending = s.pending := rfl

@[simp] theorem State.memWrite_inputs (s : State) (a : Word) (sz : Size) (v : Word) :
    (s.memWrite a sz v).inputs = s.inputs := rfl

@[simp] theorem State.memWrite_ports (s : State) (a : Word) (sz : Size) (v : Word) :
    (s.memWrite a sz v).ports = s.ports := rfl

@[simp] theorem State.setPriv_cfg (s : State) (p : BitVec 2) : (s.setPriv p).cfg = s.cfg := rfl

@[simp] theorem State.setPriv_regs (s : State) (p : BitVec 2) : (s.setPriv p).regs = s.regs := rfl

@[simp] theorem State.setPriv_ip (s : State) (p : BitVec 2) : (s.setPriv p).ip = s.ip := rfl

@[simp] theorem State.setPriv_csr (s : State) (p : BitVec 2) :
    (s.setPriv p).csr = { s.csr with mstatus := withPriv s.csr.mstatus p } := rfl

@[simp] theorem State.setPriv_link (s : State) (p : BitVec 2) : (s.setPriv p).link = s.link := rfl

@[simp] theorem State.setPriv_mem (s : State) (p : BitVec 2) : (s.setPriv p).mem = s.mem := rfl

@[simp] theorem State.setPriv_stored (s : State) (p : BitVec 2) : (s.setPriv p).stored = s.stored := rfl

@[simp] theorem State.setPriv_pending (s : State) (p : BitVec 2) : (s.setPriv p).pending = s.pending := rfl

@[simp] theorem State.setPriv_inputs (s : State) (p : BitVec 2) : (s.setPriv p).inputs = s.inputs := rfl

@[simp] theorem State.setPriv_ports (s : State) (p : BitVec 2) : (s.setPriv p).ports = s.ports := rfl

@[simp] theorem State.enterKernel_cfg (s : State) (c : Word) : (s.enterKernel c).cfg = s.cfg := rfl

@[simp] theorem State.enterKernel_regs (s : State) (c : Word) : (s.enterKernel c).regs = s.regs := rfl

@[simp] theorem State.enterKernel_ip (s : State) (c : Word) : (s.enterKernel c).ip = s.csr.kiva := rfl

@[simp] theorem State.enterKernel_link (s : State) (c : Word) : (s.enterKernel c).link = s.link := rfl

@[simp] theorem State.enterKernel_mem (s : State) (c : Word) : (s.enterKernel c).mem = s.mem := rfl

@[simp] theorem State.enterKernel_stored (s : State) (c : Word) : (s.enterKernel c).stored = s.stored := rfl

@[simp] theorem State.enterKernel_pending (s : State) (c : Word) : (s.enterKernel c).pending = s.pending := rfl

@[simp] theorem State.enterKernel_inputs (s : State) (c : Word) : (s.enterKernel c).inputs = s.inputs := rfl

@[simp] theorem State.enterKernel_ports (s : State) (c : Word) : (s.enterKernel c).ports = s.ports := rfl

@[simp] theorem State.enterMachine_cfg (s : State) (c : Word) : (s.enterMachine c).cfg = s.cfg := rfl

@[simp] theorem State.enterMachine_regs (s : State) (c : Word) : (s.enterMachine c).regs = s.regs := rfl

@[simp] theorem State.enterMachine_ip (s : State) (c : Word) : (s.enterMachine c).ip = s.csr.miva := rfl

@[simp] theorem State.enterMachine_link (s : State) (c : Word) : (s.enterMachine c).link = s.link := rfl

@[simp] theorem State.enterMachine_mem (s : State) (c : Word) : (s.enterMachine c).mem = s.mem := rfl

@[simp] theorem State.enterMachine_stored (s : State) (c : Word) : (s.enterMachine c).stored = s.stored := rfl

@[simp] theorem State.enterMachine_pending (s : State) (c : Word) : (s.enterMachine c).pending = s.pending := rfl

@[simp] theorem State.enterMachine_inputs (s : State) (c : Word) : (s.enterMachine c).inputs = s.inputs := rfl

@[simp] theorem State.enterMachine_ports (s : State) (c : Word) : (s.enterMachine c).ports = s.ports := rfl

@[simp] theorem jumpLink_cfg (r : Reg) (target : Word) (s : State) : (jumpLink r target s).cfg = s.cfg := by
  simp [jumpLink]

@[simp] theorem jumpLink_regs (r : Reg) (target : Word) (s : State) : (jumpLink r target s).regs = (s.writeReg r (s.nextIp)).regs := by
  simp [jumpLink]

@[simp] theorem jumpLink_ip (r : Reg) (target : Word) (s : State) : (jumpLink r target s).ip = target := by
  simp [jumpLink]

@[simp] theorem jumpLink_csr (r : Reg) (target : Word) (s : State) : (jumpLink r target s).csr = s.csr := by
  simp [jumpLink]

@[simp] theorem jumpLink_link (r : Reg) (target : Word) (s : State) : (jumpLink r target s).link = s.link := by
  simp [jumpLink]

@[simp] theorem jumpLink_mem (r : Reg) (target : Word) (s : State) : (jumpLink r target s).mem = s.mem := by
  simp [jumpLink]

@[simp] theorem jumpLink_stored (r : Reg) (target : Word) (s : State) : (jumpLink r target s).stored = s.stored := by
  simp [jumpLink]

@[simp] theorem jumpLink_pending (r : Reg) (target : Word) (s : State) : (jumpLink r target s).pending = s.pending := by
  simp [jumpLink]

@[simp] theorem jumpLink_inputs (r : Reg) (target : Word) (s : State) : (jumpLink r target s).inputs = s.inputs := by
  simp [jumpLink]

@[simp] theorem jumpLink_ports (r : Reg) (target : Word) (s : State) : (jumpLink r target s).ports = s.ports := by
  simp [jumpLink]

@[simp] theorem jumpIf_cfg (t : Bool) (imm : BitVec 12) (s : State) : (jumpIf t imm s).cfg = s.cfg := by
  unfold jumpIf; split <;> rfl

@[simp] theorem jumpIf_regs (t : Bool) (imm : BitVec 12) (s : State) : (jumpIf t imm s).regs = s.regs := by
  unfold jumpIf; split <;> rfl

@[simp] theorem jumpIf_ip (t : Bool) (imm : BitVec 12) (s : State) :
    (jumpIf t imm s).ip = if t then s.relTarget imm else truncX s.cfg (s.ip + 4) := by
  unfold jumpIf; split <;> rfl

@[simp] theorem jumpIf_csr (t : Bool) (imm : BitVec 12) (s : State) : (jumpIf t imm s).csr = s.csr := by
  unfold jumpIf; split <;> rfl

@[simp] theorem jumpIf_link (t : Bool) (imm : BitVec 12) (s : State) : (jumpIf t imm s).link = s.link := by
  unfold jumpIf; split <;> rfl

@[simp] theorem jumpIf_mem (t : Bool) (imm : BitVec 12) (s : State) : (jumpIf t imm s).mem = s.mem := by
  unfold jumpIf; split <;> rfl

@[simp] theorem jumpIf_stored (t : Bool) (imm : BitVec 12) (s : State) : (jumpIf t imm s).stored = s.stored := by
  unfold jumpIf; split <;> rfl

@[simp] theorem jumpIf_pending (t : Bool) (imm : BitVec 12) (s : State) : (jumpIf t imm s).pending = s.pending := by
  unfold jumpIf; split <;> rfl

@[simp] theorem jumpIf_inputs (t : Bool) (imm : BitVec 12) (s : State) : (jumpIf t imm s).inputs = s.inputs := by
  unfold jumpIf; split <;> rfl

@[simp] theorem jumpIf_ports (t : Bool) (imm : BitVec 12) (s : State) : (jumpIf t imm s).ports = s.ports := by
  unfold jumpIf; split <;> rfl

/-! ## The register file -/

@[simp] theorem State.readReg_zero (s : State) : s.readReg 0 = 0 := rfl

/-- Two states with the same register file read the same registers. -/
theorem State.readReg_congr {s t : State} (h : t.regs = s.regs) (r : Reg) : t.readReg r = s.readReg r := by
  simp [State.readReg, h]

/-- A read after a register write: the low `XLEN` bits of the value in a register that is not r0. -/
theorem State.readReg_writeReg (s : State) (d r : Reg) (v : Word) :
    (s.writeReg d v).readReg r = if r = d ∧ d ≠ 0 then truncX s.cfg v else s.readReg r := by
  unfold State.writeReg
  by_cases hd : d = 0
  · simp [hd]
  · rw [if_neg hd]
    unfold State.readReg
    have hd' : d.toNat ≠ 0 := fun h => hd (BitVec.eq_of_toNat_eq h)
    have hdl : d.toNat < 32 := d.isLt
    by_cases hr : r = 0
    · rw [if_pos hr, if_pos hr, if_neg (fun h => hd (h.1.symm.trans hr))]
    · have hr' : r.toNat ≠ 0 := fun h => hr (BitVec.eq_of_toNat_eq h)
      have hrl : r.toNat < 32 := r.isLt
      by_cases h : r = d
      · subst h
        rw [if_neg hr, if_pos ⟨rfl, hr⟩]
        simp [Vector.getD, show r.toNat - 1 < 31 by omega]
      · rw [if_neg hr, if_neg hr, if_neg (fun e => h e.1)]
        have hne : r.toNat ≠ d.toNat := fun e => h (BitVec.eq_of_toNat_eq e)
        have hne1 : d.toNat - 1 ≠ r.toNat - 1 := by omega
        simp [Vector.getD, hne1]

@[simp] theorem State.readReg_advance (s : State) (r : Reg) : s.advance.readReg r = s.readReg r := rfl

/-- A read after a register result. -/
theorem State.readReg_setReg (s : State) (d r : Reg) (v : Word) :
    (s.setReg d v).readReg r = if r = d ∧ d ≠ 0 then truncX s.cfg v else s.readReg r := by
  rw [← State.readReg_writeReg]; rfl

@[simp] theorem State.readReg_poke (s : State) (a : Word) (sz : Size) (v : Word) (r : Reg) :
    (s.poke a sz v).readReg r = s.readReg r := rfl

@[simp] theorem State.readReg_memWrite (s : State) (a : Word) (sz : Size) (v : Word) (r : Reg) :
    (s.memWrite a sz v).readReg r = s.readReg r := rfl

@[simp] theorem State.readReg_setPriv (s : State) (p : BitVec 2) (r : Reg) : (s.setPriv p).readReg r = s.readReg r := rfl

@[simp] theorem State.readReg_enterKernel (s : State) (c : Word) (r : Reg) :
    (s.enterKernel c).readReg r = s.readReg r := rfl

@[simp] theorem State.readReg_enterMachine (s : State) (c : Word) (r : Reg) :
    (s.enterMachine c).readReg r = s.readReg r := rfl

/-! ## The privilege mode -/

@[simp] theorem privBits_withPriv (m : Word) (p : BitVec 2) : privBits (withPriv m p) = p := by
  apply BitVec.eq_of_getLsbD_eq
  intro i hi
  rcases (show i = 0 ∨ i = 1 by omega) with rfl | rfl <;>
    simp [privBits, withPriv]

@[simp] theorem State.priv_setPriv (s : State) (p : BitVec 2) : (s.setPriv p).priv = p := by
  simp [State.priv]

@[simp] theorem State.priv_enterKernel (s : State) (c : Word) : (s.enterKernel c).priv = 1 := by
  simp [State.priv, State.enterKernel]

@[simp] theorem State.priv_enterMachine (s : State) (c : Word) : (s.enterMachine c).priv = 3 := by
  simp [State.priv, State.enterMachine]

/-- Every bit of mstatus but bits 2:1 is kept when the mode changes. -/
theorem withPriv_getLsbD (m : Word) (p : BitVec 2) (i : Nat) :
    (withPriv m p).getLsbD i = if i = 1 then p.getLsbD 0 else if i = 2 then p.getLsbD 1 else m.getLsbD i := by
  by_cases h : i < 64
  · unfold withPriv
    rcases (show i = 0 ∨ i = 1 ∨ i = 2 ∨ 3 ≤ i by omega) with rfl | rfl | rfl | h3
    · simp
    · simp
    · simp
    · rw [if_neg (by omega), if_neg (by omega)]
      have h6 : (6#64).getLsbD i = false := by
        have : 2 ^ 3 ≤ 2 ^ i := Nat.pow_le_pow_right (by omega) h3
        rw [BitVec.getLsbD_ofNat, Nat.testBit_lt_two_pow (by omega)]; simp
      have hp : p.getLsbD (i - 1) = false := BitVec.getLsbD_of_ge _ _ (by omega)
      rw [BitVec.getLsbD_or, BitVec.getLsbD_and, BitVec.getLsbD_not, h6, BitVec.getLsbD_shiftLeft,
        BitVec.getLsbD_setWidth, hp]
      simp [h]
  · rw [BitVec.getLsbD_of_ge _ _ (by omega), if_neg (by omega), if_neg (by omega), BitVec.getLsbD_of_ge _ _ (by omega)]

end Sys2Proof.Machine
end

