-- ==== Sys2Proof/Laws/Ops.lean ====
section
/-! SUPPORT. For each shared operation one lemma that says once everything it can do when it answers a next state, and the
facts its callers need. -/

namespace Sys2Proof.Machine

/-! ## Registers and arithmetic -/

theorem State.setReg_congr {s t : State} {d r : Reg} {v : Word} (h : t = s.setReg d v) :
    t.readReg r = if r = d ∧ d ≠ 0 then truncX s.cfg v else s.readReg r := h ▸ s.readReg_setReg d r v

theorem arith32_eq (op : BitVec 32 → BitVec 32 → BitVec 32) (rd rs1 : Reg) (b : BitVec 32) (s : State) :
    arith32 op rd rs1 b s = s.setReg rd (sextX s.cfg (op (low32 (s.readReg rs1)) b)) := rfl

theorem arith64_eq (op : Word → Word → Word) (rd rs1 : Reg) (b : Word) (s : State) :
    arith64 op rd rs1 b s = s.setReg rd (op (s.readReg rs1) b) := rfl

/-! ## Memory -/

/-- Backed addresses, one by one. -/
theorem backedRange_iff (mm : List Region) (a n : Nat) :
    backedRange mm a n = true ↔ ∀ b, a ≤ b → b < a + n → backed mm b = true := by
  induction n generalizing a with
  | zero => simp only [backedRange, true_iff]; omega
  | succ n ih =>
    simp only [backedRange, Bool.and_eq_true, ih]
    constructor
    · rintro ⟨h1, h2⟩ b hb hb'
      by_cases h : b = a
      · exact h ▸ h1
      · exact h2 b (by omega) (by omega)
    · exact fun h => ⟨h a (by omega) (by omega), fun b hb hb' => h b (by omega) (by omega)⟩

/-- A byte after `MemWrite`: byte `i` of the value inside, the old byte outside. -/
theorem State.memWrite_read (s : State) (a : Word) (sz : Size) (v : Word) (b : Nat) :
    (s.memWrite a sz v).mem.read b =
      if a.toNat ≤ b ∧ b < a.toNat + sz.bytes then (v >>> (8 * (b - a.toNat))).setWidth 8 else s.mem.read b := by
  simp [Memory.read_writeLE]

/-- When a write breaks a link: it meets the watched bytes. -/
theorem breakLink_eq_none_iff (g : LinkGranule) (l : Link) (a n : Nat) :
    breakLink g (some l) a n = none ↔ a < l.watchEnd g ∧ l.watchStart g < a + n := by
  have h : l.watches g a n = true ↔ a < l.watchEnd g ∧ l.watchStart g < a + n := by
    rw [Link.watches, Bool.and_eq_true, decide_eq_true_eq, decide_eq_true_eq]
  rw [← h, breakLink]
  cases l.watches g a n <;> simp

/-- A write leaves a link as it is or breaks it. -/
theorem breakLink_cases (g : LinkGranule) (link : Option Link) (a n : Nat) :
    breakLink g link a n = none ∨ breakLink g link a n = link := by
  unfold breakLink
  split
  · exact .inl rfl
  · split
    · exact .inl rfl
    · exact .inr rfl

theorem loadInto_next {sz : Size} {sg : Bool} {rd rs1 : Reg} {imm : BitVec 12} {s t : State}
    (h : loadInto sz sg rd rs1 imm s = .next t) :
    s.accessible (alignTo sz (s.effAddr rs1 imm)) sz = true ∧
      t = s.setReg rd (widen s.cfg sz sg (s.memRead (alignTo sz (s.effAddr rs1 imm)) sz)) := by
  simp only [loadInto] at h
  split at h
  · exact ⟨by assumption, by simpa using h.symm⟩
  · cases h

theorem storeFrom_next {sz : Size} {rs1 rs2 : Reg} {imm : BitVec 12} {s t : State}
    (h : storeFrom sz rs1 rs2 imm s = .next t) :
    s.accessible (alignTo sz (s.effAddr rs1 imm)) sz = true ∧
      t = (s.memWrite (alignTo sz (s.effAddr rs1 imm)) sz (s.readReg rs2)).advance := by
  simp only [storeFrom] at h
  split at h
  · exact ⟨by assumption, by simpa using h.symm⟩
  · cases h

/-! ## Atomics -/

theorem loadLink_next {sz : Size} {sg : Bool} {rd rs1 : Reg} {s t : State} (h : loadLink sz sg rd rs1 s = .next t) :
    s.accessible (s.atomAddr sz rs1) sz = true ∧
      t = { s.setReg rd (widen s.cfg sz sg (s.memRead (s.atomAddr sz rs1) sz)) with
            link := some ⟨s.atomAddr sz rs1, sz⟩ } := by
  simp only [loadLink] at h
  split at h
  · exact ⟨by assumption, by simpa using h.symm⟩
  · cases h

theorem storeConditional_next {sz : Size} {rd rs1 rs2 : Reg} {s t : State}
    (h : storeConditional sz rd rs1 rs2 s = .next t) :
    (s.link = some ⟨s.atomAddr sz rs1, sz⟩ ∧ s.accessible (s.atomAddr sz rs1) sz = true ∧
        t = (s.memWrite (s.atomAddr sz rs1) sz (s.readReg rs2)).setReg rd 1) ∨
      (s.link ≠ some ⟨s.atomAddr sz rs1, sz⟩ ∧
        (∀ l, s.link = some l → overlap (s.atomAddr sz rs1).toNat sz.bytes l.addr.toNat l.size.bytes = false) ∧
        t = s.setReg rd 0) := by
  simp only [storeConditional] at h
  split at h
  · rename_i hl
    exact .inr ⟨by simp [hl], by simp [hl], by simpa using h.symm⟩
  · rename_i l hl
    split at h
    · split at h
      · rename_i h1 h2
        exact .inl ⟨by rw [hl, h1], h2, by simpa using h.symm⟩
      · cases h
    · split at h
      · cases h
      · rename_i h1 h2
        refine .inr ⟨fun e => h1 ?_, fun l' e => ?_, by simpa using h.symm⟩
        · rw [hl] at e; exact Option.some.inj e
        · rw [hl] at e; cases e; simpa using h2

theorem compareExchange_next {sz : Size} {rd rs1 rs2 : Reg} {s t : State}
    (h : compareExchange sz rd rs1 rs2 s = .next t) :
    s.accessible (s.atomAddr sz rs1) sz = true ∧
      t = (if lowBytes sz (s.readReg rd) = s.memRead (s.atomAddr sz rs1) sz
            then s.memWrite (s.atomAddr sz rs1) sz (s.readReg rs2) else s).setReg rd
          (widen s.cfg sz false (s.memRead (s.atomAddr sz rs1) sz)) := by
  simp only [compareExchange] at h
  split at h
  · exact ⟨by assumption, by simpa using h.symm⟩
  · cases h

theorem exchangeOperate_next {op : Word → Word → Word} {sz : Size} {sg : Bool} {rd rs1 rs2 : Reg} {s t : State}
    (h : exchangeOperate op sz sg rd rs1 rs2 s = .next t) :
    s.accessible (s.atomAddr sz rs1) sz = true ∧
      t = (s.memWrite (s.atomAddr sz rs1) sz (s.readReg rd)).setReg rd
        (op (widen s.cfg sz sg (s.memRead (s.atomAddr sz rs1) sz)) (s.readReg rs2)) := by
  simp only [exchangeOperate] at h
  split at h
  · exact ⟨by assumption, by simpa using h.symm⟩
  · cases h

/-! ## CSRs, traps, privilege -/

theorem csrRead_next {rd : Reg} {n : BitVec 12} {s t : State} (h : csrRead rd n s = .next t) :
    ∃ v, s.csr.read? n = some v ∧ t = s.setReg rd (if s.csrAllowed n then v else 0) := by
  simp only [csrRead] at h
  split at h
  · cases h
  · exact ⟨_, by assumption, by simpa using h.symm⟩

theorem csrModify_next {f : Word → Word} {n : BitVec 12} {s t : State} (h : csrModify f n s = .next t) :
    ∃ v, s.csr.read? n = some v ∧
      ((s.csrAllowed n = true ∧ (n = 0 → privBits (f v) ≠ 2) ∧
          t = { s with csr := s.csr.write n (truncX s.cfg (f v)) }.advance) ∨
        (s.csrAllowed n = false ∧ t = s.advance)) := by
  simp only [csrModify] at h
  split at h
  · cases h
  · rename_i v hv
    refine ⟨v, hv, ?_⟩
    split at h
    · split at h
      · cases h
      · rename_i h1 h2
        exact .inl ⟨h1, fun hn hp => h2 ⟨hn, hp⟩, by simpa using h.symm⟩
    · rename_i h1
      exact .inr ⟨by simpa using h1, by simpa using h.symm⟩

theorem takeTrap_next {cause : Word} {s t : State} (h : takeTrap cause s = .next t) :
    (s.priv = 0 ∧ t = s.enterKernel cause) ∨ ((s.priv = 1 ∨ s.priv = 3) ∧ t = s.enterMachine cause) := by
  simp only [takeTrap] at h
  split at h
  · exact .inl ⟨by assumption, by simpa using h.symm⟩
  · split at h
    · cases h
    · rename_i h0 h2
      refine .inr ⟨?_, by simpa using h.symm⟩
      revert h0 h2
      generalize s.priv = p
      revert p
      decide

theorem returnFromTrap_next {target saved : Word} {s t : State} (h : returnFromTrap target saved s = .next t) :
    saved.extractLsb' 0 2 ≠ 2 ∧ t = { s.setPriv (saved.extractLsb' 0 2) with ip := target } := by
  simp only [returnFromTrap] at h
  split at h
  · cases h
  · exact ⟨by assumption, by simpa using h.symm⟩

theorem privViolation_next {s t : State} (h : privViolation s = .next t) :
    (s.cfg.privViolation = .ignore ∧ t = s.advance) ∨
      ∃ c, s.cfg.privViolation = .trap c ∧ takeTrap c s = .next t := by
  simp only [privViolation] at h
  split at h
  · cases h
  · exact .inl ⟨by assumption, by simpa using h.symm⟩
  · exact .inr ⟨_, by assumption, h⟩

theorem privileged_next {need : BitVec 2} {body : State → Result} {s t : State}
    (h : privileged need body s = .next t) :
    (need ≤ s.priv ∧ body s = .next t) ∨ (¬ need ≤ s.priv ∧ privViolation s = .next t) := by
  simp only [privileged] at h
  split at h
  · exact .inl ⟨by assumption, h⟩
  · exact .inr ⟨by assumption, h⟩

/-! ## Ports -/

theorem portIn_eq (sz : Size) (sg : Bool) (rd rs1 : Reg) (s : State) :
    portIn sz sg rd rs1 s =
      .next { s.setReg rd (widen s.cfg sz sg ((s.portDatum (alignTo sz (s.readReg rs1)) sz).setWidth 64)) with
              ports := s.ports.afterRead } := rfl

theorem portOut_eq (sz : Size) (rs1 rs2 : Reg) (s : State) :
    portOut sz rs1 rs2 s =
      .next { s.advance with
        ports := { s.ports with
          log := s.ports.log ++ [⟨alignTo sz (s.readReg rs1), sz, lowBytes sz (s.readReg rs2)⟩] } } := rfl

/-! ## What comes from outside -/

/-- What a request is: its ID has `XLEN` bits and is above 0x4. -/
theorem requestOf_eq_some {c : Config} {irq : Option Word} {id : Word} (h : requestOf c irq = some id) :
    truncX c id = id ∧ 4 < id.toNat := by
  unfold requestOf at h
  split at h
  · cases h
  · split at h
    · cases h
      exact ⟨truncX_truncX _ _, by assumption⟩
    · cases h

/-- A legal ID in the input list is a request. -/
theorem requestOf_some {c : Config} {id : Word} (h : 4 < (truncX c id).toNat) :
    requestOf c (some id) = some (truncX c id) := if_pos h

/-- Sampling changes the queue alone; what it takes was waiting and is permitted. -/
theorem sampleIrq_spec (irq : Option Word) (s : State) :
    (∃ p, (sampleIrq irq s).2 = { s with pending := p }) ∧
      ∀ c, (sampleIrq irq s).1 = some c →
        s.cfg.extS = true ∧ s.irqPermitted = true ∧ c ∈ waiting s.cfg.maskedIrq s.pending (requestOf s.cfg irq) := by
  unfold sampleIrq
  split
  · dsimp only
    split
    · exact ⟨⟨s.pending, rfl⟩, by simp⟩
    · rename_i hc
      split
      · rename_i hp
        refine ⟨?_, ?_⟩
        · split
          · exact ⟨s.pending, rfl⟩
          · exact ⟨_, rfl⟩
        · intro c h
          cases h
          exact ⟨by assumption, hp, List.mem_of_getElem? hc⟩
      · exact ⟨⟨_, rfl⟩, by simp⟩
  · exact ⟨⟨s.pending, rfl⟩, by simp⟩

/-- With nothing waiting, sampling takes nothing and changes nothing. -/
theorem sampleIrq_nothing (s : State) (h : s.pending = []) : sampleIrq none s = (none, s) := by
  unfold sampleIrq
  split
  · have : waiting s.cfg.maskedIrq s.pending (requestOf s.cfg none) = [] := by
      unfold waiting requestOf; split <;> simp [h]
    simp [this]
  · rfl

/-- An external write is a poke or nothing. -/
theorem externalWrite_cases (s : State) (w : ExtWrite) :
    (s.accessible (alignTo w.size (truncX s.cfg w.addr)) w.size = true ∧
        externalWrite s w = s.poke (alignTo w.size (truncX s.cfg w.addr)) w.size w.value) ∨
      externalWrite s w = s := by
  unfold externalWrite
  dsimp only
  split
  · exact .inl ⟨by assumption, rfl⟩
  · exact .inr rfl

/-- An external write changes memory and the link alone. -/
theorem externalWrite_eq (s : State) (w : ExtWrite) :
    externalWrite s w = { s with mem := (externalWrite s w).mem, link := (externalWrite s w).link } := by
  rcases externalWrite_cases s w with ⟨-, h⟩ | h
  · rw [h]; rfl
  · rw [h]

/-- Receiving a step's input changes memory, the link and the list of inputs alone. -/
theorem takeInput_eq (s : State) :
    (takeInput s).2 = { s with
      mem := (takeInput s).2.mem
      link := (takeInput s).2.link
      inputs := (takeInput s).2.inputs } := by
  have key : ∀ (ws : List ExtWrite) (u : State),
      ws.foldl externalWrite u = { u with
        mem := (ws.foldl externalWrite u).mem
        link := (ws.foldl externalWrite u).link } := by
    intro ws
    induction ws with
    | nil => exact fun _ => rfl
    | cons w ws ih =>
      intro u
      rw [List.foldl_cons, ih, externalWrite_eq]
  unfold takeInput
  split
  · rfl
  · dsimp only
    rw [key]

/-- With no input held ready, a step receives nothing. -/
theorem takeInput_nothing (s : State) (h : s.inputs = []) : takeInput s = (none, s) := by
  simp [takeInput, h]

end Sys2Proof.Machine
end

