-- ==== Sys2Proof/Laws/Frame.lean ====
section
/-! SUPPORT. The predicates of Safety.lean for the updates that the shared operations make: the widened datum, the frame of a
register result and of a store. -/

namespace Sys2Proof.Machine

theorem truncX_setWidth (c : Config) {w : Nat} (v : BitVec w) (h : w ≤ 32) :
    truncX c (v.setWidth 64) = v.setWidth 64 := by
  apply BitVec.eq_of_toNat_eq
  have hv := v.isLt
  have hw : 2 ^ w ≤ 2 ^ 32 := Nat.pow_le_pow_right (by omega) h
  rw [truncX_toNat, Nat.mod_eq_of_lt]
  rw [BitVec.toNat_setWidth, Nat.mod_eq_of_lt (by omega)]
  unfold Config.xlen
  split <;> omega

/-! ## Little-endian data as the spec's concatenations (20_memory.md R60 to R62) -/

theorem Memory.readLE_getLsbD (m : Memory) (a n k : Nat) (h : n ≤ 8) :
    (m.readLE a n).getLsbD k = (decide (k < 8 * n) && (m.read (a + k / 8)).getLsbD (k % 8)) := by
  induction n generalizing a k with
  | zero => simp [Memory.readLE]
  | succ n ih =>
    simp only [Memory.readLE, BitVec.getLsbD_or, BitVec.getLsbD_shiftLeft, BitVec.getLsbD_setWidth]
    by_cases hk : k < 8
    · simp [hk, show k / 8 = 0 by omega, show k % 8 = k by omega, show k < 64 by omega, show k < 8 * (n + 1) by omega]
    · rw [ih (a + 1) (k - 8) (by omega), BitVec.getLsbD_of_ge (m.read a) k (by omega),
        show (k - 8) % 8 = k % 8 by omega, show a + 1 + (k - 8) / 8 = a + k / 8 by omega]
      by_cases h2 : k < 8 * (n + 1)
      · simp [hk, h2, show k < 64 by omega, show k - 8 < 8 * n by omega]
      · simp [h2, show ¬ k - 8 < 8 * n by omega]

theorem Memory.readLE_one (m : Memory) (a : Nat) : m.readLE a 1 = (byteAt m a).setWidth 64 := by
  apply BitVec.eq_of_getLsbD_eq
  intro k hk
  rw [Memory.readLE_getLsbD m a 1 k (by omega), BitVec.getLsbD_setWidth]
  by_cases h : k < 8
  · simp [h, hk, byteAt, show k / 8 = 0 by omega, show k % 8 = k by omega]
  · simp [h, byteAt, BitVec.getLsbD_of_ge (m.read a) k (by omega)]

theorem Memory.readLE_two (m : Memory) (a : Nat) : m.readLE a 2 = (wordAt m a).setWidth 64 := by
  apply BitVec.eq_of_getLsbD_eq
  intro k hk
  rw [Memory.readLE_getLsbD m a 2 k (by omega), BitVec.getLsbD_setWidth, wordAt, BitVec.getLsbD_append]
  rcases (show k / 8 = 0 ∨ k / 8 = 1 ∨ 16 ≤ k by omega) with h | h | h
  · simp [h, hk, show k % 8 = k by omega, show k < 8 by omega, show k < 16 by omega]
  · simp [h, hk, show k % 8 = k - 8 by omega, show ¬ k < 8 by omega, show k < 16 by omega]
  · simp [show ¬ k < 8 by omega, show ¬ k < 16 by omega, BitVec.getLsbD_of_ge (m.read (a + 1)) (k - 8) (by omega)]

theorem dwordAt_getLsbD (m : Memory) (a k : Nat) :
    (dwordAt m a).getLsbD k = (decide (k < 32) && (m.read (a + k / 8)).getLsbD (k % 8)) := by
  rw [dwordAt, BitVec.getLsbD_append, BitVec.getLsbD_append, BitVec.getLsbD_append]
  rcases (show k / 8 = 0 ∨ k / 8 = 1 ∨ k / 8 = 2 ∨ k / 8 = 3 ∨ 32 ≤ k by omega) with h | h | h | h | h
  · simp [h, show k % 8 = k by omega, show k < 8 by omega, show k < 32 by omega]
  · simp [h, show k % 8 = k - 8 by omega, show ¬ k < 8 by omega, show k - 8 < 8 by omega, show k < 32 by omega]
  · simp [h, show k % 8 = k - 8 - 8 by omega, show ¬ k < 8 by omega, show ¬ k - 8 < 8 by omega,
      show k - 8 - 8 < 8 by omega, show k < 32 by omega]
  · simp [h, show k % 8 = k - 8 - 8 - 8 by omega, show ¬ k < 8 by omega, show ¬ k - 8 < 8 by omega,
      show ¬ k - 8 - 8 < 8 by omega, show k < 32 by omega]
  · simp [show ¬ k < 8 by omega, show ¬ k - 8 < 8 by omega, show ¬ k - 8 - 8 < 8 by omega, show ¬ k < 32 by omega,
      BitVec.getLsbD_of_ge (m.read (a + 3)) (k - 8 - 8 - 8) (by omega)]

theorem Memory.readLE_four (m : Memory) (a : Nat) : m.readLE a 4 = (dwordAt m a).setWidth 64 := by
  apply BitVec.eq_of_getLsbD_eq
  intro k hk
  rw [Memory.readLE_getLsbD m a 4 k (by omega), BitVec.getLsbD_setWidth, dwordAt_getLsbD]
  simp [hk]

theorem Memory.readLE_eight (m : Memory) (a : Nat) : m.readLE a 8 = qwordAt m a := by
  apply BitVec.eq_of_getLsbD_eq
  intro k hk
  rw [Memory.readLE_getLsbD m a 8 k (by omega), qwordAt, BitVec.getLsbD_append, dwordAt_getLsbD, dwordAt_getLsbD]
  by_cases h : k < 32
  · simp [h, hk]
  · simp [h, hk, show k - 32 < 32 by omega, show (k - 32) % 8 = k % 8 by omega,
      show a + 4 + (k - 32) / 8 = a + k / 8 by omega]

/-- What a load or an atomic access reads, widened, is the datum of the spec's concatenation. -/
theorem widen_readLE (c : Config) (m : Memory) (a : Nat) (sz : Size) (sg : Bool) :
    widen c sz sg (m.readLE a sz.bytes) = datumAt c m a sz sg := by
  cases sz <;> cases sg <;>
    simp [widen, datumAt, Size.bytes, Memory.readLE_one, Memory.readLE_two, Memory.readLE_four, Memory.readLE_eight,
      lowBytes, signBytes, truncX_setWidth, sextX]

/-! ## Frames -/

/-- The frame of an instruction that ends in a register result. -/
theorem givesReg_of_setReg {i : Instr} {s : State} {rd : Reg} {v w : Word}
    (h : exec i s = .next (s.setReg rd w)) (hv : truncX s.cfg w = v) : givesReg i s rd v := by
  refine ⟨_, h, fun r => ?_, ?_, ?_, ?_, ?_, ?_⟩
  · rw [State.readReg_setReg, hv]
  · simp [memKept]
  · simp
  · simp [systemKept]
  · simp [outsideKept]
  · simp [advanced, State.setReg]

/-- What `MemWrite` does to memory, the stored addresses and the link. -/
theorem memStored_of_memWrite {s t : State} {a : Word} {sz : Size} {v : Word} (h1 : t.mem = (s.memWrite a sz v).mem)
    (h2 : t.stored = (s.memWrite a sz v).stored) (h3 : t.link = (s.memWrite a sz v).link) :
    memStored s t a.toNat sz.bytes v := by
  refine ⟨fun k hk => ?_, fun b hb => ?_, fun b => ?_, ?_⟩
  · rw [h1, State.memWrite_read, if_pos ⟨by omega, by omega⟩]
    simp only [Nat.add_sub_cancel_left]
    apply BitVec.eq_of_getLsbD_eq
    intro i hi
    simp [hi]
  · rw [h1, State.memWrite_read, if_neg (by omega)]
  · rw [h2]; simp [State.memWrite, Stored.mem_insertRange]
  · rw [h3]; rfl

/-- The frame of an instruction that stores and ends in a register result. -/
theorem givesRegAndStore_of_setReg {i : Instr} {s : State} {rd : Reg} {a : Word} {sz : Size} {v w x : Word}
    (h : exec i s = .next ((s.memWrite a sz x).setReg rd w)) (hv : truncX s.cfg w = v) :
    givesRegAndStore i s rd v a.toNat sz.bytes x := by
  refine ⟨_, h, fun r => ?_, memStored_of_memWrite (by simp) (by simp) (by simp), ?_, ?_, ?_⟩
  · rw [State.readReg_setReg, ← hv]; simp
  · simp [systemKept]
  · simp [outsideKept]
  · simp [advanced]

end Sys2Proof.Machine
end

