-- ==== Sys2Proof/Tests/Slice0.lean ====
section
/-! SUPPORT. Our own tests: the checks of WellFormed, words written out in the spec, one step of each instruction,
  the stops,
and for each statement with hypotheses a state that meets them. Expected values: `95_test_vectors.md` where a row
  exists,
else calculated by hand from the rule. -/

namespace Sys2Proof.Tests

open Sys2Proof Sys2Proof.Machine

/-! ## The configurations and small states -/

/-- SRM32SMA with the spec's defaults. -/
def cfg32 : Config := { Config.default with is64 := false }
/-- SRM32H: no S, M, A, and 16 registers. -/
def cfg32H : Config := { Config.default with is64 := false, extS := false, extM := false, extA := false, extH := true
  }
/-- SRM64SMA where only the addresses 0x1000 to 0x100F are backed. -/
def cfgHole : Config := { Config.default with memMap := [⟨0x1000, 16, []⟩] }

def ip (v : Word) (s : State) : State := { s with ip := v }
def reg (r : Reg) (v : Word) (s : State) : State := s.writeReg r v
def mode (p : BitVec 2) (s : State) : State := s.setPriv p
def csr (n : BitVec 12) (v : Word) (s : State) : State := { s with csr := s.csr.write n v }
def mem (a : Nat) (bs : List Byte) (s : State) : State := { s with mem := s.mem.load a bs }
def linked (l : Option Link) (s : State) : State := { s with link := l }
def supplied (l : List (BitVec 32)) (s : State) : State := { s with ports := { s.ports with stream := l } }
def wrote (l : List PortWrite) (s : State) : State := { s with ports := { s.ports with log := l } }
def conf (c : Config) (s : State) : State := { s with cfg := c }
def input (l : List StepInput) (s : State) : State := { s with inputs := l }
def waitingIrq (l : List Word) (s : State) : State := { s with pending := l }

def at32 : State := State.resetOf cfg32 |> ip 0x100
def at64 : State := State.resetOf Config.default |> ip 0x100

/-- The state a result answers. -/
def nextOf : Result → Option State
  | .next t => some t
  | .fault _ => none
  | .refused _ => none

/-- One instruction takes `s` to `f s`; which addresses a store marks is not compared. -/
def gives (s : State) (i : Instr) (f : State → State) : Bool :=
  match exec i s with
  | .next t => { t with stored := [] } = f s
  | .fault _ => false
  | .refused _ => false

/-- A word of the spec is the instruction, both ways. -/
def word (w : BitVec 32) (i : Instr) : Bool := decodeWord w = some i ∧ encode i = w

/-! ## WellFormed: an ill-formed term for each check -/

theorem test_wellFormed_add : WellFormed Config.default (.add 31 14 15) = true := by decide
theorem test_illFormed_absent_multiply : WellFormed cfg32H (.mul 13 14 15) = false := by decide
theorem test_illFormed_qword_on_srm32 : WellFormed cfg32 (.addQ 13 14 15) = false := by decide
theorem test_illFormed_r16_under_H : WellFormed cfg32H (.add 13 14 16) = false := by decide
theorem test_wellFormed_r15_under_H : WellFormed cfg32H (.add 13 14 15) = true := by decide
theorem test_illFormed_fence_of_nothing : WellFormed Config.default (.fence 0) = false := by decide

/-! ## Decoding: a word of the spec for every constructor -/

theorem test_words_base_arithmetic :
    [word 0x00F07340 (.add 13 14 15), word 0x00F17340 (.sub 13 14 15), word 0x00F27340 (.and 13 14 15),
      word 0x00F37340 (.or 13 14 15), word 0x00F47340 (.xor 13 14 15), word 0x00F57340 (.shr 13 14 15),
      word 0x00F67340 (.asr 13 14 15), word 0x00F77340 (.shl 13 14 15), word 0x00F87340 (.cch 13 14 15),
      word 0x00F97340 (.bch 13 14 15), word 0x00FA7340 (.slt 13 14 15), word 0x00507341 (.addi 13 14 5),
      word 0x0FF27341 (.andi 13 14 255), word 0x01037341 (.ori 13 14 16), word 0xFFF47341 (.xori 13 14 (-1)),
      word 0x00457341 (.shri 13 14 4), word 0x00467341 (.asri 13 14 4), word 0x00277341 (.shli 13 14 2),
      word 0xFFF87341 (.cchi 13 14 (-1)), word 0x00197341 (.bchi 13 14 1), word 0xFFBA7341 (.slti 13 14 (-5))].all id
        = true := by decide

theorem test_words_base_memory_and_jumps :
    [word 0x091A2B42 (.lui 13 74565), word 0x06E06803 (.stb 13 14 3), word 0xFCE16FC3 (.stw 13 14 (-2)),
      word 0xF8E26803 (.std 13 14 124), word 0x00007344 (.ldb 13 14 0), word 0x00047344 (.ldsb 13 14 0),
      word 0x00216B84 (.ldw 14 13 2), word 0x00256B84 (.ldsw 14 13 2), word 0x00026B84 (.ldd 14 13 0),
      word 0x00080105 (.jal 4 256), word 0x00002006 (.jalr 0 4 0), word 0xF0E06FC7 (.jeq 13 14 (-8)),
      word 0x18E16807 (.jlt 13 14 12), word 0x18E26807 (.jslt 13 14 12), word 0xE8046FC7 (.jne 13 0 (-12)),
      word 0x40F57007 (.jge 14 15 32), word 0x40F67007 (.jsge 14 15 32)].all id = true := by decide

theorem test_words_system :
    [word 0x00000008 (.syscall), word 0x02000008 (.sysbreak), word 0x06010008 (.mret),
      word 0x02010008 (.sysret), word 0x80320348 (.csrr 13 0x803), word 0x00136808 (.csrw 13 0x1),
      word 0x00040008 (.csrs 0x0 0), word 0x80050008 (.csrc 0x800 0), word 0x00980008 (.fence 9),
      word 0x00067348 (.inb 13 14), word 0x02067348 (.inw 13 14), word 0x04067348 (.ind 13 14),
      word 0x08067348 (.insb 13 14), word 0x0A067348 (.insw 13 14), word 0x00D77008 (.outb 14 13),
      word 0x02D77008 (.outw 14 13), word 0x04D77008 (.outd 14 13)].all id = true := by decide

theorem test_words_multiply_divide :
    [word 0x02F07340 (.mul 13 14 15), word 0x02F27340 (.mulh 13 14 15), word 0x02F37340 (.smulh 13 14 15),
      word 0x02F47340 (.div 13 14 15), word 0x02F57340 (.sdiv 13 14 15), word 0x02F67340 (.mod 13 14 15),
      word 0x02F77340 (.smod 13 14 15)].all id = true := by decide

theorem test_words_atomic_a :
    [word 0x00007349 (.llB 13 14), word 0x00017349 (.llW 13 14), word 0x00027349 (.llD 13 14),
      word 0x00047349 (.llSb 13 14), word 0x00057349 (.llSw 13 14), word 0x02F07349 (.scB 13 14 15),
      word 0x02F17349 (.scW 13 14 15), word 0x02F27349 (.scD 13 14 15), word 0x04F07349 (.acmpxchgB 13 14 15),
      word 0x04F17349 (.acmpxchgW 13 14 15), word 0x04F27349 (.acmpxchgD 13 14 15), word 0x06F07349 (.axaddB 13 14
        15),
      word 0x06F17349 (.axaddW 13 14 15), word 0x06F27349 (.axaddD 13 14 15), word 0x06F47349 (.axaddSb 13 14 15),
      word 0x06F57349 (.axaddSw 13 14 15), word 0x08F07349 (.axsubB 13 14 15), word 0x08F17349 (.axsubW 13 14 15),
      word 0x08F27349 (.axsubD 13 14 15), word 0x08F47349 (.axsubSb 13 14 15), word 0x08F57349 (.axsubSw 13 14 15),
      word 0x0AF07349 (.axandB 13 14 15), word 0x0AF17349 (.axandW 13 14 15), word 0x0AF27349 (.axandD 13 14 15)].all
        id = true := by decide

theorem test_words_atomic_b :
    [word 0x0AF47349 (.axandSb 13 14 15), word 0x0AF57349 (.axandSw 13 14 15), word 0x0CF07349 (.axiorB 13 14 15),
      word 0x0CF17349 (.axiorW 13 14 15), word 0x0CF27349 (.axiorD 13 14 15), word 0x0CF47349 (.axiorSb 13 14 15),
      word 0x0CF57349 (.axiorSw 13 14 15), word 0x0EF07349 (.axxorB 13 14 15), word 0x0EF17349 (.axxorW 13 14 15),
      word 0x0EF27349 (.axxorD 13 14 15), word 0x0EF47349 (.axxorSb 13 14 15), word 0x0EF57349 (.axxorSw 13 14 15),
      word 0x10F07349 (.axmaxB 13 14 15), word 0x10F17349 (.axmaxW 13 14 15), word 0x10F27349 (.axmaxD 13 14 15),
      word 0x10F47349 (.axmaxSb 13 14 15), word 0x10F57349 (.axmaxSw 13 14 15), word 0x12F07349 (.axminB 13 14 15),
      word 0x12F17349 (.axminW 13 14 15), word 0x12F27349 (.axminD 13 14 15), word 0x12F47349 (.axminSb 13 14 15),
      word 0x12F57349 (.axminSw 13 14 15)].all id = true := by decide

theorem test_words_srm64_a :
    [word 0x10D37003 (.stq 14 13 8), word 0x00837344 (.ldq 13 14 8), word 0x00067344 (.ldsd 13 14 0),
      word 0x04F07340 (.addQ 13 14 15), word 0x04F17340 (.subQ 13 14 15), word 0x04F27340 (.andQ 13 14 15),
      word 0x04F37340 (.orQ 13 14 15), word 0x04F47340 (.xorQ 13 14 15), word 0x04F57340 (.shrQ 13 14 15),
      word 0x04F67340 (.asrQ 13 14 15), word 0x04F77340 (.shlQ 13 14 15), word 0x04F87340 (.cchQ 13 14 15),
      word 0x04F97340 (.bchQ 13 14 15), word 0x04FA7340 (.sltQ 13 14 15), word 0xFFF0734A (.addiQ 13 14 (-1)),
      word 0x0FF2734A (.andiQ 13 14 255), word 0x0103734A (.oriQ 13 14 16), word 0xFFF4734A (.xoriQ 13 14 (-1)),
      word 0x0205734A (.shriQ 13 14 32), word 0x0206734A (.asriQ 13 14 32), word 0x0207734A (.shliQ 13 14 32),
      word 0xFFF8734A (.cchiQ 13 14 (-1)), word 0x0019734A (.bchiQ 13 14 1), word 0xFFBA734A (.sltiQ 13 14 (-5))].all
        id = true := by decide

theorem test_words_srm64_b :
    [word 0x02F87340 (.mulQ 13 14 15), word 0x02FA7340 (.mulhQ 13 14 15), word 0x02FB7340 (.smulhQ 13 14 15),
      word 0x02FC7340 (.divQ 13 14 15), word 0x02FD7340 (.sdivQ 13 14 15), word 0x02FE7340 (.modQ 13 14 15),
      word 0x02FF7340 (.smodQ 13 14 15)].all id = true := by decide

theorem test_words_srm64_atomic :
    [word 0x00037349 (.llQ 13 14), word 0x00067349 (.llSd 13 14), word 0x02F37349 (.scQ 13 14 15),
      word 0x04F37349 (.acmpxchgQ 13 14 15), word 0x06F37349 (.axaddQ 13 14 15), word 0x06F67349 (.axaddSd 13 14 15),
      word 0x08F37349 (.axsubQ 13 14 15), word 0x08F67349 (.axsubSd 13 14 15), word 0x0AF37349 (.axandQ 13 14 15),
      word 0x0AF67349 (.axandSd 13 14 15), word 0x0CF37349 (.axiorQ 13 14 15), word 0x0CF67349 (.axiorSd 13 14 15),
      word 0x0EF37349 (.axxorQ 13 14 15), word 0x0EF67349 (.axxorSd 13 14 15), word 0x10F37349 (.axmaxQ 13 14 15),
      word 0x10F67349 (.axmaxSd 13 14 15), word 0x12F37349 (.axminQ 13 14 15), word 0x12F67349 (.axminSd 13 14
        15)].all id = true := by decide

/-! ## One step of each instruction -/

theorem test_step_base_arithmetic_1 :
    [gives (at32 |> reg 14 0x7fffffff |> reg 15 1) (.add 13 14 15)
      (fun s => s |> reg 13 0x80000000 |> ip 0x104),
    gives (at32 |> reg 14 0 |> reg 15 1) (.sub 13 14 15)
      (fun s => s |> reg 13 0xffffffff |> ip 0x104),
    gives (at32 |> reg 14 0xf0f0f0f0 |> reg 15 0xff00ff0) (.and 13 14 15)
      (fun s => s |> reg 13 0xf000f0 |> ip 0x104),
    gives (at32 |> reg 14 0xf0f0f0f0 |> reg 15 0xff00ff0) (.or 13 14 15)
      (fun s => s |> reg 13 0xfff0fff0 |> ip 0x104),
    gives (at32 |> reg 14 0xf0f0f0f0 |> reg 15 0xff00ff0) (.xor 13 14 15)
      (fun s => s |> reg 13 0xff00ff00 |> ip 0x104),
    gives (at32 |> reg 14 0x80000000 |> reg 15 4) (.shr 13 14 15)
      (fun s => s |> reg 13 0x8000000 |> ip 0x104),
    gives (at32 |> reg 14 0x80000000 |> reg 15 4) (.asr 13 14 15)
      (fun s => s |> reg 13 0xf8000000 |> ip 0x104),
    gives (at32 |> reg 14 1 |> reg 15 0x1f) (.shl 13 14 15)
      (fun s => s |> reg 13 0x80000000 |> ip 0x104),
    gives (at32 |> reg 14 0xffffffff |> reg 15 1) (.cch 13 14 15)
      (fun s => s |> reg 13 1 |> ip 0x104),
    gives (at32 |> reg 14 0 |> reg 15 1) (.bch 13 14 15)
      (fun s => s |> reg 13 1 |> ip 0x104)].all id = true := by decide

theorem test_step_base_arithmetic_2 :
    [gives (at32 |> reg 14 0xffffffff |> reg 15 1) (.slt 13 14 15)
      (fun s => s |> reg 13 1 |> ip 0x104),
    gives (at32 |> reg 14 0) (.addi 13 14 (-1))
      (fun s => s |> reg 13 0xffffffff |> ip 0x104),
    gives (at32 |> reg 14 0x12345678) (.andi 13 14 (-16))
      (fun s => s |> reg 13 0x12345670 |> ip 0x104),
    gives (at32 |> reg 14 0x12345000) (.ori 13 14 2047)
      (fun s => s |> reg 13 0x123457ff |> ip 0x104),
    gives (at32 |> reg 14 0xf0f0f0f) (.xori 13 14 (-1))
      (fun s => s |> reg 13 0xf0f0f0f0 |> ip 0x104),
    gives (at32 |> reg 14 0x80000000) (.shri 13 14 4)
      (fun s => s |> reg 13 0x8000000 |> ip 0x104),
    gives (at32 |> reg 14 0x80000000) (.asri 13 14 4)
      (fun s => s |> reg 13 0xf8000000 |> ip 0x104),
    gives (at32 |> reg 14 4) (.shli 13 14 2)
      (fun s => s |> reg 13 0x10 |> ip 0x104),
    gives (at32 |> reg 14 1) (.cchi 13 14 (-1))
      (fun s => s |> reg 13 1 |> ip 0x104),
    gives (at32 |> reg 14 0) (.bchi 13 14 1)
      (fun s => s |> reg 13 1 |> ip 0x104)].all id = true := by decide

theorem test_step_base_arithmetic_3 :
    [gives (at32 |> reg 14 0xfffffff0) (.slti 13 14 (-5))
      (fun s => s |> reg 13 1 |> ip 0x104)].all id = true := by decide

theorem test_step_base_memory_and_jumps_1 :
    [gives (at32) (.lui 13 1)
      (fun s => s |> reg 13 0x800 |> ip 0x104),
    gives (at32 |> reg 13 0x12345678 |> reg 14 0x1000) (.stb 14 13 0)
      (fun s => s |> mem 0x1000 [0x78] |> ip 0x104),
    gives (at32 |> reg 13 0x12345678 |> reg 14 0x1000) (.stw 14 13 0)
      (fun s => s |> mem 0x1000 [0x78, 0x56] |> ip 0x104),
    gives (at32 |> reg 13 0x12345678 |> reg 14 0x1000) (.std 14 13 0)
      (fun s => s |> mem 0x1000 [0x78, 0x56, 0x34, 0x12] |> ip 0x104),
    gives (at32 |> reg 14 0x1000 |> mem 0x1000 [0xF0, 0x80, 0x34, 0x92, 0x01, 0x02, 0x03, 0x04]) (.ldb 13 14 0)
      (fun s => s |> reg 13 0xf0 |> ip 0x104),
    gives (at32 |> reg 14 0x1000 |> mem 0x1000 [0xF0, 0x80, 0x34, 0x92, 0x01, 0x02, 0x03, 0x04]) (.ldsb 13 14 0)
      (fun s => s |> reg 13 0xfffffff0 |> ip 0x104),
    gives (at32 |> reg 14 0x1000 |> mem 0x1000 [0xF0, 0x80, 0x34, 0x92, 0x01, 0x02, 0x03, 0x04]) (.ldw 13 14 0)
      (fun s => s |> reg 13 0x80f0 |> ip 0x104),
    gives (at32 |> reg 14 0x1000 |> mem 0x1000 [0xF0, 0x80, 0x34, 0x92, 0x01, 0x02, 0x03, 0x04]) (.ldsw 13 14 0)
      (fun s => s |> reg 13 0xffff80f0 |> ip 0x104),
    gives (at32 |> reg 14 0x1000 |> mem 0x1000 [0xF0, 0x80, 0x34, 0x92, 0x01, 0x02, 0x03, 0x04]) (.ldd 13 14 0)
      (fun s => s |> reg 13 0x923480f0 |> ip 0x104),
    gives (at32) (.jal 4 16)
      (fun s => s |> reg 4 0x104 |> ip 0x110)].all id = true := by decide

theorem test_step_base_memory_and_jumps_2 :
    [gives (at32 |> reg 14 0x2000) (.jalr 4 14 8)
      (fun s => s |> reg 4 0x104 |> ip 0x2008),
    gives (at32 |> reg 14 1 |> reg 15 0xffffffff) (.jeq 14 15 32)
      (fun s => s |> ip 0x104),
    gives (at32 |> reg 14 5 |> reg 15 5) (.jeq 14 15 32)
      (fun s => s |> ip 0x120),
    gives (at32 |> reg 14 1 |> reg 15 0xffffffff) (.jlt 14 15 32)
      (fun s => s |> ip 0x120),
    gives (at32 |> reg 14 5 |> reg 15 5) (.jlt 14 15 32)
      (fun s => s |> ip 0x104),
    gives (at32 |> reg 14 1 |> reg 15 0xffffffff) (.jslt 14 15 32)
      (fun s => s |> ip 0x104),
    gives (at32 |> reg 14 5 |> reg 15 5) (.jslt 14 15 32)
      (fun s => s |> ip 0x104),
    gives (at32 |> reg 14 1 |> reg 15 0xffffffff) (.jne 14 15 32)
      (fun s => s |> ip 0x120),
    gives (at32 |> reg 14 5 |> reg 15 5) (.jne 14 15 32)
      (fun s => s |> ip 0x104),
    gives (at32 |> reg 14 1 |> reg 15 0xffffffff) (.jge 14 15 32)
      (fun s => s |> ip 0x104)].all id = true := by decide

theorem test_step_base_memory_and_jumps_3 :
    [gives (at32 |> reg 14 5 |> reg 15 5) (.jge 14 15 32)
      (fun s => s |> ip 0x120),
    gives (at32 |> reg 14 1 |> reg 15 0xffffffff) (.jsge 14 15 32)
      (fun s => s |> ip 0x120),
    gives (at32 |> reg 14 5 |> reg 15 5) (.jsge 14 15 32)
      (fun s => s |> ip 0x120)].all id = true := by decide

theorem test_step_system_1 :
    [gives (at32 |> csr 0x801 0x9000 |> csr 0x1 0x8000 |> mode 0) (.syscall)
      (fun s => s |> mode 1 |> csr 0x802 0x100 |> csr 0x803 0 |> csr 0x804 0 |> ip 0x9000),
    gives (at32 |> csr 0x801 0x9000 |> csr 0x1 0x8000 |> mode 1) (.syscall)
      (fun s => s |> mode 3 |> csr 0x2 0x100 |> csr 0x3 1 |> csr 0x4 1 |> ip 0x8000),
    gives (at32 |> csr 0x801 0x9000 |> csr 0x1 0x8000) (.syscall)
      (fun s => s |> csr 0x2 0x100 |> csr 0x3 3 |> csr 0x4 3 |> ip 0x8000),
    gives (at32 |> csr 0x801 0x9000 |> csr 0x1 0x8000 |> mode 0) (.sysbreak)
      (fun s => s |> mode 1 |> csr 0x802 0x100 |> csr 0x803 4 |> csr 0x804 0 |> ip 0x9000),
    gives (at32 |> csr 0x801 0x9000 |> csr 0x1 0x8000 |> mode 1) (.sysbreak)
      (fun s => s |> mode 3 |> csr 0x2 0x100 |> csr 0x3 4 |> csr 0x4 1 |> ip 0x8000),
    gives (at32 |> csr 0x801 0x9000 |> csr 0x1 0x8000) (.sysbreak)
      (fun s => s |> csr 0x2 0x100 |> csr 0x3 4 |> csr 0x4 3 |> ip 0x8000),
    gives (at32 |> csr 0x2 0x2000 |> csr 0x4 0) (.mret)
      (fun s => s |> mode 0 |> ip 0x2000),
    gives (at32 |> csr 0x2 0x2000 |> csr 0x4 1) (.mret)
      (fun s => s |> mode 1 |> ip 0x2000),
    gives (at32 |> csr 0x2 0x2000 |> csr 0x4 3) (.mret)
      (fun s => s |> ip 0x2000),
    gives (at32 |> csr 0x802 0x3000 |> csr 0x804 0 |> mode 1) (.sysret)
      (fun s => s |> mode 0 |> ip 0x3000)].all id = true := by decide

theorem test_step_system_2 :
    [gives (at32 |> csr 0x802 0x3000 |> csr 0x804 3 |> mode 1) (.sysret)
      (fun s => s |> mode 3 |> ip 0x3000),
    gives (at32 |> csr 0x802 0x3000 |> csr 0x804 0) (.sysret)
      (fun s => s |> mode 0 |> ip 0x3000),
    gives (at32 |> csr 0x1 0x8000) (.csrr 13 0x1)
      (fun s => s |> reg 13 0x8000 |> ip 0x104),
    gives (at32 |> csr 0x803 4 |> mode 1) (.csrr 13 0x803)
      (fun s => s |> reg 13 4 |> ip 0x104),
    gives (at32 |> reg 14 0x8000) (.csrw 14 0x1)
      (fun s => s |> csr 0x1 0x8000 |> ip 0x104),
    gives (at32 |> reg 14 0x1234 |> csr 0x1 0x8000 |> mode 1) (.csrw 14 0x1)
      (fun s => s |> ip 0x104),
    gives (at32) (.csrs 0x0 0)
      (fun s => s |> csr 0x0 7 |> ip 0x104),
    gives (at32 |> mode 0) (.csrs 0x800 0)
      (fun s => s |> ip 0x104),
    gives (at32 |> csr 0x0 7) (.csrc 0x0 0)
      (fun s => s |> csr 0x0 6 |> ip 0x104),
    gives (at32) (.csrc 0x0 2)
      (fun s => s |> mode 1 |> ip 0x104)].all id = true := by decide

theorem test_step_system_3 :
    [gives (at32) (.fence 15)
      (fun s => s |> ip 0x104),
    gives (at32 |> reg 14 0x3f8 |> supplied [0x80]) (.inb 13 14)
      (fun s => s |> reg 13 0x80 |> ip 0x104 |> supplied []),
    gives (at32 |> reg 14 0x3f9 |> supplied [0x8001]) (.inw 13 14)
      (fun s => s |> reg 13 0x8001 |> ip 0x104 |> supplied []),
    gives (at32 |> reg 14 0x3fb |> supplied [0x12345678]) (.ind 13 14)
      (fun s => s |> reg 13 0x12345678 |> ip 0x104 |> supplied []),
    gives (at32 |> reg 14 0x3f8 |> supplied [0x80]) (.insb 13 14)
      (fun s => s |> reg 13 0xffffff80 |> ip 0x104 |> supplied []),
    gives (at32 |> reg 14 0x3f8 |> supplied [0x8001]) (.insw 13 14)
      (fun s => s |> reg 13 0xffff8001 |> ip 0x104 |> supplied []),
    gives (at32 |> reg 14 0x3f8 |> reg 15 0x12345641 |> mode 1) (.outb 14 15)
      (fun s => s |> wrote [⟨0x3F8, .b, 0x41⟩] |> ip 0x104),
    gives (at32 |> reg 14 0x3f9 |> reg 15 0x12345641) (.outw 14 15)
      (fun s => s |> wrote [⟨0x3F8, .w, 0x5641⟩] |> ip 0x104),
    gives (at32 |> reg 14 0x3f8 |> reg 15 0x12345641) (.outd 14 15)
      (fun s => s |> wrote [⟨0x3F8, .d, 0x12345641⟩] |> ip 0x104)].all id = true := by decide

theorem test_step_multiply_divide_1 :
    [gives (at32 |> reg 14 0x10000 |> reg 15 0x10000) (.mul 13 14 15)
      (fun s => s |> reg 13 0 |> ip 0x104),
    gives (at32 |> reg 14 0x10000 |> reg 15 0x10000) (.mulh 13 14 15)
      (fun s => s |> reg 13 1 |> ip 0x104),
    gives (at32 |> reg 14 0xffffffff |> reg 15 0xffffffff) (.smulh 13 14 15)
      (fun s => s |> reg 13 0 |> ip 0x104),
    gives (at32 |> reg 14 7 |> reg 15 2) (.div 13 14 15)
      (fun s => s |> reg 13 3 |> ip 0x104),
    gives (at32 |> reg 14 7 |> reg 15 2) (.sdiv 13 14 15)
      (fun s => s |> reg 13 3 |> ip 0x104),
    gives (at32 |> reg 14 7 |> reg 15 2) (.mod 13 14 15)
      (fun s => s |> reg 13 1 |> ip 0x104),
    gives (at32 |> reg 14 7 |> reg 15 2) (.smod 13 14 15)
      (fun s => s |> reg 13 1 |> ip 0x104)].all id = true := by decide

theorem test_step_atomic_a_1 :
    [gives (at32 |> reg 14 0x1000 |> mem 0x1000 [0xF0, 0x80, 0x34, 0x92]) (.llB 13 14)
      (fun s => s |> reg 13 0xf0 |> linked (some ⟨0x1000, .b⟩) |> ip 0x104),
    gives (at32 |> reg 14 0x1001 |> mem 0x1000 [0xF0, 0x80, 0x34, 0x92]) (.llW 13 14)
      (fun s => s |> reg 13 0x80f0 |> linked (some ⟨0x1000, .w⟩) |> ip 0x104),
    gives (at32 |> reg 14 0x1003 |> mem 0x1000 [0xF0, 0x80, 0x34, 0x92] |> linked (some ⟨0x2000, .d⟩)) (.llD 13 14)
      (fun s => s |> reg 13 0x923480f0 |> linked (some ⟨0x1000, .d⟩) |> ip 0x104),
    gives (at32 |> reg 14 0x1000 |> mem 0x1000 [0xF0, 0x80, 0x34, 0x92]) (.llSb 13 14)
      (fun s => s |> reg 13 0xfffffff0 |> linked (some ⟨0x1000, .b⟩) |> ip 0x104),
    gives (at32 |> reg 14 0x1000 |> mem 0x1000 [0xF0, 0x80, 0x34, 0x92]) (.llSw 13 14)
      (fun s => s |> reg 13 0xffff80f0 |> linked (some ⟨0x1000, .w⟩) |> ip 0x104),
    gives (at32 |> reg 14 0x1000 |> reg 15 0x11223344 |> mem 0x1000 [0xF0, 0x80, 0x34, 0x92] |> linked (some ⟨0x1000,
      .b⟩)) (.scB 13 14 15)
      (fun s => s |> reg 13 1 |> mem 0x1000 [0x44] |> linked none |> ip 0x104),
    gives (at32 |> reg 14 0x1000 |> reg 15 0x11223344 |> mem 0x1000 [0xF0, 0x80, 0x34, 0x92] |> linked (some ⟨0x1000,
      .w⟩)) (.scW 13 14 15)
      (fun s => s |> reg 13 1 |> mem 0x1000 [0x44, 0x33] |> linked none |> ip 0x104),
    gives (at32 |> reg 13 9 |> reg 14 0x1000 |> reg 15 0x11223344 |> mem 0x1000 [0xF0, 0x80, 0x34, 0x92] |> linked
      (some ⟨0x1000, .d⟩)) (.scD 13 14 15)
      (fun s => s |> reg 13 1 |> mem 0x1000 [0x44, 0x33, 0x22, 0x11] |> linked none |> ip 0x104),
    gives (at32 |> reg 13 0x123456f0 |> reg 14 0x1000 |> reg 15 0x55 |> mem 0x1000 [0xF0, 0x80, 0x34, 0x92])
      (.acmpxchgB 13 14 15)
      (fun s => s |> reg 13 0xf0 |> mem 0x1000 [0x55] |> ip 0x104),
    gives (at32 |> reg 13 0x80f0 |> reg 14 0x1000 |> reg 15 0xaaaabbbb |> mem 0x1000 [0xF0, 0x80, 0x34, 0x92])
      (.acmpxchgW 13 14 15)
      (fun s => s |> reg 13 0x80f0 |> mem 0x1000 [0xBB, 0xBB] |> ip 0x104)].all id = true := by decide

theorem test_step_atomic_a_2 :
    [gives (at32 |> reg 13 0x923480f0 |> reg 14 0x1000 |> reg 15 1 |> mem 0x1000 [0xF0, 0x80, 0x34, 0x92] |> linked
      (some ⟨0x1000, .d⟩)) (.acmpxchgD 13 14 15)
      (fun s => s |> reg 13 0x923480f0 |> mem 0x1000 [0x01, 0x00, 0x00, 0x00] |> linked none |> ip 0x104),
    gives (at32 |> reg 13 0x11223344 |> reg 14 0x1000 |> reg 15 0x20 |> mem 0x1000 [0xF0, 0x80, 0x34, 0x92]) (.axaddB
      13 14 15)
      (fun s => s |> reg 13 0x110 |> mem 0x1000 [0x44] |> ip 0x104),
    gives (at32 |> reg 13 0x11223344 |> reg 14 0x1000 |> reg 15 0x20 |> mem 0x1000 [0xF0, 0x80, 0x34, 0x92]) (.axaddW
      13 14 15)
      (fun s => s |> reg 13 0x8110 |> mem 0x1000 [0x44, 0x33] |> ip 0x104),
    gives (at32 |> reg 13 0x11223344 |> reg 14 0x1000 |> reg 15 0x20 |> mem 0x1000 [0xF0, 0x80, 0x34, 0x92]) (.axaddD
      13 14 15)
      (fun s => s |> reg 13 0x92348110 |> mem 0x1000 [0x44, 0x33, 0x22, 0x11] |> ip 0x104),
    gives (at32 |> reg 13 0x11223344 |> reg 14 0x1000 |> reg 15 0x20 |> mem 0x1000 [0xF0, 0x80, 0x34, 0x92])
      (.axaddSb 13 14 15)
      (fun s => s |> reg 13 0x10 |> mem 0x1000 [0x44] |> ip 0x104),
    gives (at32 |> reg 13 0x11223344 |> reg 14 0x1000 |> reg 15 0x20 |> mem 0x1000 [0xF0, 0x80, 0x34, 0x92])
      (.axaddSw 13 14 15)
      (fun s => s |> reg 13 0xffff8110 |> mem 0x1000 [0x44, 0x33] |> ip 0x104),
    gives (at32 |> reg 13 0x11223344 |> reg 14 0x1000 |> reg 15 0x20 |> mem 0x1000 [0xF0, 0x80, 0x34, 0x92]) (.axsubB
      13 14 15)
      (fun s => s |> reg 13 0xd0 |> mem 0x1000 [0x44] |> ip 0x104),
    gives (at32 |> reg 13 0x11223344 |> reg 14 0x1000 |> reg 15 0x20 |> mem 0x1000 [0xF0, 0x80, 0x34, 0x92]) (.axsubW
      13 14 15)
      (fun s => s |> reg 13 0x80d0 |> mem 0x1000 [0x44, 0x33] |> ip 0x104),
    gives (at32 |> reg 13 0x11223344 |> reg 14 0x1000 |> reg 15 0x20 |> mem 0x1000 [0xF0, 0x80, 0x34, 0x92]) (.axsubD
      13 14 15)
      (fun s => s |> reg 13 0x923480d0 |> mem 0x1000 [0x44, 0x33, 0x22, 0x11] |> ip 0x104),
    gives (at32 |> reg 13 0x11223344 |> reg 14 0x1000 |> reg 15 0x20 |> mem 0x1000 [0xF0, 0x80, 0x34, 0x92])
      (.axsubSb 13 14 15)
      (fun s => s |> reg 13 0xffffffd0 |> mem 0x1000 [0x44] |> ip 0x104)].all id = true := by decide

theorem test_step_atomic_a_3 :
    [gives (at32 |> reg 13 0x11223344 |> reg 14 0x1000 |> reg 15 0x20 |> mem 0x1000 [0xF0, 0x80, 0x34, 0x92])
      (.axsubSw 13 14 15)
      (fun s => s |> reg 13 0xffff80d0 |> mem 0x1000 [0x44, 0x33] |> ip 0x104),
    gives (at32 |> reg 13 0x11223344 |> reg 14 0x1000 |> reg 15 0x20 |> mem 0x1000 [0xF0, 0x80, 0x34, 0x92]) (.axandB
      13 14 15)
      (fun s => s |> reg 13 0x20 |> mem 0x1000 [0x44] |> ip 0x104),
    gives (at32 |> reg 13 0x11223344 |> reg 14 0x1000 |> reg 15 0x20 |> mem 0x1000 [0xF0, 0x80, 0x34, 0x92]) (.axandW
      13 14 15)
      (fun s => s |> reg 13 0x20 |> mem 0x1000 [0x44, 0x33] |> ip 0x104),
    gives (at32 |> reg 13 0x11223344 |> reg 14 0x1000 |> reg 15 0x20 |> mem 0x1000 [0xF0, 0x80, 0x34, 0x92]) (.axandD
      13 14 15)
      (fun s => s |> reg 13 0x20 |> mem 0x1000 [0x44, 0x33, 0x22, 0x11] |> ip 0x104)].all id = true := by decide

theorem test_step_atomic_b_1 :
    [gives (at32 |> reg 13 0x11223344 |> reg 14 0x1000 |> reg 15 0x20 |> mem 0x1000 [0xF0, 0x80, 0x34, 0x92])
      (.axandSb 13 14 15)
      (fun s => s |> reg 13 0x20 |> mem 0x1000 [0x44] |> ip 0x104),
    gives (at32 |> reg 13 0x11223344 |> reg 14 0x1000 |> reg 15 0x20 |> mem 0x1000 [0xF0, 0x80, 0x34, 0x92])
      (.axandSw 13 14 15)
      (fun s => s |> reg 13 0x20 |> mem 0x1000 [0x44, 0x33] |> ip 0x104),
    gives (at32 |> reg 13 0x11223344 |> reg 14 0x1000 |> reg 15 0x20 |> mem 0x1000 [0xF0, 0x80, 0x34, 0x92]) (.axiorB
      13 14 15)
      (fun s => s |> reg 13 0xf0 |> mem 0x1000 [0x44] |> ip 0x104),
    gives (at32 |> reg 13 0x11223344 |> reg 14 0x1000 |> reg 15 0x20 |> mem 0x1000 [0xF0, 0x80, 0x34, 0x92]) (.axiorW
      13 14 15)
      (fun s => s |> reg 13 0x80f0 |> mem 0x1000 [0x44, 0x33] |> ip 0x104),
    gives (at32 |> reg 13 0x11223344 |> reg 14 0x1000 |> reg 15 0x20 |> mem 0x1000 [0xF0, 0x80, 0x34, 0x92]) (.axiorD
      13 14 15)
      (fun s => s |> reg 13 0x923480f0 |> mem 0x1000 [0x44, 0x33, 0x22, 0x11] |> ip 0x104),
    gives (at32 |> reg 13 0x11223344 |> reg 14 0x1000 |> reg 15 0x20 |> mem 0x1000 [0xF0, 0x80, 0x34, 0x92])
      (.axiorSb 13 14 15)
      (fun s => s |> reg 13 0xfffffff0 |> mem 0x1000 [0x44] |> ip 0x104),
    gives (at32 |> reg 13 0x11223344 |> reg 14 0x1000 |> reg 15 0x20 |> mem 0x1000 [0xF0, 0x80, 0x34, 0x92])
      (.axiorSw 13 14 15)
      (fun s => s |> reg 13 0xffff80f0 |> mem 0x1000 [0x44, 0x33] |> ip 0x104),
    gives (at32 |> reg 13 0x11223344 |> reg 14 0x1000 |> reg 15 0x20 |> mem 0x1000 [0xF0, 0x80, 0x34, 0x92]) (.axxorB
      13 14 15)
      (fun s => s |> reg 13 0xd0 |> mem 0x1000 [0x44] |> ip 0x104),
    gives (at32 |> reg 13 0x11223344 |> reg 14 0x1000 |> reg 15 0x20 |> mem 0x1000 [0xF0, 0x80, 0x34, 0x92]) (.axxorW
      13 14 15)
      (fun s => s |> reg 13 0x80d0 |> mem 0x1000 [0x44, 0x33] |> ip 0x104),
    gives (at32 |> reg 13 0x11223344 |> reg 14 0x1000 |> reg 15 0x20 |> mem 0x1000 [0xF0, 0x80, 0x34, 0x92]) (.axxorD
      13 14 15)
      (fun s => s |> reg 13 0x923480d0 |> mem 0x1000 [0x44, 0x33, 0x22, 0x11] |> ip 0x104)].all id = true := by decide

theorem test_step_atomic_b_2 :
    [gives (at32 |> reg 13 0x11223344 |> reg 14 0x1000 |> reg 15 0x20 |> mem 0x1000 [0xF0, 0x80, 0x34, 0x92])
      (.axxorSb 13 14 15)
      (fun s => s |> reg 13 0xffffffd0 |> mem 0x1000 [0x44] |> ip 0x104),
    gives (at32 |> reg 13 0x11223344 |> reg 14 0x1000 |> reg 15 0x20 |> mem 0x1000 [0xF0, 0x80, 0x34, 0x92])
      (.axxorSw 13 14 15)
      (fun s => s |> reg 13 0xffff80d0 |> mem 0x1000 [0x44, 0x33] |> ip 0x104),
    gives (at32 |> reg 13 0x11223344 |> reg 14 0x1000 |> reg 15 0x20 |> mem 0x1000 [0xF0, 0x80, 0x34, 0x92]) (.axmaxB
      13 14 15)
      (fun s => s |> reg 13 0xf0 |> mem 0x1000 [0x44] |> ip 0x104),
    gives (at32 |> reg 13 0x11223344 |> reg 14 0x1000 |> reg 15 0x20 |> mem 0x1000 [0xF0, 0x80, 0x34, 0x92]) (.axmaxW
      13 14 15)
      (fun s => s |> reg 13 0x80f0 |> mem 0x1000 [0x44, 0x33] |> ip 0x104),
    gives (at32 |> reg 13 0x11223344 |> reg 14 0x1000 |> reg 15 0x20 |> mem 0x1000 [0xF0, 0x80, 0x34, 0x92]) (.axmaxD
      13 14 15)
      (fun s => s |> reg 13 0x20 |> mem 0x1000 [0x44, 0x33, 0x22, 0x11] |> ip 0x104),
    gives (at32 |> reg 13 0x11223344 |> reg 14 0x1000 |> reg 15 0x20 |> mem 0x1000 [0xF0, 0x80, 0x34, 0x92])
      (.axmaxSb 13 14 15)
      (fun s => s |> reg 13 0x20 |> mem 0x1000 [0x44] |> ip 0x104),
    gives (at32 |> reg 13 0x11223344 |> reg 14 0x1000 |> reg 15 0x20 |> mem 0x1000 [0xF0, 0x80, 0x34, 0x92])
      (.axmaxSw 13 14 15)
      (fun s => s |> reg 13 0x20 |> mem 0x1000 [0x44, 0x33] |> ip 0x104),
    gives (at32 |> reg 13 0x11223344 |> reg 14 0x1000 |> reg 15 0x20 |> mem 0x1000 [0xF0, 0x80, 0x34, 0x92]) (.axminB
      13 14 15)
      (fun s => s |> reg 13 0x20 |> mem 0x1000 [0x44] |> ip 0x104),
    gives (at32 |> reg 13 0x11223344 |> reg 14 0x1000 |> reg 15 0x20 |> mem 0x1000 [0xF0, 0x80, 0x34, 0x92]) (.axminW
      13 14 15)
      (fun s => s |> reg 13 0x20 |> mem 0x1000 [0x44, 0x33] |> ip 0x104),
    gives (at32 |> reg 13 0x11223344 |> reg 14 0x1000 |> reg 15 0x20 |> mem 0x1000 [0xF0, 0x80, 0x34, 0x92]) (.axminD
      13 14 15)
      (fun s => s |> reg 13 0x923480f0 |> mem 0x1000 [0x44, 0x33, 0x22, 0x11] |> ip 0x104)].all id = true := by decide

theorem test_step_atomic_b_3 :
    [gives (at32 |> reg 13 0x11223344 |> reg 14 0x1000 |> reg 15 0x20 |> mem 0x1000 [0xF0, 0x80, 0x34, 0x92])
      (.axminSb 13 14 15)
      (fun s => s |> reg 13 0xfffffff0 |> mem 0x1000 [0x44] |> ip 0x104),
    gives (at32 |> reg 13 0x11223344 |> reg 14 0x1000 |> reg 15 0x20 |> mem 0x1000 [0xF0, 0x80, 0x34, 0x92])
      (.axminSw 13 14 15)
      (fun s => s |> reg 13 0xffff80f0 |> mem 0x1000 [0x44, 0x33] |> ip 0x104)].all id = true := by decide

theorem test_step_srm64_a_1 :
    [gives (at64 |> reg 13 0x1122334455667788 |> reg 14 0x1000) (.stq 14 13 0)
      (fun s => s |> mem 0x1000 [0x88, 0x77, 0x66, 0x55, 0x44, 0x33, 0x22, 0x11] |> ip 0x104),
    gives (at64 |> reg 14 0x1000 |> mem 0x1000 [0xF0, 0x80, 0x34, 0x92, 0x01, 0x02, 0x03, 0x84]) (.ldq 13 14 0)
      (fun s => s |> reg 13 0x84030201923480f0 |> ip 0x104),
    gives (at64 |> reg 14 0x1000 |> mem 0x1000 [0xF0, 0x80, 0x34, 0x92, 0x01, 0x02, 0x03, 0x84]) (.ldsd 13 14 0)
      (fun s => s |> reg 13 0xffffffff923480f0 |> ip 0x104),
    gives (at64 |> reg 14 0x7fffffff |> reg 15 1) (.addQ 13 14 15)
      (fun s => s |> reg 13 0x80000000 |> ip 0x104),
    gives (at64 |> reg 14 0 |> reg 15 1) (.subQ 13 14 15)
      (fun s => s |> reg 13 0xffffffffffffffff |> ip 0x104),
    gives (at64 |> reg 14 0xf0f0f0f0f0f0f0f0 |> reg 15 0xff00ff00ff00ff0) (.andQ 13 14 15)
      (fun s => s |> reg 13 0xf000f000f000f0 |> ip 0x104),
    gives (at64 |> reg 14 0xf0f0f0f0f0f0f0f0 |> reg 15 0xff00ff00ff00ff0) (.orQ 13 14 15)
      (fun s => s |> reg 13 0xfff0fff0fff0fff0 |> ip 0x104),
    gives (at64 |> reg 14 0xf0f0f0f0f0f0f0f0 |> reg 15 0xff00ff00ff00ff0) (.xorQ 13 14 15)
      (fun s => s |> reg 13 0xff00ff00ff00ff00 |> ip 0x104),
    gives (at64 |> reg 14 0xffffffff80000000 |> reg 15 4) (.shrQ 13 14 15)
      (fun s => s |> reg 13 0xffffffff8000000 |> ip 0x104),
    gives (at64 |> reg 14 0x8000000000000000 |> reg 15 0x3f) (.asrQ 13 14 15)
      (fun s => s |> reg 13 0xffffffffffffffff |> ip 0x104)].all id = true := by decide

theorem test_step_srm64_a_2 :
    [gives (at64 |> reg 14 1 |> reg 15 0x3f) (.shlQ 13 14 15)
      (fun s => s |> reg 13 0x8000000000000000 |> ip 0x104),
    gives (at64 |> reg 14 0xffffffffffffffff |> reg 15 1) (.cchQ 13 14 15)
      (fun s => s |> reg 13 1 |> ip 0x104),
    gives (at64 |> reg 14 0x100000000 |> reg 15 0xffffffff) (.bchQ 13 14 15)
      (fun s => s |> reg 13 0 |> ip 0x104),
    gives (at64 |> reg 14 0x8000000000000000 |> reg 15 0) (.sltQ 13 14 15)
      (fun s => s |> reg 13 1 |> ip 0x104),
    gives (at64 |> reg 14 0) (.addiQ 13 14 (-1))
      (fun s => s |> reg 13 0xffffffffffffffff |> ip 0x104),
    gives (at64 |> reg 14 0x123456789abcdeff) (.andiQ 13 14 (-16))
      (fun s => s |> reg 13 0x123456789abcdef0 |> ip 0x104),
    gives (at64 |> reg 14 0x123) (.oriQ 13 14 (-2048))
      (fun s => s |> reg 13 0xfffffffffffff923 |> ip 0x104),
    gives (at64 |> reg 14 0xf0f0f0f0f0f0f0f0) (.xoriQ 13 14 (-1))
      (fun s => s |> reg 13 0xf0f0f0f0f0f0f0f |> ip 0x104),
    gives (at64 |> reg 14 0xf0f0f0f0f0f0f0f0) (.shriQ 13 14 60)
      (fun s => s |> reg 13 0xf |> ip 0x104),
    gives (at64 |> reg 14 0x8000000000000000) (.asriQ 13 14 60)
      (fun s => s |> reg 13 0xfffffffffffffff8 |> ip 0x104)].all id = true := by decide

theorem test_step_srm64_a_3 :
    [gives (at64 |> reg 14 0x12345678) (.shliQ 13 14 32)
      (fun s => s |> reg 13 0x1234567800000000 |> ip 0x104),
    gives (at64 |> reg 14 1) (.cchiQ 13 14 (-1))
      (fun s => s |> reg 13 1 |> ip 0x104),
    gives (at64 |> reg 14 5) (.bchiQ 13 14 (-1))
      (fun s => s |> reg 13 1 |> ip 0x104),
    gives (at64 |> reg 14 5) (.sltiQ 13 14 (-1))
      (fun s => s |> reg 13 0 |> ip 0x104)].all id = true := by decide

theorem test_step_srm64_b_1 :
    [gives (at64 |> reg 14 0x100000000 |> reg 15 0x100000000) (.mulQ 13 14 15)
      (fun s => s |> reg 13 0 |> ip 0x104),
    gives (at64 |> reg 14 0xffffffffffffffff |> reg 15 0xffffffffffffffff) (.mulhQ 13 14 15)
      (fun s => s |> reg 13 0xfffffffffffffffe |> ip 0x104),
    gives (at64 |> reg 14 0xffffffffffffffff |> reg 15 0xffffffffffffffff) (.smulhQ 13 14 15)
      (fun s => s |> reg 13 0 |> ip 0x104),
    gives (at64 |> reg 14 0xfffffffffffffff9 |> reg 15 2) (.divQ 13 14 15)
      (fun s => s |> reg 13 0x7ffffffffffffffc |> ip 0x104),
    gives (at64 |> reg 14 0xfffffffffffffff9 |> reg 15 2) (.sdivQ 13 14 15)
      (fun s => s |> reg 13 0xfffffffffffffffd |> ip 0x104),
    gives (at64 |> reg 14 0xfffffffffffffff9 |> reg 15 0xa) (.modQ 13 14 15)
      (fun s => s |> reg 13 9 |> ip 0x104),
    gives (at64 |> reg 14 0xfffffffffffffff9 |> reg 15 0xa) (.smodQ 13 14 15)
      (fun s => s |> reg 13 0xfffffffffffffff9 |> ip 0x104)].all id = true := by decide

theorem test_step_srm64_atomic_1 :
    [gives (at64 |> reg 14 0x1007 |> mem 0x1000 [0xF0, 0x80, 0x34, 0x92, 0x01, 0x02, 0x03, 0x84]) (.llQ 13 14)
      (fun s => s |> reg 13 0x84030201923480f0 |> linked (some ⟨0x1000, .q⟩) |> ip 0x104),
    gives (at64 |> reg 14 0x1000 |> mem 0x1000 [0xF0, 0x80, 0x34, 0x92, 0x01, 0x02, 0x03, 0x84]) (.llSd 13 14)
      (fun s => s |> reg 13 0xffffffff923480f0 |> linked (some ⟨0x1000, .d⟩) |> ip 0x104),
    gives (at64 |> reg 14 0x1000 |> reg 15 0x1122334455667788 |> mem 0x1000 [0xF0, 0x80, 0x34, 0x92, 0x01, 0x02,
      0x03, 0x84] |> linked (some ⟨0x1000, .q⟩)) (.scQ 13 14 15)
      (fun s => s |> reg 13 1 |> mem 0x1000 [0x88, 0x77, 0x66, 0x55, 0x44, 0x33, 0x22, 0x11] |> linked none |> ip
        0x104),
    gives (at64 |> reg 13 0x84030201923480f0 |> reg 14 0x1000 |> reg 15 1 |> mem 0x1000 [0xF0, 0x80, 0x34, 0x92,
      0x01, 0x02, 0x03, 0x84]) (.acmpxchgQ 13 14 15)
      (fun s => s |> reg 13 0x84030201923480f0 |> mem 0x1000 [0x01, 0x00, 0x00, 0x00, 0x00, 0x00, 0x00, 0x00] |> ip
        0x104),
    gives (at64 |> reg 13 0x1122334455667788 |> reg 14 0x1000 |> reg 15 0x20 |> mem 0x1000 [0xF0, 0x80, 0x34, 0x92,
      0x01, 0x02, 0x03, 0x84]) (.axaddQ 13 14 15)
      (fun s => s |> reg 13 0x8403020192348110 |> mem 0x1000 [0x88, 0x77, 0x66, 0x55, 0x44, 0x33, 0x22, 0x11] |> ip
        0x104),
    gives (at64 |> reg 13 0x1122334455667788 |> reg 14 0x1000 |> reg 15 0x20 |> mem 0x1000 [0xF0, 0x80, 0x34, 0x92,
      0x01, 0x02, 0x03, 0x84]) (.axaddSd 13 14 15)
      (fun s => s |> reg 13 0xffffffff92348110 |> mem 0x1000 [0x88, 0x77, 0x66, 0x55] |> ip 0x104),
    gives (at64 |> reg 13 0x1122334455667788 |> reg 14 0x1000 |> reg 15 0x20 |> mem 0x1000 [0xF0, 0x80, 0x34, 0x92,
      0x01, 0x02, 0x03, 0x84]) (.axsubQ 13 14 15)
      (fun s => s |> reg 13 0x84030201923480d0 |> mem 0x1000 [0x88, 0x77, 0x66, 0x55, 0x44, 0x33, 0x22, 0x11] |> ip
        0x104),
    gives (at64 |> reg 13 0x1122334455667788 |> reg 14 0x1000 |> reg 15 0x20 |> mem 0x1000 [0xF0, 0x80, 0x34, 0x92,
      0x01, 0x02, 0x03, 0x84]) (.axsubSd 13 14 15)
      (fun s => s |> reg 13 0xffffffff923480d0 |> mem 0x1000 [0x88, 0x77, 0x66, 0x55] |> ip 0x104),
    gives (at64 |> reg 13 0x1122334455667788 |> reg 14 0x1000 |> reg 15 0x20 |> mem 0x1000 [0xF0, 0x80, 0x34, 0x92,
      0x01, 0x02, 0x03, 0x84]) (.axandQ 13 14 15)
      (fun s => s |> reg 13 0x20 |> mem 0x1000 [0x88, 0x77, 0x66, 0x55, 0x44, 0x33, 0x22, 0x11] |> ip 0x104),
    gives (at64 |> reg 13 0x1122334455667788 |> reg 14 0x1000 |> reg 15 0x20 |> mem 0x1000 [0xF0, 0x80, 0x34, 0x92,
      0x01, 0x02, 0x03, 0x84]) (.axandSd 13 14 15)
      (fun s => s |> reg 13 0x20 |> mem 0x1000 [0x88, 0x77, 0x66, 0x55] |> ip 0x104)].all id = true := by decide

theorem test_step_srm64_atomic_2 :
    [gives (at64 |> reg 13 0x1122334455667788 |> reg 14 0x1000 |> reg 15 0x20 |> mem 0x1000 [0xF0, 0x80, 0x34, 0x92,
      0x01, 0x02, 0x03, 0x84]) (.axiorQ 13 14 15)
      (fun s => s |> reg 13 0x84030201923480f0 |> mem 0x1000 [0x88, 0x77, 0x66, 0x55, 0x44, 0x33, 0x22, 0x11] |> ip
        0x104),
    gives (at64 |> reg 13 0x1122334455667788 |> reg 14 0x1000 |> reg 15 0x20 |> mem 0x1000 [0xF0, 0x80, 0x34, 0x92,
      0x01, 0x02, 0x03, 0x84]) (.axiorSd 13 14 15)
      (fun s => s |> reg 13 0xffffffff923480f0 |> mem 0x1000 [0x88, 0x77, 0x66, 0x55] |> ip 0x104),
    gives (at64 |> reg 13 0x1122334455667788 |> reg 14 0x1000 |> reg 15 0x20 |> mem 0x1000 [0xF0, 0x80, 0x34, 0x92,
      0x01, 0x02, 0x03, 0x84]) (.axxorQ 13 14 15)
      (fun s => s |> reg 13 0x84030201923480d0 |> mem 0x1000 [0x88, 0x77, 0x66, 0x55, 0x44, 0x33, 0x22, 0x11] |> ip
        0x104),
    gives (at64 |> reg 13 0x1122334455667788 |> reg 14 0x1000 |> reg 15 0x20 |> mem 0x1000 [0xF0, 0x80, 0x34, 0x92,
      0x01, 0x02, 0x03, 0x84]) (.axxorSd 13 14 15)
      (fun s => s |> reg 13 0xffffffff923480d0 |> mem 0x1000 [0x88, 0x77, 0x66, 0x55] |> ip 0x104),
    gives (at64 |> reg 13 0x1122334455667788 |> reg 14 0x1000 |> reg 15 0x20 |> mem 0x1000 [0xF0, 0x80, 0x34, 0x92,
      0x01, 0x02, 0x03, 0x84]) (.axmaxQ 13 14 15)
      (fun s => s |> reg 13 0x20 |> mem 0x1000 [0x88, 0x77, 0x66, 0x55, 0x44, 0x33, 0x22, 0x11] |> ip 0x104),
    gives (at64 |> reg 13 0x1122334455667788 |> reg 14 0x1000 |> reg 15 0x20 |> mem 0x1000 [0xF0, 0x80, 0x34, 0x92,
      0x01, 0x02, 0x03, 0x84]) (.axmaxSd 13 14 15)
      (fun s => s |> reg 13 0x20 |> mem 0x1000 [0x88, 0x77, 0x66, 0x55] |> ip 0x104),
    gives (at64 |> reg 13 0x1122334455667788 |> reg 14 0x1000 |> reg 15 0x20 |> mem 0x1000 [0xF0, 0x80, 0x34, 0x92,
      0x01, 0x02, 0x03, 0x84]) (.axminQ 13 14 15)
      (fun s => s |> reg 13 0x84030201923480f0 |> mem 0x1000 [0x88, 0x77, 0x66, 0x55, 0x44, 0x33, 0x22, 0x11] |> ip
        0x104),
    gives (at64 |> reg 13 0x1122334455667788 |> reg 14 0x1000 |> reg 15 0x20 |> mem 0x1000 [0xF0, 0x80, 0x34, 0x92,
      0x01, 0x02, 0x03, 0x84]) (.axminSd 13 14 15)
      (fun s => s |> reg 13 0xffffffff923480f0 |> mem 0x1000 [0x88, 0x77, 0x66, 0x55] |> ip 0x104)].all id = true :=
        by decide

/-! ## Values the spec leaves open: the instruction runs, its other effects are checked -/

/-- A division by zero completes: IP advances, the dividend and the divisor stay. -/
theorem test_division_by_zero_runs :
    (nextOf (exec (.div 13 14 15) (at32 |> reg 14 7))).map (fun t => (t.ip, t.readReg 14, t.readReg 15)) =
      some (0x104, 7, 0) := by decide

/-- A port read with nothing supplied completes and draws one free value. -/
theorem test_port_read_without_datum_runs :
    (nextOf (exec (.ind 13 14) at64)).map (fun t => (t.ip, t.ports.drawn)) = some (0x104, 1) := by decide

/-- The other shift policies run too (`ShAmt`, D5). -/
theorem test_shift_low_bits_policy :
    gives (at32 |> conf { cfg32 with shAmt := .lowBits } |> reg 14 0x80000000 |> reg 15 40) (.shr 13 14 15)
      (fun s => s |> reg 13 0x00800000 |> ip 0x104) = true := by decide

/-! ## Where the machine stops -/

theorem test_sc_overlapping_other_size_refused :
    exec (.scW 13 14 15) (at32 |> reg 14 0x1002 |> linked (some ⟨0x1000, .d⟩)) = .refused .scMismatch := rfl
theorem test_reserved_csr_refused : exec (.csrr 13 5) at32 = .refused .reservedCsr := rfl
theorem test_level2_refused : exec (.csrc 0 1) at32 = .refused .privilegeLevel2 := rfl
theorem test_mret_below_level_refused : exec .mret (at32 |> mode 1) = .refused .privilegedBelowLevel := rfl
theorem test_mret_below_level_traps :
    gives (at32 |> conf { cfg32 with privViolation := .trap 9 } |> mode 1 |> csr 1 0x8000) .mret
      (fun s => s |> mode 3 |> csr 2 0x100 |> csr 3 9 |> csr 4 1 |> ip 0x8000) = true := by decide
theorem test_unbacked_load_faults :
    exec (.ldb 13 14 0) (at64 |> conf cfgHole |> reg 14 0x1010) = .fault .unbackedAddress := rfl
theorem test_misaligned_ip_refused : step (at64 |> ip 0x102) = .refused .misalignedIp := rfl
theorem test_fetch_of_stored_byte_refused :
    step { at64 with stored := [0x103] } = .refused .fetchOfModifiedCode := rfl
theorem test_unassigned_word_refused :
    step (at64.withFetchWord 32 0xFFFFFFFF) = .refused .unassignedEncoding := rfl
theorem test_absent_extension_refused :
    step (at64 |> conf cfg32H |> fun s => s.withFetchWord 32 0x02F07340) = .refused .absentExtension := rfl
theorem test_unused_field_refused : step (at64.withFetchWord 32 0x00000048) = .refused .unusedField := rfl
theorem test_absent_register_refused :
    step (at64 |> conf cfg32H |> fun s => s.withFetchWord 32 0x01007340) = .refused .absentRegister := rfl
theorem test_truncated_bytes : (decodeBytes Config.default [0x40, 0x73, 0xF0]).isOk = false := by decide

/-! ## A step, reset, and what comes from outside -/

theorem test_reset : State.reset.ip = 0 ∧ State.reset.priv = 3 ∧ State.reset.link = none := by decide

/-- `add t0, t1, t2` fetched from address 0 as the first instruction: bytes 40 73 F0 00. -/
theorem test_first_step :
    (nextOf (step (State.reset |> reg 14 7 |> reg 15 5 |> mem 0 [0x40, 0x73, 0xF0, 0x00]))).map
      (fun t => (t.readReg 13, t.ip)) = some (12, 4) := by decide

/-- A request is taken in User mode whatever the enable bits hold (60_exceptions.md R468). -/
theorem test_request_taken_in_user_mode :
    (nextOf (step (at64 |> mode 0 |> csr 2049 0x9000 |> input [⟨some 7, []⟩]))).map
      (fun t => (t.ip, t.csr.kra, t.csr.kcause, t.priv)) = some (0x9000, 0x100, 7, 1) := by decide

/-- An input with a standard cause is no request (60_exceptions.md R474): the instruction at IP runs. -/
theorem test_standard_cause_is_no_request :
    (nextOf (step (at64 |> mode 0 |> input [⟨some 4, []⟩]))).map (fun t => (t.ip, t.priv)) = some (0x104, 0) := by decide

/-- On SRM32 the cause has 32 bits: 2^32 is the cause 0, which is no request. -/
theorem test_wide_cause_on_srm32_is_no_request :
    (nextOf (step (at32 |> mode 0 |> input [⟨some 0x100000000, []⟩]))).map (fun t => (t.ip, t.priv)) =
      some (0x104, 0) := by decide

/-- A masked request is lost: the instruction at IP runs. -/
theorem test_masked_request_lost :
    (nextOf (step (at64 |> input [⟨some 7, []⟩]))).map (fun t => (t.ip, t.priv, t.pending)) = some (0x104, 3, []) := by
  decide

/-- A masked request waits in the queue. -/
theorem test_masked_request_waits :
    (nextOf (step (at64 |> conf { Config.default with maskedIrq := .queue none } |> input [⟨some 7, []⟩]))).map
      (fun t => (t.ip, t.pending)) = some (0x104, [7]) := by decide

/-- Another agent's write breaks the link it overlaps and changes memory. -/
theorem test_external_write_breaks_link :
    (nextOf (step (at64 |> linked (some ⟨0x1000, .d⟩) |> input [⟨none, [⟨0x1003, .b, 0xAB⟩]⟩]))).map
      (fun t => (t.link, t.mem.read 0x1003)) = some (none, 0xAB) := by decide

/-! ## The assembler (95_test_vectors.md E5, E6) -/

theorem test_pseudo_instructions :
    [Asm.nop, Asm.not 13 14, Asm.inc 13 13, Asm.dec 13 13, Asm.mov 13 14, Asm.ret, Asm.clr 13, Asm.neg 13,
      Asm.sltu 13 14 15, Asm.jle 13 14 16, Asm.jgt 13 14 16, Asm.jmp 16, Asm.sgt 13 14 15, Asm.sgtu 13 14 15,
      Asm.jz 13 16, Asm.jnz 13 16, Asm.jlz 13 16, Asm.jgz 13 16, Asm.lea 13 14 8].map encode =
    [0x00000000, 0xFFF47341, 0x00106B41, 0xFFF06B41, 0x00007340, 0x00002006, 0x00D46B40, 0x00D10340,
      0x00F97340, 0x20D57007, 0x20D17007, 0x00008005, 0x00EA7B40, 0x00E97B40,
      0x20006807, 0x20046807, 0x20026807, 0x20D20007, 0x00807341] := by decide

theorem test_macro_instructions :
    [Asm.loadUpdate .ldb 10 13 1, Asm.storeUpdate .stw 10 13 1, Asm.xchg 13 14, Asm.ldi 13 0x12345678,
      Asm.ldi 13 0xFFFFF234, Asm.ldi 13 (-5), Asm.ldi 14 0x3000, Asm.push [10, 11], Asm.pop [11, 10],
      Asm.sslt 13 14 15].map (fun l => l.map encode) =
    [[0x00106A84, 0x00106B41], [0x02A16803, 0x00106B41], [0x00E46B40, 0x00E46B80, 0x00E46B40],
      [0x12345342, 0x67806B41], [0xFFFFF342, 0x23406B41], [0xFFB00341], [0x00003382],
      [0xF8A22FC3, 0xF0B22FC3, 0xFF802941], [0x00022AC4, 0x00422A84, 0x00802941], [0x00FA7340]] := by decide

/-! ## Witnesses: states that meet the hypotheses of the statements

A statement with no hypothesis on the state or the operands has none here. -/

/-- EncodeThenDecode: operands at the ends of their ranges. -/
theorem witness_EncodeThenDecode :
    WellFormed Config.default (.stq 31 0 (-2048)) = true ∧ WellFormed cfg32H (.jal 15 (-1)) = true ∧
      WellFormed Config.default (.fence 15) = true := by decide

/-- DecodedWordEncodesBack: under the strict policy, and under the other one with an unused field that is not 0. -/
theorem witness_DecodedWordEncodesBack :
    decode Config.default 0x00D37003 = .ok (.stq 14 13 0) ∧ Config.default.unusedField = .strict ∧
      decode { Config.default with unusedField := .ignore } 0x00000048 = .ok .syscall := ⟨rfl, rfl, rfl⟩

/-- AbsentInstructionRejected: each clause. -/
theorem witness_AbsentInstructionRejected :
    (Instr.mul 13 14 15).fenceTyped = true ∧ (Instr.mul 13 14 15).available cfg32H = false ∧
      (Instr.add 0 0 16).fenceTyped = true ∧ (Instr.add 0 0 16).available cfg32H = true ∧
      (Instr.add 0 0 16).regs.all (Reg.present cfg32H) = false := by decide

/-- `at64` with `add t0, t1, t2` at IP. -/
def atAdd : State := at64 |> mem 0x100 [0x40, 0x73, 0xF0, 0x00]

/-- StepRunsDecodedInstruction: a masked request is sampled away; a byte just after the word counts as stored to. -/
theorem witness_StepRunsDecodedInstruction :
    let s := { (atAdd |> input [⟨some 7, []⟩]) with stored := [0xFF, 0x104] }
    let s' := { atAdd with stored := [0xFF, 0x104] }
    sampleIrq (takeInput s).1 (takeInput s).2 = (none, s') ∧ s'.ip.extractLsb' 0 2 = 0 ∧
      s'.accessible s'.ip .d = true ∧ (∀ b ∈ s'.stored, b < s'.ip.toNat ∨ s'.ip.toNat + 4 ≤ b) ∧
      decodeBytes s'.cfg (fetchBytes s'.mem s'.ip.toNat) = .ok (.add 13 14 15, []) ∧
      at64.inputs = [] ∧ at64.pending = [] :=
  ⟨by decide, by decide, by decide, by decide, rfl, rfl, rfl⟩

/-- FetchStops: each clause, with a stored byte at the last place of the word, and bytes that are no instruction. -/
theorem witness_FetchStops :
    (ip 0x103 at64).ip.extractLsb' 0 2 ≠ 0 ∧
      (at64 |> conf cfgHole |> ip 0x1010).accessible 0x1010 .d = false ∧
      (at64 |> conf cfgHole |> ip 0x100C).accessible 0x100C .d = true ∧ (0x100C : Word).extractLsb' 0 2 = 0 ∧
      ({ at64 with stored := [0x103] } : State).cfg.ifetchCoherent = false ∧
      (∃ b ∈ ({ at64 with stored := [0x103] } : State).stored, at64.ip.toNat ≤ b ∧ b < at64.ip.toNat + 4) ∧
      (∀ b ∈ at64.stored, b < at64.ip.toNat ∨ at64.ip.toNat + 4 ≤ b) ∧
      decodeBytes at64.cfg (fetchBytes (mem 0x100 [255, 255, 255, 255] at64).mem at64.ip.toNat) = .error .unassigned ∧
      at64.inputs = [] ∧ at64.pending = [] :=
  ⟨by decide, by decide, by decide, by decide, rfl, ⟨0x103, by decide⟩, by decide, rfl, rfl, rfl⟩

/-- PlacedWordRuns: at the highest address of the space. -/
theorem witness_PlacedWordRuns :
    let s := ip 0xFFFFFFFFFFFFFFFC at64
    s.inputs = [] ∧ s.pending = [] ∧ s.ip.extractLsb' 0 2 = 0 ∧ s.accessible s.ip .d = true ∧
      decode s.cfg 0x00F07340 = .ok (.add 13 14 15) :=
  ⟨rfl, rfl, by decide, by decide, rfl⟩

/-- A user-mode state with a link, memory and a queue for one request. -/
def busy : State :=
  { (at64 |> conf { Config.default with maskedIrq := .queue (some 1) } |> reg 14 (-1) |> mode 0) with
    mem := [(0x100, 0x40), (0x101, 0x73), (0x102, 0xF0)]
    stored := [3, 9]
    link := some ⟨0x1008, .q⟩ }

theorem busy_inv : busy.Inv where
  regs := fun r => by unfold fitsX; revert r; decide
  ip := by unfold fitsX; decide
  csr := by unfold Csrs.fits fitsX; decide
  mode := by decide
  mem := by decide
  within := fun a h => by
    have h2 : a < 2 ^ 64 := by
      by_contra hn
      exact h (by
        simp [busy, Memory.read, show ¬ (256 = a) by omega, show ¬ (257 = a) by omega, show ¬ (258 = a) by omega])
    simpa [busy, backed, Config.wholeSpace, conf, Config.default, mode, reg, at64, ip, State.resetOf] using h2
  stored := by decide
  link := fun l hl => by
    cases hl
    exact ⟨by unfold fitsX; decide, by decide⟩
  pending := fun _ _ => Nat.zero_le _
  causes := fun _ hc => nomatch hc

/-- StepKeepsInvariant, StepKeepsConfiguration, and VectorBasesProtected in User mode: a step from `busy`. -/
theorem witness_StepKeepsInvariant :
    busy.Inv ∧ busy.priv = 0 ∧ (nextOf (step busy)).map (fun t => (t.ip, t.readReg 13)) = some (0x104, -1) :=
  ⟨busy_inv, by decide, by decide⟩

/-- UserModeConfined: a step that keeps the CSRs and one that enters the kernel. -/
theorem witness_UserModeConfined :
    (mode 0 atAdd).priv = 0 ∧ (nextOf (step (mode 0 atAdd))).map (fun t => t.csr.kcause) = some 0 ∧
      (nextOf (step ((at64 |> mode 0).withFetchWord 32 0x02000008))).map (fun t => t.csr.kcause) = some 4 := by decide

/-- VectorBasesProtected: a step in Kernel mode that writes `kiva` and keeps `miva`. -/
theorem witness_VectorBasesProtected :
    (nextOf (step ((at64 |> mode 1 |> csr 1 0x8000 |> reg 14 0x9000).withFetchWord 32 0x80137008))).map
      (fun t => (t.csr.kiva, t.csr.miva)) = some (0x9000, 0x8000) := by decide

/-- ReducedRegistersUntouched: a step on SRM32H. -/
theorem witness_ReducedRegistersUntouched :
    (at32 |> conf cfg32H).cfg.extH = true ∧
      (nextOf (step ((at32 |> conf cfg32H |> reg 16 5).withFetchWord 32 0x00F07340))).map (fun t => t.readReg 16) =
        some 5 := by decide

/-- WriteThenRead: bytes that touch the written ones on either side. -/
theorem witness_WriteThenRead :
    (0x0FF8 : Word).toNat + Size.q.bytes ≤ (0x1000 : Word).toNat ∧
      (0x1000 : Word).toNat + Size.d.bytes ≤ (0x1004 : Word).toNat := by decide

/-- EffectiveAddresses: a base register that holds XLEN bits, at the top of the space of SRM32. -/
theorem witness_EffectiveAddresses : fitsX cfg32 ((reg 14 0xFFFFFFFF at32).readReg 14) := by unfold fitsX; decide

/-- LinkBreaks, the writes of another agent: backed at the last place, and not backed; one such write in the input. -/
theorem witness_LinkBreaks_externalWrite :
    let s := at64 |> conf cfgHole
    s.accessible (alignTo .d (truncX s.cfg 0x100F)) .d = true ∧ s.accessible (alignTo .d (truncX s.cfg 0x1010)) .d = false ∧
      (input [⟨none, [⟨0x100F, .d, 5⟩]⟩] s).inputs = ⟨none, [⟨0x100F, .d, 5⟩]⟩ :: [] := by decide

/-- LinkBreaks: the last byte of the link, and the byte after it; a block of 16. -/
theorem witness_LinkBreaks :
    breakLink .exact (some ⟨0x1000, .d⟩) 0x1003 1 = none ∧
      breakLink .exact (some ⟨0x1000, .d⟩) 0x1004 1 = some ⟨0x1000, .d⟩ ∧
      breakLink (.block 4) (some ⟨0x1000, .d⟩) 0x100F 1 = none ∧
      breakLink (.block 4) (some ⟨0x1000, .d⟩) 0x1010 1 = some ⟨0x1000, .d⟩ := by decide

/-- The shift statements: the last amount below the width, and the width, in the register and the immediate forms. -/
theorem witness_shifts :
    (low32 ((reg 15 31 at64).readReg 15)).toNat < 32 ∧ (31 : BitVec 12).toNat < 32 ∧
      ((reg 15 63 at64).readReg 15).toNat < 64 ∧ (63 : BitVec 12).toNat < 64 ∧
      32 ≤ (low32 ((reg 15 32 at64).readReg 15)).toNat ∧ 32 ≤ (imm32 32).toNat ∧
      64 ≤ ((reg 15 64 at64).readReg 15).toNat ∧ 64 ≤ (imm64 64).toNat ∧
      at64.cfg.shAmt = .literal := by decide

/-- UnsignedDivision, SignedDivision: a divisor of -1; DivisionByZeroRuns: a divisor whose low half is 0. -/
theorem witness_division :
    low32 ((reg 15 0xFFFFFFFF at64).readReg 15) ≠ 0 ∧ (reg 15 0xFFFFFFFF at64).readReg 15 ≠ 0 ∧
      low32 ((reg 15 0x100000000 at64).readReg 15) = 0 ∧ at64.readReg 15 = 0 := by decide

/-- Loads, Stores, QwordMemory, LoadAndLink and the exchanges: the last access that `MemMap` backs, at a misaligned address;
UnbackedAccessFaults: the first it does not. -/
theorem witness_accesses :
    let s := at64 |> conf cfgHole |> reg 14 0x100F
    s.accessible (alignTo .q (s.effAddr 14 0)) .q = true ∧ s.accessible (alignTo .d (s.effAddr 14 0)) .d = true ∧
      s.accessible (alignTo .w (s.effAddr 14 0)) .w = true ∧ s.accessible (alignTo .b (s.effAddr 14 0)) .b = true ∧
      s.accessible (alignTo .q (s.readReg 14)) .q = true ∧ s.accessible (alignTo .d (s.readReg 14)) .d = true ∧
      s.accessible (alignTo .w (s.readReg 14)) .w = true ∧ s.accessible (alignTo .b (s.readReg 14)) .b = true ∧
      memoryAccess s (.ldb 13 14 1) = some (0x1010, .b) ∧ s.accessible 0x1010 .b = false ∧
      memoryAccess s (.axaddQ 13 14 15) = some (0x1008, .q) := by decide

/-- StoreConditional: the matching link, none, one just before the bytes, one that overlaps them. -/
theorem witness_StoreConditional :
    let s := at64 |> reg 14 0x1000
    (linked (some ⟨0x1000, .d⟩) s).link = some ⟨alignTo .d (s.readReg 14), .d⟩ ∧
      s.accessible (alignTo .d (s.readReg 14)) .d = true ∧ s.link = none ∧
      (⟨0x0FFC, .d⟩ : Link) ≠ ⟨alignTo .d (s.readReg 14), .d⟩ ∧
      (0x0FFC : Word).toNat + Size.d.bytes ≤ (alignTo .d (s.readReg 14)).toNat ∧
      (⟨0x1000, .w⟩ : Link) ≠ ⟨alignTo .d (s.readReg 14), .d⟩ ∧
      ((alignTo .d (s.readReg 14)).toNat ≤ 0x1001 ∧ 0x1001 < (alignTo .d (s.readReg 14)).toNat + 4 ∧
        (0x1000 : Word).toNat ≤ 0x1001 ∧ 0x1001 < (0x1000 : Word).toNat + Size.w.bytes) := by decide

/-- CompareAndExchange: equal and unequal data. -/
theorem witness_CompareAndExchange :
    let s := at64 |> reg 14 0x1000 |> reg 13 0x123456F0 |> mem 0x1000 [0xF0]
    (s.readReg 13).extractLsb' 0 8 = byteAt s.mem 0x1000 ∧ (s.readReg 13).extractLsb' 0 16 ≠ wordAt s.mem 0x1000 := by
  decide

/-- LinkThenStore: the LL.D completes, and its destination is another register; so does an LL into r0 at r0. -/
theorem witness_LinkThenStore :
    ((nextOf (exec (.llD 13 14) (at64 |> reg 14 0x1000))).isSome ∧ ((13 : Reg) = 14 → (13 : Reg) = 0)) ∧
      (nextOf (exec (.llB 0 0) at64)).isSome := by decide

/-- LdiLoadsConstant. -/
theorem witness_LdiLoadsConstant : (31 : Reg) ≠ 0 := by decide

/-- TrapFromUser, TrapFromKernel, TrapFromMachine: the three levels, the enable bits both ways, and a request ready. -/
theorem witness_traps :
    (mode 0 at64).priv = 0 ∧ (mode 1 at64).priv = 1 ∧ at64.priv = 3 ∧
      (at64 |> mode 1 |> csr 2048 1).csr.kstatus.getLsbD 0 = true ∧ (mode 1 at64).csr.kstatus.getLsbD 0 = false ∧
      (csr 0 7 at64).csr.mstatus.getLsbD 0 = true ∧ (csr 0 7 at64).priv = 3 ∧ at64.csr.mstatus.getLsbD 0 = false ∧
      at64.cfg.extS = true ∧ 4 < (truncX at64.cfg 7).toNat ∧ at64.pending = [] ∧ (input [⟨some 7, []⟩] at64).inputs = ⟨some 7, []⟩ :: [] := by decide

/-- MaskedRequests: masked and permitted, under each policy, with the bounded queue full and with one place. -/
theorem witness_MaskedRequests :
    at64.cfg.extS = true ∧ at64.irqPermitted = false ∧ (mode 0 at64).irqPermitted = true ∧
      at64.cfg.maskedIrq = .ignore ∧ (waitingIrq [7] at64).pending.length < 2 ∧
      1 ≤ (waitingIrq [7] at64).pending.length ∧ (waitingIrq [7] at64).pending ≠ [] ∧
      4 < (truncX at64.cfg 5).toNat ∧ { Config.default with maskedIrq := .queue (some 2) }.maskedIrq = .queue (some 2) ∧
      { Config.default with maskedIrq := .queue none }.maskedIrq = .queue none := by
  decide

/-- RequestCausesAreFree: an illegal cause at the boundary; a step from User mode that takes the waiting request. -/
theorem witness_RequestCausesAreFree :
    let s := at64 |> conf { Config.default with maskedIrq := .queue none } |> mode 0 |> waitingIrq [5]
    (truncX s.cfg 4).toNat ≤ 4 ∧ (∀ c ∈ s.pending, truncX s.cfg c = c ∧ 4 < c.toNat) ∧ s.priv = 0 ∧
      (sampleIrq (takeInput s).1 (takeInput s).2).1 = some 5 ∧
      (nextOf (step s)).map (fun t => t.csr.kcause) = some 5 :=
  ⟨by decide, fun c hc => by obtain rfl : c = 5 := List.mem_singleton.1 hc; decide, by decide, by decide, by decide⟩

/-- ReturnsFromTraps: the saved levels 0 and 2, at levels 3 and 1. -/
theorem witness_ReturnsFromTraps :
    at64.priv = 3 ∧ at64.csr.mpriv.extractLsb' 0 2 ≠ 2 ∧ (csr 4 2 at64).csr.mpriv.extractLsb' 0 2 = 2 ∧
      (csr 4 2 at64).priv = 3 ∧ 1 ≤ (mode 1 at64).priv ∧ (mode 1 at64).csr.kpriv.extractLsb' 0 2 ≠ 2 ∧
      (at64 |> mode 1 |> csr 2052 0x102).csr.kpriv.extractLsb' 0 2 = 2 := by decide

/-- PrivilegedBelowLevel: below each level, and each policy. -/
theorem witness_PrivilegedBelowLevel :
    (mode 1 at64).priv ≠ 3 ∧ (mode 0 at64).priv = 0 ∧ at64.cfg.privViolation = .refuse ∧
      (conf { Config.default with privViolation := .ignore } at64).cfg.privViolation = .ignore ∧
      (conf { Config.default with privViolation := .trap 9 } at64).cfg.privViolation = .trap 9 := by decide

/-- CsrReads, CsrWrites: a named CSR exactly at its level and just below it; a value that keeps mstatus[2:1] legal.
CsrRefusals: a reserved number, Machine mode, a value that would make mstatus[2:1] 2. -/
theorem witness_csrs :
    (mode 1 at64).csr.read? 2049 = some 0 ∧ csrOpen (mode 1 at64) 2049 ∧ ¬ csrOpen (mode 0 at64) 2049 ∧
      at64.csr.read? 0 = some 6 ∧ csrOpen at64 0 ∧ ¬ csrOpen (mode 1 at64) 0 ∧
      (at64.readReg 14).extractLsb' 1 2 ≠ 2 ∧
      (7 : Word).extractLsb' 1 2 ≠ 2 ∧ (∀ k, k < 64 → (7 : Word).getLsbD k = (decide (k = 0) || (6 : Word).getLsbD k)) ∧
      (2 : Word).extractLsb' 1 2 ≠ 2 ∧
      (∀ k, k < 64 → (2 : Word).getLsbD k = (!decide (k = 2) && (6 : Word).getLsbD k)) ∧
      (5 : BitVec 12).toNat ∉ namedCsrs ∧ at64.priv = 3 ∧ ((reg 14 4 at64).readReg 14).extractLsb' 1 2 = 2 := by
  unfold csrOpen
  decide

/-- PortInput, PortOutput: the lowest permitted level, a datum supplied and none. -/
theorem witness_ports :
    1 ≤ (mode 1 at64).priv ∧ (supplied [0x80] (mode 1 at64)).ports.stream = 0x80 :: [] ∧
      (mode 1 at64).ports.stream = [] := by decide

/-- ConditionalJumps: each condition holds for one pair of values and fails for another. -/
theorem witness_ConditionalJumps :
    (reg 14 5 at64).readReg 14 ≠ at64.readReg 15 ∧ at64.readReg 14 = at64.readReg 15 ∧
      (at64.readReg 15).toNat < ((reg 14 5 at64).readReg 14).toNat ∧
      signedX at64.cfg ((reg 14 (-1) at64).readReg 14) < signedX at64.cfg (at64.readReg 15) := by decide

end Sys2Proof.Tests
end

