-- ==== Sys2Proof/Proofs/StepCases.lean ====
section
/-! SUPPORT. What an instruction and a step can do when they answer a next state, said once for all 157 instructions. -/

namespace Sys2Proof.Machine

/-! ## The forms of completion -/

/-- The forms in which an instruction completes, with the guards that the invariants of a step rely on: the written
register is one the instruction names, the stored bytes are backed, the level is high enough. Each form is an update by
the named operations of Ops.lean. -/
inductive Completes (i : Instr) (s : State) : State → Prop where
  /-- IP alone advances: FENCE, a jump not taken, a CSR the level may not write, an ignored privilege violation -/
  | advance : Completes i s s.advance
  /-- a register result -/
  | register (rd : Reg) (v : Word) (hrd : rd ∈ i.regs) : Completes i s (s.setReg rd v)
  /-- a store -/
  | store (a : Word) (sz : Size) (v : Word) (ha : s.accessible a sz = true) : Completes i s (s.memWrite a sz v).advance
  /-- a store and a register result: SC.x, ACMPXCHG.x, AX*.x -/
  | storeRegister (a : Word) (sz : Size) (v : Word) (rd : Reg) (w : Word) (ha : s.accessible a sz = true)
      (hrd : rd ∈ i.regs) : Completes i s ((s.memWrite a sz v).setReg rd w)
  /-- a register result and a new link: LL.x -/
  | link (sz : Size) (rs1 rd : Reg) (v : Word) (ha : s.accessible (s.atomAddr sz rs1) sz = true) (hrd : rd ∈ i.regs) :
      Completes i s { s.setReg rd v with link := some ⟨s.atomAddr sz rs1, sz⟩ }
  /-- a conditional jump that is taken -/
  | jump (a : Word) : Completes i s { s with ip := truncX s.cfg a }
  /-- JAL and JALR -/
  | jumpLink (rd : Reg) (a : Word) (hrd : rd ∈ i.regs) : Completes i s (jumpLink rd (truncX s.cfg a) s)
  /-- a CSR written at a level that may access it, with a mode that is not 2 -/
  | csr (n : BitVec 12) (v : Word) (hn : s.csrAllowed n = true) (hv : n = 0 → privBits v ≠ 2) :
      Completes i s { s with csr := s.csr.write n (truncX s.cfg v) }.advance
  /-- a trap entry -/
  | trap (cause : Word) {t : State} (ht : takeTrap cause s = .next t) : Completes i s t
  /-- MRET and SYSRET -/
  | returned (target saved : Word) (hs : 1 ≤ s.priv) (htarget : target = s.csr.mra ∨ target = s.csr.kra) {t : State}
      (ht : returnFromTrap target saved s = .next t) : Completes i s t
  /-- a port read -/
  | portRead (rd : Reg) (v : Word) (hs : 1 ≤ s.priv) (hrd : rd ∈ i.regs) :
      Completes i s { s.setReg rd v with ports := s.ports.afterRead }
  /-- a port write -/
  | portWrite (w : PortWrite) (hs : 1 ≤ s.priv) :
      Completes i s { s.advance with ports := { s.ports with log := s.ports.log ++ [w] } }

/-! ## The form of each shared operation -/

section
variable {i : Instr} {s t : State}

theorem completes_of_setReg {rd : Reg} {v : Word} (hrd : rd ∈ i.regs)
    (h : (.next (s.setReg rd v) : Result) = .next t) : Completes i s t := by
  cases h
  exact .register rd v hrd

theorem completes_of_loadInto {sz : Size} {sg : Bool} {rd rs1 : Reg} {imm : BitVec 12} (hrd : rd ∈ i.regs)
    (h : loadInto sz sg rd rs1 imm s = .next t) : Completes i s t := by
  obtain ⟨-, rfl⟩ := loadInto_next h
  exact .register rd _ hrd

theorem completes_of_storeFrom {sz : Size} {rs1 rs2 : Reg} {imm : BitVec 12}
    (h : storeFrom sz rs1 rs2 imm s = .next t) : Completes i s t := by
  obtain ⟨ha, rfl⟩ := storeFrom_next h
  exact .store _ sz _ ha

theorem completes_of_loadLink {sz : Size} {sg : Bool} {rd rs1 : Reg} (hrd : rd ∈ i.regs)
    (h : loadLink sz sg rd rs1 s = .next t) : Completes i s t := by
  obtain ⟨ha, rfl⟩ := loadLink_next h
  exact .link sz rs1 rd _ ha hrd

theorem completes_of_storeConditional {sz : Size} {rd rs1 rs2 : Reg} (hrd : rd ∈ i.regs)
    (h : storeConditional sz rd rs1 rs2 s = .next t) : Completes i s t := by
  obtain ⟨-, ha, rfl⟩ | ⟨-, -, rfl⟩ := storeConditional_next h
  · exact .storeRegister _ sz _ rd 1 ha hrd
  · exact .register rd 0 hrd

theorem completes_of_compareExchange {sz : Size} {rd rs1 rs2 : Reg} (hrd : rd ∈ i.regs)
    (h : compareExchange sz rd rs1 rs2 s = .next t) : Completes i s t := by
  obtain ⟨ha, rfl⟩ := compareExchange_next h
  split
  · exact .storeRegister _ sz _ rd _ ha hrd
  · exact .register rd _ hrd

theorem completes_of_exchangeOperate {op : Word → Word → Word} {sz : Size} {sg : Bool} {rd rs1 rs2 : Reg}
    (hrd : rd ∈ i.regs) (h : exchangeOperate op sz sg rd rs1 rs2 s = .next t) : Completes i s t := by
  obtain ⟨ha, rfl⟩ := exchangeOperate_next h
  exact .storeRegister _ sz _ rd _ ha hrd

theorem completes_of_jumpIf {taken : Bool} {imm : BitVec 12} (h : (.next (jumpIf taken imm s) : Result) = .next t) :
    Completes i s t := by
  cases h
  unfold jumpIf
  split
  · exact .jump _
  · exact .advance

theorem completes_of_jumpLink {rd : Reg} {a : Word} (hrd : rd ∈ i.regs)
    (h : (.next (jumpLink rd (truncX s.cfg a) s) : Result) = .next t) : Completes i s t := by
  cases h
  exact .jumpLink rd a hrd

theorem completes_of_csrRead {rd : Reg} {n : BitVec 12} (hrd : rd ∈ i.regs) (h : csrRead rd n s = .next t) :
    Completes i s t := by
  obtain ⟨v, -, rfl⟩ := csrRead_next h
  exact .register rd _ hrd

theorem completes_of_csrModify {f : Word → Word} {n : BitVec 12} (h : csrModify f n s = .next t) :
    Completes i s t := by
  obtain ⟨v, -, ⟨hn, hv, rfl⟩ | ⟨-, rfl⟩⟩ := csrModify_next h
  · exact .csr n (f v) hn hv
  · exact .advance

/-- A privileged instruction: what its body does at its level, and below it what `PRIV_VIOLATION` gives. -/
theorem completes_of_privileged {need : BitVec 2} {body : State → Result} (h : privileged need body s = .next t)
    (hbody : need ≤ s.priv → body s = .next t → Completes i s t) : Completes i s t := by
  obtain ⟨hs, hb⟩ | ⟨-, hp⟩ := privileged_next h
  · exact hbody hs hb
  · obtain ⟨-, rfl⟩ | ⟨cause, -, ht⟩ := privViolation_next hp
    · exact .advance
    · exact .trap cause ht

theorem completes_of_portIn {sz : Size} {sg : Bool} {rd rs1 : Reg} (hrd : rd ∈ i.regs)
    (h : privileged 1 (portIn sz sg rd rs1) s = .next t) : Completes i s t :=
  completes_of_privileged h fun hs hb => by
    rw [portIn_eq] at hb
    cases hb
    exact .portRead rd _ hs hrd

theorem completes_of_portOut {sz : Size} {rs1 rs2 : Reg} (h : privileged 1 (portOut sz rs1 rs2) s = .next t) :
    Completes i s t :=
  completes_of_privileged h fun hs hb => by
    rw [portOut_eq] at hb
    cases hb
    exact .portWrite _ hs

end

/-! ## Instructions and steps -/

/-- What an instruction can do: a case split over the 157 arms of the dispatch, each by the form of the shared operation
that the arm calls. -/
theorem exec_completes {i : Instr} {s t : State} (h : exec i s = .next t) : Completes i s t := by
  cases i with
  | add | sub | and | or | xor | shr | asr | shl | cch | bch | slt
  | addi | andi | ori | xori | shri | asri | shli | cchi | bchi | slti | lui
  | mul | mulh | smulh | div | sdiv | mod | smod
  | addQ | subQ | andQ | orQ | xorQ | shrQ | asrQ | shlQ | cchQ | bchQ | sltQ
  | addiQ | andiQ | oriQ | xoriQ | shriQ | asriQ | shliQ | cchiQ | bchiQ | sltiQ
  | mulQ | mulhQ | smulhQ | divQ | sdivQ | modQ | smodQ => exact completes_of_setReg List.mem_cons_self h
  | ldb | ldsb | ldw | ldsw | ldd | ldq | ldsd => exact completes_of_loadInto List.mem_cons_self h
  | stb | stw | std | stq => exact completes_of_storeFrom h
  | jal | jalr => exact completes_of_jumpLink List.mem_cons_self h
  | jeq | jlt | jslt | jne | jge | jsge => exact completes_of_jumpIf h
  | syscall | sysbreak => exact .trap _ h
  | mret =>
    refine completes_of_privileged h fun hs ht => .returned _ _ ?_ (.inl rfl) ht
    exact BitVec.le_trans (by decide) hs
  | sysret => exact completes_of_privileged h fun hs ht => .returned _ _ hs (.inr rfl) ht
  | csrr => exact completes_of_csrRead List.mem_cons_self h
  | csrw | csrs | csrc => exact completes_of_csrModify h
  | fence => cases h; exact .advance
  | inb | inw | ind | insb | insw => exact completes_of_portIn List.mem_cons_self h
  | outb | outw | outd => exact completes_of_portOut h
  | llB | llW | llD | llSb | llSw | llQ | llSd => exact completes_of_loadLink List.mem_cons_self h
  | scB | scW | scD | scQ => exact completes_of_storeConditional List.mem_cons_self h
  | acmpxchgB | acmpxchgW | acmpxchgD | acmpxchgQ => exact completes_of_compareExchange List.mem_cons_self h
  | axaddB | axaddW | axaddD | axaddSb | axaddSw | axaddQ | axaddSd
  | axsubB | axsubW | axsubD | axsubSb | axsubSw | axsubQ | axsubSd
  | axandB | axandW | axandD | axandSb | axandSw | axandQ | axandSd
  | axiorB | axiorW | axiorD | axiorSb | axiorSw | axiorQ | axiorSd
  | axxorB | axxorW | axxorD | axxorSb | axxorSw | axxorQ | axxorSd
  | axmaxB | axmaxW | axmaxD | axmaxSb | axmaxSw | axmaxQ | axmaxSd
  | axminB | axminW | axminD | axminSb | axminSw | axminQ | axminSd =>
    exact completes_of_exchangeOperate List.mem_cons_self h

/-- What a step has received before it enters a trap or fetches: the request it takes, if any, and the state after the
external writes and the sampling. -/
def State.received (s : State) : Option Word × State := sampleIrq (takeInput s).1 (takeInput s).2

/-- Receiving changes memory, the link, the queue and the list of inputs alone. -/
theorem State.received_eq (s : State) :
    s.received.2 = { s with
      mem := (takeInput s).2.mem
      link := (takeInput s).2.link
      pending := s.received.2.pending
      inputs := (takeInput s).2.inputs } := by
  obtain ⟨⟨p, hp⟩, -⟩ := sampleIrq_spec (takeInput s).1 (takeInput s).2
  rw [State.received, hp]
  conv_lhs => rw [takeInput_eq]

@[simp] theorem State.received_cfg (s : State) : s.received.2.cfg = s.cfg := by
  rw [State.received_eq]

/-- What a step can do: the entry of the trap for the request it takes, or the instruction it fetches. -/
theorem step_cases {s t : State} (h : step s = .next t) :
    (∃ cause, s.received.1 = some cause ∧ takeTrap cause s.received.2 = .next t) ∨
      ∃ i, s.received.1 = none ∧ fetch s.received.2 = .instr i ∧ exec i s.received.2 = .next t := by
  change stepWith s.received.1 s.received.2 = .next t at h
  unfold stepWith at h
  split at h
  · exact .inl ⟨_, by assumption, h⟩
  · split at h
    · exact .inr ⟨_, by assumption, by assumption, h⟩
    · cases h
    · cases h

end Sys2Proof.Machine
end

