-- ==== Sys2Proof/Proofs/Configuration.lean ====
section
/-! PROOF. The configuration is constant (47_srm64.md R380, 70_reset_and_hazards.md R517). -/

namespace Sys2Proof.Machine

theorem takeTrap_cfg {cause : Word} {s t : State} (h : takeTrap cause s = .next t) : t.cfg = s.cfg := by
  obtain ⟨-, rfl⟩ | ⟨-, rfl⟩ := takeTrap_next h
  · exact s.enterKernel_cfg cause
  · exact s.enterMachine_cfg cause

theorem Completes.cfg_eq {i : Instr} {s t : State} (h : Completes i s t) : t.cfg = s.cfg := by
  cases h with
  | advance | store | jump | csr | portWrite => rfl
  | register rd v | link _ _ rd v | portRead rd v => exact s.setReg_cfg rd v
  | storeRegister a sz v rd w => exact (State.setReg_cfg _ rd w).trans (s.memWrite_cfg a sz v)
  | jumpLink rd a => exact jumpLink_cfg rd _ s
  | trap _ ht => exact takeTrap_cfg ht
  | returned _ _ _ _ ht =>
    obtain ⟨-, rfl⟩ := returnFromTrap_next ht
    rfl

/-- Settles O11: what a step receives leaves the configuration, and so does every form in which the trap entry or the
instruction that follows completes. -/
theorem stepKeepsConfiguration : Obligations.StepKeepsConfiguration := by
  unfold Obligations.StepKeepsConfiguration
  intro s t h
  obtain ⟨cause, -, ht⟩ | ⟨i, -, -, hi⟩ := step_cases h
  · exact (takeTrap_cfg ht).trans s.received_cfg
  · exact (exec_completes hi).cfg_eq.trans s.received_cfg

end Sys2Proof.Machine
end

