-- ==== Sys2Proof/Proofs/Csrs.lean ====
section
/-! PROOF. The CSRs: which number names which register, and what CSRR and the refusals give (10_state.md R31 to R43,
44_system.md R246 to R251). -/

namespace Sys2Proof.Machine

/-! ## Numbers and registers -/

theorem Csrs.read?_eq_none_iff (k : Csrs) (n : BitVec 12) : k.read? n = none ↔ n.toNat ∉ namedCsrs := by
  unfold Csrs.read?
  split <;> simp_all [namedCsrs]

/-- A write to a reserved number changes nothing. -/
theorem Csrs.write_of_notNamed (k : Csrs) {n : BitVec 12} (v : Word) (hn : n.toNat ∉ namedCsrs) : k.write n v = k := by
  unfold Csrs.write
  split <;> simp_all [namedCsrs]

theorem Csrs.write_mstatus (k : Csrs) (n : BitVec 12) (v : Word) :
    (k.write n v).mstatus = if n = 0 then v else k.mstatus := by
  have hn : n = 0 ↔ n.toNat = 0 := BitVec.toNat_inj.symm
  rw [if_congr hn rfl rfl]
  unfold Csrs.write
  split <;> simp_all

theorem Csrs.write_miva (k : Csrs) (n : BitVec 12) (v : Word) :
    (k.write n v).miva = if n = 1 then v else k.miva := by
  have hn : n = 1 ↔ n.toNat = 1 := BitVec.toNat_inj.symm
  rw [if_congr hn rfl rfl]
  unfold Csrs.write
  split <;> simp_all

/-! ## The level a CSR needs -/

/-- The test of the model is the level formula of D12 in numbers. -/
theorem State.csrAllowed_iff (s : State) (n : BitVec 12) : s.csrAllowed n = true ↔ csrOpen s n := by
  have hneed : (csrNeed n).toNat = 3 - n.toNat / 1024 := by
    have hn := n.isLt
    change (2 ^ 2 - (n.toNat >>> 10) % 2 ^ 2 + 3) % 2 ^ 2 = _
    rw [Nat.shiftRight_eq_div_pow]
    omega
  rw [State.csrAllowed, decide_eq_true_iff, BitVec.le_def, hneed, csrOpen]

/-- In User mode no named CSR may be accessed: the numbers of level 0 are all reserved. -/
theorem notNamed_of_csrAllowed_user {s : State} {n : BitVec 12} (hs : s.priv = 0) (hn : s.csrAllowed n = true) :
    n.toNat ∉ namedCsrs := by
  rw [State.csrAllowed_iff, csrOpen, hs] at hn
  have h0 : 3 - n.toNat / 1024 ≤ 0 := hn
  simp only [namedCsrs, List.mem_cons, List.not_mem_nil, or_false]
  omega

/-- `miva` is accessible in Machine mode alone. -/
theorem priv_of_csrAllowed_miva {s : State} (h : s.csrAllowed 1 = true) : s.priv = 3 := by
  rw [State.csrAllowed_iff, csrOpen] at h
  have hlow : 3 ≤ s.priv.toNat := h
  have hp := s.priv.isLt
  exact BitVec.eq_of_toNat_eq (show s.priv.toNat = 3 by omega)

/-! ## CSRR -/

theorem exec_csrr {rd : Reg} {n : BitVec 12} {s : State} {v : Word} (h : s.csr.read? n = some v) :
    exec (.csrr rd n) s = .next (s.setReg rd (if s.csrAllowed n then v else 0)) := by
  change csrRead rd n s = _
  rw [csrRead, h]

/-- Settles O47: CSRR ends in a register result, the CSR where `csrAllowed` says so, which is the formula of D12. -/
theorem csrReads : Obligations.CsrReads := by
  unfold Obligations.CsrReads
  refine ⟨fun rd n s v hv => ⟨fun ho => ?_, fun hc => ?_⟩, fun k => ?_⟩
  · exact givesReg_of_setReg (exec_csrr hv) (by rw [if_pos ((s.csrAllowed_iff n).2 ho)])
  · refine givesReg_of_setReg (exec_csrr hv) ?_
    rw [if_neg fun h => hc ((s.csrAllowed_iff n).1 h)]
    exact truncX_zero s.cfg
  · exact ⟨rfl, rfl, rfl, rfl, rfl, rfl, rfl, rfl, rfl, rfl⟩

/-! ## The refusals -/

theorem csrRead_reserved {n : BitVec 12} (hn : n.toNat ∉ namedCsrs) (rd : Reg) (s : State) :
    csrRead rd n s = .refused .reservedCsr := by
  rw [csrRead, (Csrs.read?_eq_none_iff s.csr n).2 hn]

theorem csrModify_reserved {n : BitVec 12} (hn : n.toNat ∉ namedCsrs) (f : Word → Word) (s : State) :
    csrModify f n s = .refused .reservedCsr := by
  rw [csrModify, (Csrs.read?_eq_none_iff s.csr n).2 hn]

/-- A write that would put 2 into mstatus[2:1] is refused in Machine mode. -/
theorem csrModify_level2 {f : Word → Word} {s : State} (hs : s.priv = 3) (hf : privBits (f s.csr.mstatus) = 2) :
    csrModify f 0 s = .refused .privilegeLevel2 := by
  have ha : s.csrAllowed 0 = true := by rw [State.csrAllowed, hs]; decide
  have hr : s.csr.read? 0 = some s.csr.mstatus := rfl
  rw [csrModify, hr]
  change (if s.csrAllowed 0 then _ else _) = _
  rw [if_pos ha, if_pos ⟨rfl, hf⟩]

/-- Bit 1 of mstatus taken from level 3 leaves level 2. -/
theorem privBits_clear_bit1 {m : Word} (h : privBits m = 3) : privBits (m &&& ~~~(1#64 <<< 1)) = 2 := by
  have h1 : m.getLsbD 2 = true := by simpa [privBits] using congrArg (·.getLsbD 1) h
  apply BitVec.eq_of_getLsbD_eq
  intro i hi
  rcases (show i = 0 ∨ i = 1 by omega) with rfl | rfl
  · simp [privBits]
  · simp [privBits, h1]

/-- Settles O49: a reserved number has no register to read, and the two writes would put 2 into mstatus[2:1]. -/
theorem csrRefusals : Obligations.CsrRefusals := by
  unfold Obligations.CsrRefusals
  intro rd n sel s
  refine ⟨fun hn => ⟨?_, ?_, ?_, ?_⟩, fun hs => ⟨fun h2 => ?_, ?_⟩⟩
  · exact csrRead_reserved hn rd s
  · exact csrModify_reserved hn _ s
  · exact csrModify_reserved hn _ s
  · exact csrModify_reserved hn _ s
  · exact csrModify_level2 (f := fun _ => s.readReg rd) hs h2
  · exact csrModify_level2 (f := fun v => v &&& ~~~(1#64 <<< 1)) hs (privBits_clear_bit1 hs)

end Sys2Proof.Machine
end

