-- ==== Sys2Proof/Proofs/Requests.lean ====
section
/-! PROOF. Sampling an external request: one equation per case of the policy and of the mask (60_exceptions.md R464, R473,
R474). -/

namespace Sys2Proof.Machine

/-! ## What waits and what is picked -/

theorem pick_lt {ws : List Word} (h : ws ≠ []) : pick ws < ws.length := by
  have hpos : 0 < ws.length := List.length_pos_of_ne_nil h
  unfold pick
  split
  · exact hpos
  · exact Nat.mod_lt _ hpos

/-- What is picked from a list that is not empty is one of its entries. -/
theorem getElem?_pick {ws : List Word} (h : ws ≠ []) : ∃ c, ws[pick ws]? = some c :=
  ⟨ws[pick ws]'(pick_lt h), List.getElem?_eq_getElem (pick_lt h)⟩

/-- Where nothing waits, the policy keeps the queue as it is. -/
theorem keepWaiting_of_waiting_nil {policy : IrqPolicy} {pending : List Word} {irq : Option Word}
    (h : waiting policy pending irq = []) : keepWaiting policy pending irq = pending := by
  cases policy with
  | ignore => rfl
  | queue depth =>
    obtain ⟨rfl, hirq⟩ := List.append_eq_nil_iff.1 h
    cases depth <;> simp [keepWaiting, hirq]

/-- What the policy keeps was in the queue or is the new request. -/
theorem mem_of_mem_keepWaiting {policy : IrqPolicy} {pending : List Word} {irq : Option Word} {c : Word}
    (h : c ∈ keepWaiting policy pending irq) : c ∈ pending ++ irq.toList := by
  unfold keepWaiting at h
  split at h
  · exact List.mem_append_left _ h
  · exact h
  · split at h
    · exact h
    · exact List.mem_append_left _ h

/-- A bounded queue within its depth stays within it. -/
theorem length_keepWaiting_le {depth : Nat} {pending : List Word} {irq : Option Word} (h : pending.length ≤ depth) :
    (keepWaiting (.queue (some depth)) pending irq).length ≤ depth := by
  rw [keepWaiting]
  split
  · have : irq.toList.length ≤ 1 := by cases irq <;> simp
    rw [List.length_append]
    omega
  · exact h

/-! ## The cases of the sampling -/

/-- A core without S samples nothing. -/
theorem sampleIrq_of_absent (irq : Option Word) {s : State} (hS : s.cfg.extS = false) :
    sampleIrq irq s = (none, s) := by
  simp [sampleIrq, hS]

theorem sampleIrq_of_waiting_nil (irq : Option Word) {s : State}
    (hw : waiting s.cfg.maskedIrq s.pending (requestOf s.cfg irq) = []) : sampleIrq irq s = (none, s) := by
  simp [sampleIrq, hw]

/-- While requests are masked none is taken, and the queue is what the policy keeps. -/
theorem sampleIrq_of_masked (irq : Option Word) {s : State} (hS : s.cfg.extS = true) (hm : s.irqPermitted = false) :
    sampleIrq irq s =
      (none, { s with pending := keepWaiting s.cfg.maskedIrq s.pending (requestOf s.cfg irq) }) := by
  by_cases hw : waiting s.cfg.maskedIrq s.pending (requestOf s.cfg irq) = []
  · rw [sampleIrq_of_waiting_nil irq hw, keepWaiting_of_waiting_nil hw]
  · obtain ⟨c, hc⟩ := getElem?_pick hw
    simp [sampleIrq, hS, hm, hc]

/-- Where requests are permitted and masked ones are lost, the new request is taken. -/
theorem sampleIrq_of_permitted_ignore (irq : Option Word) {s : State} (hS : s.cfg.extS = true)
    (hp : s.irqPermitted = true) (hi : s.cfg.maskedIrq = .ignore) :
    sampleIrq irq s = (requestOf s.cfg irq, s) := by
  cases hr : requestOf s.cfg irq with
  | none => exact sampleIrq_of_waiting_nil irq (by simp [waiting, hi, hr])
  | some c => simp [sampleIrq, hS, hp, hi, hr, waiting, pick]

/-- Where requests are permitted and some wait in the queue, one of them is taken and the others stay. -/
theorem sampleIrq_of_permitted_queue (irq : Option Word) {s : State} {depth : Option Nat} (hS : s.cfg.extS = true)
    (hp : s.irqPermitted = true) (hq : s.cfg.maskedIrq = .queue depth)
    (hw : s.pending ++ (requestOf s.cfg irq).toList ≠ []) :
    ∃ k c, (s.pending ++ (requestOf s.cfg irq).toList)[k]? = some c ∧
      sampleIrq irq s =
        (some c, { s with pending := (s.pending ++ (requestOf s.cfg irq).toList).eraseIdx k }) := by
  obtain ⟨c, hc⟩ := getElem?_pick hw
  exact ⟨_, c, hc, by simp [sampleIrq, hS, hp, hq, waiting, hc]⟩

/-- The queue after the sampling: as it was, what the policy keeps, or the waiting requests without the one taken. -/
theorem sampleIrq_pending_cases (irq : Option Word) (s : State) :
    (sampleIrq irq s).2.pending = s.pending ∨
      (sampleIrq irq s).2.pending = keepWaiting s.cfg.maskedIrq s.pending (requestOf s.cfg irq) ∨
      ∃ k < (s.pending ++ (requestOf s.cfg irq).toList).length,
        (sampleIrq irq s).2.pending = (s.pending ++ (requestOf s.cfg irq).toList).eraseIdx k := by
  by_cases hw : waiting s.cfg.maskedIrq s.pending (requestOf s.cfg irq) = []
  · exact .inl (by rw [sampleIrq_of_waiting_nil irq hw])
  cases hS : s.cfg.extS with
  | false => exact .inl (by rw [sampleIrq_of_absent irq hS])
  | true =>
    cases hp : s.irqPermitted with
    | false => exact .inr (.inl (by rw [sampleIrq_of_masked irq hS hp]))
    | true =>
      cases hq : s.cfg.maskedIrq with
      | ignore => exact .inl (by rw [sampleIrq_of_permitted_ignore irq hS hp hq])
      | queue depth =>
        obtain ⟨k, c, hk, h⟩ := sampleIrq_of_permitted_queue irq hS hp hq (by simpa [hq, waiting] using hw)
        exact .inr (.inr ⟨k, (List.getElem?_eq_some_iff.1 hk).1, by rw [h]⟩)

/-- What waits after the sampling waited before it or is the new request. -/
theorem mem_of_mem_sampleIrq_pending {irq : Option Word} {s : State} {c : Word}
    (h : c ∈ (sampleIrq irq s).2.pending) : c ∈ s.pending ++ (requestOf s.cfg irq).toList := by
  obtain hq | hq | ⟨k, -, hq⟩ := sampleIrq_pending_cases irq s <;> rw [hq] at h
  · exact List.mem_append_left _ h
  · exact mem_of_mem_keepWaiting h
  · exact List.mem_of_mem_eraseIdx h

/-- The sampling keeps a bounded queue within its depth. -/
theorem length_sampleIrq_pending_le {irq : Option Word} {s : State} {depth : Nat}
    (hd : s.cfg.maskedIrq = .queue (some depth)) (h : s.pending.length ≤ depth) :
    (sampleIrq irq s).2.pending.length ≤ depth := by
  obtain hq | hq | ⟨k, hk, hq⟩ := sampleIrq_pending_cases irq s <;> rw [hq]
  · exact h
  · rw [hd]
    exact length_keepWaiting_le h
  · have : (requestOf s.cfg irq).toList.length ≤ 1 := by cases requestOf s.cfg irq <;> simp
    rw [List.length_append] at hk
    rw [List.length_eraseIdx_of_lt (by rwa [List.length_append]), List.length_append]
    omega

/-! ## Masked requests -/

/-- Settles O43, by the cases of the sampling: masked under each policy, permitted with and without a queue. -/
theorem maskedRequests : Obligations.MaskedRequests := by
  unfold Obligations.MaskedRequests
  intro s irq cause hS hcause
  have hnew : requestOf s.cfg (some cause) = some (truncX s.cfg cause) := requestOf_some hcause
  refine ⟨fun hm => ⟨fun hi => ?_, fun hq => ?_, fun depth hq => ⟨fun hroom => ?_, fun hfull => ?_⟩⟩,
    fun hp => ⟨fun hi => ⟨?_, ?_⟩, fun depth hq => ⟨?_, fun hne => ?_⟩⟩⟩
  · rw [sampleIrq_of_masked irq hS hm, hi]
    rfl
  · rw [sampleIrq_of_masked _ hS hm, hq, hnew]
    rfl
  · rw [sampleIrq_of_masked _ hS hm, hq, hnew, keepWaiting, if_pos hroom]
    rfl
  · rw [sampleIrq_of_masked _ hS hm, hq, keepWaiting, if_neg (Nat.not_lt.2 hfull)]
  · rw [sampleIrq_of_permitted_ignore _ hS hp hi, hnew]
  · exact sampleIrq_of_permitted_ignore none hS hp hi
  · simpa [hnew] using sampleIrq_of_permitted_queue (some cause) hS hp hq (by simp [hnew])
  · have hnone : requestOf s.cfg none = none := rfl
    simpa [hnone] using sampleIrq_of_permitted_queue none hS hp hq (by simpa [hnone] using hne)

end Sys2Proof.Machine
end

