-- ==== Sys2Proof/Proofs/Fetch.lean ====
section
/-! PROOF. What a fetch gives, case by case, and the step that follows it (10_state.md R29, 20_memory.md R63, R73, R79,
60_exceptions.md R464). -/

namespace Sys2Proof.Machine

/-! ## The cases of a fetch -/

theorem Stored.touches_iff (a n : Nat) (l : List Nat) :
    Stored.touches a n l = true ↔ ∃ b ∈ l, a ≤ b ∧ b < a + n := by
  simp [Stored.touches]

/-- No address of a run of bytes is in the list. -/
theorem Stored.touches_eq_false {a n : Nat} {l : List Nat} (h : ∀ b ∈ l, b < a ∨ a + n ≤ b) :
    Stored.touches a n l = false := by
  rw [Bool.eq_false_iff, Ne, Stored.touches_iff]
  rintro ⟨b, hb, hab, hbn⟩
  have := h b hb
  omega

section
variable {s : State}

theorem fetch_of_misaligned (ha : s.ip.extractLsb' 0 2 ≠ 0) : fetch s = .refused .misalignedIp := if_pos ha

theorem fetch_of_unbacked (ha : s.ip.extractLsb' 0 2 = 0) (hb : s.accessible s.ip .d = false) :
    fetch s = .fault .unbackedAddress := by
  rw [fetch, if_neg (not_not_intro ha), hb]
  rfl

theorem fetch_of_modified (ha : s.ip.extractLsb' 0 2 = 0) (hb : s.accessible s.ip .d = true)
    (hc : s.cfg.ifetchCoherent = false) (hs : ∃ b ∈ s.stored, s.ip.toNat ≤ b ∧ b < s.ip.toNat + 4) :
    fetch s = .refused .fetchOfModifiedCode := by
  rw [fetch, if_neg (not_not_intro ha), hb, hc, (Stored.touches_iff _ _ _).2 hs]
  rfl

/-- The guards of a fetch that reaches the decoder. -/
def State.fetchable (s : State) : Prop :=
  s.ip.extractLsb' 0 2 = 0 ∧ s.accessible s.ip .d = true ∧
    (s.cfg.ifetchCoherent = true ∨ ∀ b ∈ s.stored, b < s.ip.toNat ∨ s.ip.toNat + 4 ≤ b)

/-- Behind its guards a fetch is what the decoder says of the four bytes at IP. -/
theorem fetch_of_fetchable (h : s.fetchable) :
    (∀ i rest, decodeBytes s.cfg (fetchBytes s.mem s.ip.toNat) = .ok (i, rest) → fetch s = .instr i) ∧
      ∀ e, decodeBytes s.cfg (fetchBytes s.mem s.ip.toNat) = .error e → fetch s = .refused (refusalOf e) := by
  obtain ⟨ha, hb, hc⟩ := h
  have hreadable : (!s.cfg.ifetchCoherent && Stored.touches s.ip.toNat 4 s.stored) = false := by
    obtain hc | hs := hc
    · rw [hc]; rfl
    · rw [Stored.touches_eq_false hs, Bool.and_false]
  refine ⟨fun i rest hd => ?_, fun e hd => ?_⟩ <;>
    rw [fetch, if_neg (not_not_intro ha), hb, hreadable, hd] <;> rfl

/-- The instruction that a fetch gives is one the decoder accepts. -/
theorem decode_of_fetch {i : Instr} (h : fetch s = .instr i) : ∃ w, decode s.cfg w = .ok i := by
  unfold fetch at h
  repeat' split at h
  all_goals cases h
  rename_i hd
  simp only [fetchBytes, decodeBytes] at hd
  split at hd
  · rename_i hw
    cases hd
    exact ⟨_, hw⟩
  · cases hd

/-! ## The step after a fetch -/

theorem step_of_fetch_instr {s' : State} {i : Instr} (hr : s.received = (none, s')) (hf : fetch s' = .instr i) :
    step s = exec i s' := by
  change stepWith s.received.1 s.received.2 = _
  rw [hr, stepWith, hf]

theorem step_of_fetch_fault {s' : State} {f : Fault} (hr : s.received = (none, s')) (hf : fetch s' = .fault f) :
    step s = .fault f := by
  change stepWith s.received.1 s.received.2 = _
  rw [hr, stepWith, hf]

theorem step_of_fetch_refused {s' : State} {r : Refusal} (hr : s.received = (none, s'))
    (hf : fetch s' = .refused r) : step s = .refused r := by
  change stepWith s.received.1 s.received.2 = _
  rw [hr, stepWith, hf]

/-- With no input held ready and no request waiting, a step receives nothing. -/
theorem State.received_nothing (hi : s.inputs = []) (hp : s.pending = []) : s.received = (none, s) := by
  rw [State.received, takeInput_nothing s hi]
  exact sampleIrq_nothing s hp

end

/-! ## The statements -/

/-- Settles O5: behind its guards the fetch gives the decoded instruction, and the step is its meaning. -/
theorem stepRunsDecodedInstruction : Obligations.StepRunsDecodedInstruction := by
  unfold Obligations.StepRunsDecodedInstruction
  refine ⟨fun s s' i rest hr ha hb hc hd => ?_, fun s hi hp => State.received_nothing hi hp⟩
  exact step_of_fetch_instr hr ((fetch_of_fetchable ⟨ha, hb, hc⟩).1 i rest hd)

/-- Settles O6: each stop of the fetch is a stop of the step. -/
theorem fetchStops : Obligations.FetchStops := by
  unfold Obligations.FetchStops
  intro s hi hp
  have hr : s.received = (none, s) := State.received_nothing hi hp
  refine ⟨fun ha => ?_, fun ha => ⟨fun hb => ?_, fun hb => ⟨fun hc hs => ?_, fun hc e hd => ?_⟩⟩⟩
  · exact step_of_fetch_refused hr (fetch_of_misaligned ha)
  · exact step_of_fetch_fault hr (fetch_of_unbacked ha hb)
  · exact step_of_fetch_refused hr (fetch_of_modified ha hb hc hs)
  · exact step_of_fetch_refused hr ((fetch_of_fetchable ⟨ha, hb, hc⟩).2 e hd)

end Sys2Proof.Machine
end

