-- ==== Sys2Proof/Proofs/Invariant.lean ====
section
/-! PROOF. The invariant of the machine: each named update keeps it, so every form of completion and every step does
(10_state.md R51, 20_memory.md R66, R73, 60_exceptions.md R469, R473, R474), and reset meets it. -/

namespace Sys2Proof.Machine

/-! ## Values of `XLEN` bits -/

section
variable {c : Config}

@[simp] theorem fitsX_truncX (v : Word) : fitsX c (truncX c v) := truncX_truncX c v

@[simp] theorem fitsX_zero : fitsX c 0 := truncX_zero c

/-- A number narrower than 32 bits fits every `XLEN`. -/
theorem fitsX_setWidth {w : Nat} (v : BitVec w) (h : w ≤ 32) : fitsX c (v.setWidth 64) := truncX_setWidth c v h

theorem fitsX_alignTo {sz : Size} {a : Word} (h : fitsX c a) : fitsX c (alignTo sz a) := truncX_alignTo c sz a h

/-- The bits above `XLEN` are the ones that matter. -/
theorem fitsX_iff (v : Word) : fitsX c v ↔ ∀ i, c.xlen ≤ i → v.getLsbD i = false := by
  constructor
  · intro h i hi
    rw [← h, truncX_getLsbD, decide_eq_false (by omega), Bool.false_and]
  · intro h
    apply BitVec.eq_of_getLsbD_eq
    intro i _
    rw [truncX_getLsbD]
    by_cases hi : i < c.xlen
    · simp [hi]
    · simp [hi, h i (by omega)]

theorem two_lt_xlen (c : Config) : 2 < c.xlen := by
  unfold Config.xlen
  split <;> decide

/-- Another mode leaves mstatus an `XLEN`-bit value. -/
theorem fitsX_withPriv {m : Word} (p : BitVec 2) (h : fitsX c m) : fitsX c (withPriv m p) := by
  rw [fitsX_iff] at h ⊢
  intro i hi
  have := two_lt_xlen c
  rw [withPriv_getLsbD, if_neg (by omega), if_neg (by omega), h i hi]

/-- The mode lies in the low `XLEN` bits. -/
@[simp] theorem privBits_truncX (v : Word) : privBits (truncX c v) = privBits v := by
  have := two_lt_xlen c
  apply BitVec.eq_of_getLsbD_eq
  intro i hi
  simp only [privBits, BitVec.getLsbD_extractLsb', truncX_getLsbD, decide_eq_true (show 1 + i < c.xlen by omega),
    Bool.true_and]

/-! ## The CSRs -/

/-- A write of an `XLEN`-bit value keeps the CSRs `XLEN` bits wide. -/
theorem Csrs.fits_write {k : Csrs} {v : Word} (n : BitVec 12) (hk : k.fits c) (hv : fitsX c v) :
    (k.write n v).fits c := by
  obtain ⟨h0, h1, h2, h3, h4, h5, h6, h7, h8, h9⟩ := hk
  unfold Csrs.write
  split <;> refine ⟨?_, ?_, ?_, ?_, ?_, ?_, ?_, ?_, ?_, ?_⟩ <;> assumption

/-- Another mode keeps the CSRs `XLEN` bits wide. -/
theorem Csrs.fits_withPriv {k : Csrs} (p : BitVec 2) (h : k.fits c) :
    Csrs.fits c { k with mstatus := withPriv k.mstatus p } := by
  obtain ⟨hm, hrest⟩ := h
  exact ⟨fitsX_withPriv p hm, hrest⟩

end

/-! ## Memory within what is backed -/

theorem Memory.within_writeLE {mm : List Region} {m : Memory} {a n : Nat} (v : Word) (hm : m.within mm)
    (ha : backedRange mm a n = true) : (m.writeLE a n v).within mm := by
  intro b hb
  rw [Memory.read_writeLE] at hb
  split at hb
  · rename_i hin
    exact (backedRange_iff mm a n).1 ha b hin.1 hin.2
  · exact hm b hb

theorem Memory.within_load {mm : List Region} {m : Memory} {a : Nat} {bs : List Byte} (hm : m.within mm)
    (ha : ∀ k < bs.length, backed mm (a + k) = true) : (m.load a bs).within mm := by
  intro b hb
  rw [Memory.read_load] at hb
  split at hb
  · rename_i hab
    by_cases hin : b - a < bs.length
    · have := ha _ hin
      rwa [Nat.add_sub_cancel' hab] at this
    · rw [List.getD_eq_default _ _ (by omega)] at hb
      exact hm b hb
  · exact hm b hb

/-! ## Each update keeps the invariant -/

section
variable {s : State}

theorem State.Inv.withIp {a : Word} (h : s.Inv) (ha : fitsX s.cfg a) : State.Inv { s with ip := a } :=
  { h with ip := ha }

theorem State.Inv.withCsr {k : Csrs} (h : s.Inv) (hk : k.fits s.cfg) (hm : privBits k.mstatus ≠ 2) :
    State.Inv { s with csr := k } :=
  { h with csr := hk, mode := hm }

theorem State.Inv.withLink {l : Link} (h : s.Inv) (ha : fitsX s.cfg l.addr) (hl : alignTo l.size l.addr = l.addr) :
    State.Inv { s with link := some l } :=
  { h with link := fun _ e => Option.some.inj e ▸ ⟨ha, hl⟩ }

theorem State.Inv.withPorts (h : s.Inv) (p : Ports) : State.Inv { s with ports := p } := { h with }

theorem State.Inv.withInputs (h : s.Inv) (l : List StepInput) : State.Inv { s with inputs := l } := { h with }

theorem State.Inv.writeReg (h : s.Inv) (rd : Reg) (v : Word) : (s.writeReg rd v).Inv where
  regs := fun r => by
    rw [State.writeReg_cfg, State.readReg_writeReg]
    split
    · exact fitsX_truncX v
    · exact h.regs r
  ip := by simpa using h.ip
  csr := by simpa using h.csr
  mode := by simpa [State.priv] using h.mode
  mem := by simpa using h.mem
  within := by simpa using h.within
  stored := by simpa using h.stored
  link := by simpa using h.link
  pending := by simpa using h.pending
  causes := by simpa [State.irqCausesFree] using h.causes

theorem State.Inv.advance (h : s.Inv) : s.advance.Inv := h.withIp (fitsX_truncX _)

theorem State.Inv.setReg (h : s.Inv) (rd : Reg) (v : Word) : (s.setReg rd v).Inv := (h.writeReg rd v).advance

theorem State.Inv.jumpLink (h : s.Inv) (rd : Reg) (a : Word) : (jumpLink rd (truncX s.cfg a) s).Inv :=
  (h.writeReg rd s.nextIp).withIp (by rw [State.writeReg_cfg]; exact fitsX_truncX a)

/-- A write by any agent to bytes that are backed. -/
theorem State.Inv.poke {a : Word} {sz : Size} (h : s.Inv) (ha : s.accessible a sz = true) (v : Word) :
    (s.poke a sz v).Inv :=
  { h with
    mem := Memory.wf_writeLE _ _ _ v h.mem
    within := Memory.within_writeLE v h.within ha
    link := fun l hl => by
      rw [State.poke_link] at hl
      obtain hb | hb := breakLink_cases s.cfg.linkGranule s.link a.toNat sz.bytes
      · rw [hb] at hl; cases hl
      · exact h.link l (hb ▸ hl) }

theorem State.Inv.memWrite {a : Word} {sz : Size} (h : s.Inv) (ha : s.accessible a sz = true) (v : Word) :
    (s.memWrite a sz v).Inv :=
  { h.poke ha v with stored := Stored.wf_insertRange _ _ _ h.stored }

theorem State.Inv.setPriv {p : BitVec 2} (h : s.Inv) (hp : p ≠ 2) : (s.setPriv p).Inv :=
  h.withCsr (Csrs.fits_withPriv p h.csr) (by rwa [privBits_withPriv])

/-- A CSR write that leaves a legal mode. -/
theorem State.Inv.writeCsr {n : BitVec 12} {v : Word} (h : s.Inv) (hv : n = 0 → privBits v ≠ 2) :
    State.Inv { s with csr := s.csr.write n (truncX s.cfg v) } := by
  refine h.withCsr (Csrs.fits_write n h.csr (fitsX_truncX v)) ?_
  rw [Csrs.write_mstatus]
  split
  · rename_i hn
    rw [privBits_truncX]
    exact hv hn
  · exact h.mode

/-! ## Traps -/

theorem State.Inv.enterKernel (h : s.Inv) (cause : Word) : (s.enterKernel cause).Inv := by
  obtain ⟨hmstatus, hmiva, hmra, hmcause, hmpriv, hkstatus, hkiva, -, -, -⟩ := h.csr
  exact (h.withCsr (k := (s.enterKernel cause).csr)
    ⟨fitsX_withPriv 1 hmstatus, hmiva, hmra, hmcause, hmpriv, hkstatus, hkiva, h.ip, fitsX_truncX cause,
      fitsX_setWidth s.priv (by decide)⟩
    (by rw [State.enterKernel, privBits_withPriv]; decide)).withIp hkiva

theorem State.Inv.enterMachine (h : s.Inv) (cause : Word) : (s.enterMachine cause).Inv := by
  obtain ⟨hmstatus, hmiva, -, -, -, hkstatus, hkiva, hkra, hkcause, hkpriv⟩ := h.csr
  exact (h.withCsr (k := (s.enterMachine cause).csr)
    ⟨fitsX_withPriv 3 hmstatus, hmiva, h.ip, fitsX_truncX cause, fitsX_setWidth s.priv (by decide), hkstatus, hkiva,
      hkra, hkcause, hkpriv⟩
    (by rw [State.enterMachine, privBits_withPriv]; decide)).withIp hmiva

theorem State.Inv.takeTrap {cause : Word} {t : State} (h : s.Inv) (ht : takeTrap cause s = .next t) : t.Inv := by
  obtain ⟨-, rfl⟩ | ⟨-, rfl⟩ := takeTrap_next ht
  · exact h.enterKernel cause
  · exact h.enterMachine cause

theorem State.Inv.returnFromTrap {target saved : Word} {t : State} (h : s.Inv) (htarget : fitsX s.cfg target)
    (ht : returnFromTrap target saved s = .next t) : t.Inv := by
  obtain ⟨hp, rfl⟩ := returnFromTrap_next ht
  exact (h.setPriv hp).withIp htarget

/-! ## What comes from outside -/

theorem State.Inv.externalWrite (h : s.Inv) (w : ExtWrite) : (externalWrite s w).Inv := by
  obtain ⟨ha, he⟩ | he := externalWrite_cases s w <;> rw [he]
  · exact h.poke ha w.value
  · exact h

theorem State.Inv.externalWrites (ws : List ExtWrite) : ∀ {s : State}, s.Inv → (ws.foldl Machine.externalWrite s).Inv := by
  induction ws with
  | nil => exact fun h => h
  | cons w ws ih => exact fun h => ih (h.externalWrite w)

theorem State.Inv.takeInput (h : s.Inv) : (takeInput s).2.Inv := by
  unfold Machine.takeInput
  split
  · exact h
  · exact State.Inv.externalWrites _ (h.withInputs _)

/-- The sampling keeps the queue within its depth, and adds legal causes alone. -/
theorem State.Inv.sampleIrq (h : s.Inv) (irq : Option Word) : (sampleIrq irq s).2.Inv := by
  have hdepth := fun depth hd => length_sampleIrq_pending_le (irq := irq) hd (h.pending depth hd)
  have hcauses : ∀ c ∈ (Machine.sampleIrq irq s).2.pending, fitsX s.cfg c ∧ 4 < c.toNat := fun c hc => by
    obtain hc | hc := List.mem_append.1 (mem_of_mem_sampleIrq_pending hc)
    · exact h.causes c hc
    · exact requestOf_eq_some (Option.mem_toList.1 hc)
  obtain ⟨⟨p, hp⟩, -⟩ := sampleIrq_spec irq s
  rw [hp] at hdepth hcauses ⊢
  exact { h with pending := hdepth, causes := hcauses }

theorem State.Inv.received (h : s.Inv) : s.received.2.Inv := h.takeInput.sampleIrq _

end

/-! ## Instructions and steps -/

/-- Every form in which an instruction completes keeps the invariant. -/
theorem Completes.inv {i : Instr} {s t : State} (hc : Completes i s t) (h : s.Inv) : t.Inv := by
  cases hc with
  | advance => exact h.advance
  | register rd v => exact h.setReg rd v
  | store a sz v ha => exact (h.memWrite ha v).advance
  | storeRegister a sz v rd w ha => exact (h.memWrite ha v).setReg rd w
  | link sz rs1 rd v ha =>
    refine (h.setReg rd v).withLink ?_ (alignTo_alignTo sz _)
    rw [State.setReg_cfg]
    exact fitsX_alignTo (h.regs rs1)
  | jump a => exact h.withIp (fitsX_truncX a)
  | jumpLink rd a => exact h.jumpLink rd a
  | csr n v hn hv => exact (h.writeCsr hv).advance
  | trap cause ht => exact h.takeTrap ht
  | returned target saved hs htarget ht =>
    obtain ⟨-, -, hmra, -, -, -, -, hkra, -, -⟩ := h.csr
    refine h.returnFromTrap ?_ ht
    obtain rfl | rfl := htarget
    · exact hmra
    · exact hkra
  | portRead rd v => exact (h.setReg rd v).withPorts _
  | portWrite w => exact h.advance.withPorts _

/-- Settles O10: what a step receives keeps the invariant, and so does the trap entry or the instruction that follows. -/
theorem stepKeepsInvariant : Obligations.StepKeepsInvariant := by
  unfold Obligations.StepKeepsInvariant
  intro s t h hstep
  obtain ⟨cause, -, ht⟩ | ⟨i, -, -, hi⟩ := step_cases hstep
  · exact h.received.takeTrap ht
  · exact (exec_completes hi).inv h.received

/-! ## Reset -/

/-- Loading regions keeps memory canonical and within what is backed, when the regions are among those of the map. -/
theorem loadRegions_wf_within {mm : List Region} (rs : List Region) :
    ∀ {m : Memory}, (∀ r ∈ rs, r ∈ mm) → m.wf = true → m.within mm →
      (rs.foldl (fun m r => m.load r.base (r.init.take r.size)) m).wf = true ∧
        (rs.foldl (fun m r => m.load r.base (r.init.take r.size)) m).within mm := by
  induction rs with
  | nil => exact fun _ hw hm => ⟨hw, hm⟩
  | cons r rs ih =>
    intro m hrs hw hm
    refine ih (fun r' hr' => hrs r' (List.mem_cons_of_mem _ hr')) (Memory.wf_load _ _ _ hw)
      (Memory.within_load hm fun k hk => ?_)
    have hsize : k < r.size := by
      rw [List.length_take] at hk
      omega
    refine List.any_eq_true.2 ⟨r, hrs r List.mem_cons_self, ?_⟩
    simp [hsize]

@[simp] theorem State.readReg_resetOf (c : Config) (r : Reg) : (State.resetOf c).readReg r = 0 := by
  unfold State.readReg State.resetOf
  split
  · rfl
  · change (Array.replicate 31 (0 : Word)).getD (r.toNat - 1) 0 = 0
    rw [Array.getD_eq_getD_getElem?, Array.getElem?_replicate]
    split <;> rfl

theorem State.priv_resetOf (c : Config) : (State.resetOf c).priv = 3 := by
  change privBits 6 = 3
  decide

/-- The CSRs after reset are those of `resetCsrs`: 6 in mstatus, 0 elsewhere. -/
theorem resetCsrs_fits (c : Config) : resetCsrs.fits c := by
  have h6 : fitsX c 6 := fitsX_setWidth (6 : BitVec 3) (by decide)
  exact ⟨h6, fitsX_zero, fitsX_zero, fitsX_zero, fitsX_zero, fitsX_zero, fitsX_zero, fitsX_zero, fitsX_zero, fitsX_zero⟩

theorem resetOf_inv (c : Config) : (State.resetOf c).Inv := by
  have hmem : (resetMemory c).wf = true ∧ (resetMemory c).within c.memMap :=
    loadRegions_wf_within c.memMap (fun _ hr => hr) rfl fun _ ha => absurd rfl ha
  exact
    { regs := fun r => by rw [State.readReg_resetOf]; exact fitsX_zero
      ip := fitsX_zero
      csr := resetCsrs_fits c
      mode := by rw [State.priv_resetOf]; decide
      mem := hmem.1
      within := hmem.2
      stored := rfl
      link := fun _ hl => nomatch hl
      pending := fun _ _ => Nat.zero_le _
      causes := fun _ hc => nomatch hc }

/-- Settles O9: reset in any configuration meets the invariant, and `State.reset` is one of them. -/
theorem resetMeetsInvariant : Obligations.ResetMeetsInvariant := by
  unfold Obligations.ResetMeetsInvariant
  exact ⟨resetOf_inv Config.default, resetOf_inv⟩

/-- Settles O8: the mode and the registers by their lemmas, the rest as `State.resetOf` writes it. -/
theorem resetValues : Obligations.ResetValues := by
  unfold Obligations.ResetValues
  exact fun c => ⟨rfl, State.priv_resetOf c, rfl, rfl, State.readReg_resetOf c, rfl, rfl⟩

end Sys2Proof.Machine
end

