-- ==== Sys2Proof/Proofs/Protection.lean ====
section
/-! PROOF. What a step cannot change: the CSRs and the ports from User mode, the vector bases from below their level, and
r16 to r31 under H (10_state.md R25, R32, R35, R39, 60_exceptions.md R468, R479, R480). -/

namespace Sys2Proof.Machine

/-! ## What a step receives changes none of these -/

@[simp] theorem State.received_csr (s : State) : s.received.2.csr = s.csr := by rw [State.received_eq]

@[simp] theorem State.received_ip (s : State) : s.received.2.ip = s.ip := by rw [State.received_eq]

@[simp] theorem State.received_ports (s : State) : s.received.2.ports = s.ports := by rw [State.received_eq]

@[simp] theorem State.received_priv (s : State) : s.received.2.priv = s.priv := by
  rw [State.priv, State.received_csr, State.priv]

@[simp] theorem State.readReg_received (s : State) (r : Reg) : s.received.2.readReg r = s.readReg r :=
  State.readReg_congr (by rw [State.received_eq]) r

/-! ## User mode -/

/-- Every CSR is as it was, or the entry of 60_exceptions.md R468 took place; the ports are as they were. -/
def userConfined (s t : State) : Prop :=
  (t.csr = s.csr ∨
    t.ip = s.csr.kiva ∧ ∃ cause, t.csr = { s.csr with
      kra := s.ip, kcause := truncX s.cfg cause, kpriv := 0, mstatus := withPriv s.csr.mstatus 1 }) ∧
  t.ports = s.ports

section
variable {i : Instr} {s t : State}

theorem userConfined_of_eq (hcsr : t.csr = s.csr) (hports : t.ports = s.ports) : userConfined s t :=
  ⟨.inl hcsr, hports⟩

theorem userConfined_received (h : userConfined s.received.2 t) : userConfined s t := by
  simpa [userConfined] using h

/-- From User mode a trap is the entry into the kernel. -/
theorem userConfined_of_takeTrap {cause : Word} (hs : s.priv = 0) (ht : takeTrap cause s = .next t) :
    userConfined s t := by
  obtain ⟨-, rfl⟩ | ⟨h13, -⟩ := takeTrap_next ht
  · exact ⟨.inr ⟨rfl, cause, by rw [State.enterKernel, hs]; rfl⟩, rfl⟩
  · rw [hs] at h13
    exact absurd h13 (by decide)

theorem not_one_le_priv_user (hs : s.priv = 0) : ¬ 1 ≤ s.priv := by
  rw [hs]
  decide

/-- From User mode the forms of completion that write a CSR or a port are out of reach, but for the trap entry. -/
theorem Completes.userConfined (hc : Completes i s t) (hs : s.priv = 0) : userConfined s t := by
  cases hc with
  | advance | store | jump => exact userConfined_of_eq rfl rfl
  | register rd v | link _ _ rd v => exact userConfined_of_eq (s.setReg_csr rd v) (s.setReg_ports rd v)
  | storeRegister a sz v rd w => exact userConfined_of_eq (State.setReg_csr _ rd w) (State.setReg_ports _ rd w)
  | jumpLink rd a => exact userConfined_of_eq (jumpLink_csr rd _ s) (jumpLink_ports rd _ s)
  | csr n v hn =>
    exact userConfined_of_eq (Csrs.write_of_notNamed s.csr _ (notNamed_of_csrAllowed_user hs hn)) rfl
  | trap cause ht => exact userConfined_of_takeTrap hs ht
  | returned _ _ h1 | portRead _ _ h1 | portWrite _ h1 => exact absurd h1 (not_one_le_priv_user hs)

theorem step_userConfined (hs : s.priv = 0) (h : step s = .next t) : Machine.userConfined s t := by
  have hu : s.received.2.priv = 0 := s.received_priv.trans hs
  obtain ⟨cause, -, ht⟩ | ⟨i, -, -, hi⟩ := step_cases h
  · exact userConfined_received (userConfined_of_takeTrap hu ht)
  · exact userConfined_received ((exec_completes hi).userConfined hu)

end

/-- Settles O12: the trap entry and every form of completion are confined from User mode. -/
theorem userModeConfined : Obligations.UserModeConfined := by
  unfold Obligations.UserModeConfined
  exact fun s t => step_userConfined

/-! ## The vector bases -/

section
variable {i : Instr} {s t : State}

/-- A trap entry changes neither vector base; here the one of Machine mode. -/
theorem takeTrap_miva {cause : Word} (ht : takeTrap cause s = .next t) : t.csr.miva = s.csr.miva := by
  obtain ⟨-, rfl⟩ | ⟨-, rfl⟩ := takeTrap_next ht <;> rfl

/-- Below Machine mode the one form that could write `miva`, a CSR write, may not. -/
theorem Completes.miva_eq (hc : Completes i s t) (hs : s.priv ≠ 3) : t.csr.miva = s.csr.miva := by
  cases hc with
  | advance | store | jump | portWrite => rfl
  | register rd v | link _ _ rd v | portRead rd v => exact congrArg Csrs.miva (s.setReg_csr rd v)
  | storeRegister a sz v rd w => exact congrArg Csrs.miva (State.setReg_csr _ rd w)
  | jumpLink rd a => exact congrArg Csrs.miva (jumpLink_csr rd _ s)
  | csr n v hn =>
    have hmiva : n ≠ 1 := fun h1 => hs (priv_of_csrAllowed_miva (h1 ▸ hn))
    exact (Csrs.write_miva s.csr n _).trans (if_neg hmiva)
  | trap cause ht => exact takeTrap_miva ht
  | returned _ _ _ _ ht =>
    obtain ⟨-, rfl⟩ := returnFromTrap_next ht
    rfl

theorem step_miva (hs : s.priv ≠ 3) (h : step s = .next t) : t.csr.miva = s.csr.miva := by
  rw [← s.received_csr]
  obtain ⟨cause, -, ht⟩ | ⟨i, -, -, hi⟩ := step_cases h
  · exact takeTrap_miva ht
  · exact (exec_completes hi).miva_eq (by rwa [State.received_priv])

/-- From User mode not even the trap entry changes `kiva`. -/
theorem userConfined.kiva_eq (h : userConfined s t) : t.csr.kiva = s.csr.kiva := by
  obtain ⟨hcsr | ⟨-, cause, hcsr⟩, -⟩ := h <;> rw [hcsr]

end

/-- Settles O13: `miva` by the forms of completion, `kiva` by the confinement of User mode. -/
theorem vectorBasesProtected : Obligations.VectorBasesProtected := by
  unfold Obligations.VectorBasesProtected
  exact fun s t h => ⟨fun hs => step_miva hs h, fun hs => (step_userConfined hs h).kiva_eq⟩

/-! ## The registers that an instruction does not name -/

section
variable {i : Instr} {s t : State}

theorem takeTrap_readReg {cause : Word} (ht : takeTrap cause s = .next t) (r : Reg) : t.readReg r = s.readReg r := by
  obtain ⟨-, rfl⟩ | ⟨-, rfl⟩ := takeTrap_next ht <;> rfl

/-- A register that the instruction does not name is left as it is. -/
theorem Completes.readReg_of_notMem (hc : Completes i s t) {r : Reg} (hr : r ∉ i.regs) :
    t.readReg r = s.readReg r := by
  have hne : ∀ {rd : Reg}, rd ∈ i.regs → ¬ (r = rd ∧ rd ≠ 0) := fun hrd e => hr (e.1 ▸ hrd)
  cases hc with
  | advance | store | jump | csr | portWrite => rfl
  | register rd v hrd => exact (s.readReg_setReg rd r v).trans (if_neg (hne hrd))
  | link _ _ rd v _ hrd => exact (s.readReg_setReg rd r v).trans (if_neg (hne hrd))
  | portRead rd v _ hrd => exact (s.readReg_setReg rd r v).trans (if_neg (hne hrd))
  | storeRegister a sz v rd w _ hrd => exact (State.readReg_setReg _ rd r w).trans (if_neg (hne hrd))
  | jumpLink rd a hrd => exact (s.readReg_writeReg rd r _).trans (if_neg (hne hrd))
  | trap cause ht => exact takeTrap_readReg ht r
  | returned _ _ _ _ ht =>
    obtain ⟨-, rfl⟩ := returnFromTrap_next ht
    rfl

end

/-- What the decoder accepts names registers of the core alone. -/
theorem present_of_decode {c : Config} {w : BitVec 32} {i : Instr} (h : decode c w = .ok i) {r : Reg}
    (hr : r ∈ i.regs) : Reg.present c r = true := by
  unfold decode at h
  split at h
  · cases h
  · split at h
    · cases h
    · split at h
      · cases h
      · split at h
        · cases h
        · rename_i hall
          cases h
          exact List.all_eq_true.1 (by simpa using hall) r hr

theorem not_present_of_extH {c : Config} {r : Reg} (hc : c.extH = true) (hr : 16 ≤ r.toNat) :
    Reg.present c r = false := by
  simp [Reg.present, Config.nregs, hc, hr]

/-- Settles O14: a step runs a decoded instruction, which names no register above r15, or enters a trap. -/
theorem reducedRegistersUntouched : Obligations.ReducedRegistersUntouched := by
  unfold Obligations.ReducedRegistersUntouched
  intro s t hH h r hr
  rw [← s.readReg_received]
  obtain ⟨cause, -, ht⟩ | ⟨i, -, hf, hi⟩ := step_cases h
  · exact takeTrap_readReg ht r
  · obtain ⟨w, hw⟩ := decode_of_fetch hf
    refine (exec_completes hi).readReg_of_notMem fun hmem => ?_
    have habsent : Reg.present s.received.2.cfg r = false := not_present_of_extH (by rwa [State.received_cfg]) hr
    exact absurd (present_of_decode hw hmem) (by rw [habsent]; decide)

end Sys2Proof.Machine
end

