-- ==== Sys2Proof/Proofs/Ports.lean ====
section
/-! PROOF. The port instructions at their level (44_system.md R260 to R268). -/

namespace Sys2Proof.Machine

theorem privileged_of_le {need : BitVec 2} {body : State → Result} {s : State} (h : need ≤ s.priv) :
    privileged need body s = body s := if_pos h

/-! ## The low bits of a datum -/

/-- The low bits of a port datum, taken from its 64-bit form or from itself. -/
theorem setWidth_datum {n : Nat} (d : BitVec 32) (hn : n ≤ 32) :
    (d.setWidth 64).setWidth n = d.extractLsb' 0 n := by
  rw [BitVec.setWidth_setWidth_of_le d (by omega), BitVec.setWidth_eq_extractLsb' hn]

theorem widen_unsigned (c : Config) (sz : Size) (v : Word) : widen c sz false v = truncX c (lowBytes sz v) := rfl

theorem widen_signed (c : Config) (sz : Size) (v : Word) : widen c sz true v = truncX c (signBytes sz v) := rfl

theorem widen_datum_b (c : Config) (d : BitVec 32) :
    widen c .b false (d.setWidth 64) = (d.extractLsb' 0 8).setWidth 64 ∧
      widen c .b true (d.setWidth 64) = sextX c (d.extractLsb' 0 8) := by
  rw [widen_unsigned, widen_signed, lowBytes, signBytes, setWidth_datum d (by decide)]
  exact ⟨truncX_setWidth c _ (by decide), rfl⟩

theorem widen_datum_w (c : Config) (d : BitVec 32) :
    widen c .w false (d.setWidth 64) = (d.extractLsb' 0 16).setWidth 64 ∧
      widen c .w true (d.setWidth 64) = sextX c (d.extractLsb' 0 16) := by
  rw [widen_unsigned, widen_signed, lowBytes, signBytes, setWidth_datum d (by decide)]
  exact ⟨truncX_setWidth c _ (by decide), rfl⟩

theorem widen_datum_d (c : Config) (d : BitVec 32) :
    widen c .d false (d.setWidth 64) = (d.extractLsb' 0 32).setWidth 64 := by
  rw [widen_unsigned, lowBytes, setWidth_datum d (by decide)]
  exact truncX_setWidth c _ (by decide)

/-! ## Reads -/

section
variable {s : State}

theorem State.portDatum_of_supplied {d : BitVec 32} {rest : List (BitVec 32)} (h : s.ports.stream = d :: rest)
    (a : Word) (sz : Size) : s.portDatum a sz = d := by
  rw [State.portDatum, h]

theorem State.portDatum_of_empty (h : s.ports.stream = []) (a : Word) (sz : Size) :
    s.portDatum a sz = Config.portDatum s.ports.drawn a sz := by
  rw [State.portDatum, h]

theorem Ports.afterRead_of_supplied {p : Ports} {d : BitVec 32} {rest : List (BitVec 32)}
    (h : p.stream = d :: rest) : p.afterRead = { p with stream := rest } := by
  rw [Ports.afterRead, h]

theorem Ports.afterRead_of_empty {p : Ports} (h : p.stream = []) :
    p.afterRead = { p with drawn := p.drawn + 1 } := by
  rw [Ports.afterRead, h]

/-- The frame of IN.x at its level: the widened datum in `rd`, the ports after one read. -/
theorem givesPortRead_of_portIn {i : Instr} {sz : Size} {sg : Bool} {rd rs1 : Reg} {v : Word} (hs : 1 ≤ s.priv)
    (h : exec i s = privileged 1 (portIn sz sg rd rs1) s)
    (hv : widen s.cfg sz sg ((s.portDatum (alignTo sz (s.readReg rs1)) sz).setWidth 64) = v) :
    givesPortRead i s rd v s.ports.afterRead := by
  subst hv
  refine ⟨_, h.trans (privileged_of_le hs), fun r => ?_, ?_, ?_, ?_, rfl, ?_, ?_⟩
  · exact (s.readReg_setReg rd r _).trans (by rw [truncX_widen])
  · simp [memKept]
  · simp
  · simp
  · simp [outsideKept]
  · simp [advanced]

theorem portIn_b (hs : 1 ≤ s.priv) (rd rs1 : Reg) {d : BitVec 32} (hd : s.portDatum (s.readReg rs1) .b = d) :
    givesPortRead (.inb rd rs1) s rd ((d.extractLsb' 0 8).setWidth 64) s.ports.afterRead ∧
      givesPortRead (.insb rd rs1) s rd (sextX s.cfg (d.extractLsb' 0 8)) s.ports.afterRead := by
  subst hd
  exact ⟨givesPortRead_of_portIn hs rfl (widen_datum_b _ _).1, givesPortRead_of_portIn hs rfl (widen_datum_b _ _).2⟩

theorem portIn_w (hs : 1 ≤ s.priv) (rd rs1 : Reg) {d : BitVec 32}
    (hd : s.portDatum (alignTo .w (s.readReg rs1)) .w = d) :
    givesPortRead (.inw rd rs1) s rd ((d.extractLsb' 0 16).setWidth 64) s.ports.afterRead ∧
      givesPortRead (.insw rd rs1) s rd (sextX s.cfg (d.extractLsb' 0 16)) s.ports.afterRead := by
  subst hd
  exact ⟨givesPortRead_of_portIn hs rfl (widen_datum_w _ _).1, givesPortRead_of_portIn hs rfl (widen_datum_w _ _).2⟩

theorem portIn_d (hs : 1 ≤ s.priv) (rd rs1 : Reg) {d : BitVec 32}
    (hd : s.portDatum (alignTo .d (s.readReg rs1)) .d = d) :
    givesPortRead (.ind rd rs1) s rd ((d.extractLsb' 0 32).setWidth 64) s.ports.afterRead := by
  subst hd
  exact givesPortRead_of_portIn hs rfl (widen_datum_d _ _)

end

/-- Settles O51: the reads of the three sizes, once with a datum supplied and once with none. -/
theorem portInput : Obligations.PortInput := by
  unfold Obligations.PortInput
  intro rd rs1 s hs
  refine ⟨fun d rest hd => ?_, fun he => ?_⟩
  · have hdatum := State.portDatum_of_supplied hd
    rw [← Ports.afterRead_of_supplied hd]
    obtain ⟨hinb, hinsb⟩ := portIn_b hs rd rs1 (hdatum _ _)
    obtain ⟨hinw, hinsw⟩ := portIn_w hs rd rs1 (hdatum _ _)
    exact ⟨hinb, hinsb, hinw, hinsw, portIn_d hs rd rs1 (hdatum _ _)⟩
  · have hdatum := State.portDatum_of_empty he
    rw [← Ports.afterRead_of_empty he]
    exact ⟨fun d hd => portIn_b hs rd rs1 ((hdatum _ _).trans hd.symm),
      fun d hd => portIn_w hs rd rs1 ((hdatum _ _).trans hd.symm),
      fun d hd => portIn_d hs rd rs1 ((hdatum _ _).trans hd.symm)⟩

/-! ## Writes -/

/-- The frame of OUT.x at its level: one entry more in the log. -/
theorem givesPortWrite_of_portOut {i : Instr} {sz : Size} {rs1 rs2 : Reg} {s : State} {v : Word} (hs : 1 ≤ s.priv)
    (h : exec i s = privileged 1 (portOut sz rs1 rs2) s) (hv : lowBytes sz (s.readReg rs2) = v) :
    givesPortWrite i s ⟨alignTo sz (s.readReg rs1), sz, v⟩ := by
  subst hv
  exact ⟨_, h.trans (privileged_of_le hs), fun _ => rfl, ⟨fun _ => rfl, rfl⟩, rfl, rfl, rfl, ⟨rfl, rfl, rfl⟩, rfl⟩

/-- Settles O52: the low bits that `lowBytes` keeps are the low 8, 16 or 32. -/
theorem portOutput : Obligations.PortOutput := by
  unfold Obligations.PortOutput
  intro rs1 rs2 s hs
  refine ⟨givesPortWrite_of_portOut (sz := .b) hs rfl ?_, givesPortWrite_of_portOut (sz := .w) hs rfl ?_,
    givesPortWrite_of_portOut (sz := .d) hs rfl ?_⟩ <;>
    exact congrArg (BitVec.setWidth 64) (BitVec.setWidth_eq_extractLsb' (by decide))

end Sys2Proof.Machine
end

