-- ==== Sys2Proof/Proofs/Decoder.lean ====
section
/-! PROOF. The decoder on the words of the encoder (30_encoding.md R93 to R98, R107 to R112, R115): it finds the
instruction, and no unused bit is set; so an absent instruction or register is rejected by name (R114, R117, 10_state.md
R25). -/

namespace Sys2Proof

/-! ## The decoder of each opcode -/

section
variable {w : BitVec 32}

theorem decodeWord_op00 (h : opcodeOf w = 0x0) : decodeWord w = decodeOp00 w := by
  rw [decodeWord, h]
  rfl

theorem decodeWord_op01 (h : opcodeOf w = 0x1) : decodeWord w = decodeOp01 w := by
  rw [decodeWord, h]
  rfl

theorem decodeWord_op02 (h : opcodeOf w = 0x2) : decodeWord w = some (.lui (rdOf w) (imm21Of w)) := by
  rw [decodeWord, h]
  rfl

theorem decodeWord_op03 (h : opcodeOf w = 0x3) : decodeWord w = decodeOp03 w := by
  rw [decodeWord, h]
  rfl

theorem decodeWord_op04 (h : opcodeOf w = 0x4) : decodeWord w = decodeOp04 w := by
  rw [decodeWord, h]
  rfl

theorem decodeWord_op05 (h : opcodeOf w = 0x5) : decodeWord w = some (.jal (rdOf w) (imm21Of w)) := by
  rw [decodeWord, h]
  rfl

theorem decodeWord_op06 (h : opcodeOf w = 0x6) : decodeWord w = decodeOp06 w := by
  rw [decodeWord, h]
  rfl

theorem decodeWord_op07 (h : opcodeOf w = 0x7) : decodeWord w = decodeOp07 w := by
  rw [decodeWord, h]
  rfl

theorem decodeWord_op08 (h : opcodeOf w = 0x8) : decodeWord w = decodeOp08 w := by
  rw [decodeWord, h]
  rfl

theorem decodeWord_op09 (h : opcodeOf w = 0x9) : decodeWord w = decodeOp09 w := by
  rw [decodeWord, h]
  rfl

theorem decodeWord_op0A (h : opcodeOf w = 0xA) : decodeWord w = decodeOp0A w := by
  rw [decodeWord, h]
  rfl

end

/-! ## The operands come back

For each format: a row that the selecting fields name, with the operands read from the word, is found in the encoded word
with the operands that were encoded. -/

section
variable {op : BitVec 6} {fn7 : BitVec 7} {fn4 : BitVec 4} {rd rs1 rs2 : Reg}

theorem decodeWord_encDSS {f : Reg → Reg → Reg → Instr}
    (h : ∀ w, opcodeOf w = op → fn7Of w = fn7 → fn4Of w = fn4 → decodeWord w = some (f (rdOf w) (rs1Of w) (rs2Of w))) :
    decodeWord (encDSS op fn7 fn4 rd rs1 rs2) = some (f rd rs1 rs2) := by
  obtain ⟨hop, h7, h4, hrd, h1, h2⟩ := fields_encDSS op fn7 fn4 rd rs1 rs2
  rw [h _ hop h7 h4, hrd, h1, h2]

/-- Format DSS without `rs2`: IN.x and LL.x. -/
theorem decodeWord_encDSS_noRs2 {f : Reg → Reg → Instr}
    (h : ∀ w, opcodeOf w = op → fn7Of w = fn7 → fn4Of w = fn4 → decodeWord w = some (f (rdOf w) (rs1Of w))) :
    decodeWord (encDSS op fn7 fn4 rd rs1 0) = some (f rd rs1) :=
  decodeWord_encDSS (f := fun rd rs1 _ => f rd rs1) h

/-- Format DSS without `rd`: OUT.x. -/
theorem decodeWord_encDSS_noRd {f : Reg → Reg → Instr}
    (h : ∀ w, opcodeOf w = op → fn7Of w = fn7 → fn4Of w = fn4 → decodeWord w = some (f (rs1Of w) (rs2Of w))) :
    decodeWord (encDSS op fn7 fn4 0 rs1 rs2) = some (f rs1 rs2) :=
  decodeWord_encDSS (f := fun _ rs1 rs2 => f rs1 rs2) h

theorem decodeWord_encDSI {imm : BitVec 12} {f : Reg → Reg → BitVec 12 → Instr}
    (h : ∀ w, opcodeOf w = op → fn4Of w = fn4 → decodeWord w = some (f (rdOf w) (rs1Of w) (imm12Of w))) :
    decodeWord (encDSI op fn4 rd rs1 imm) = some (f rd rs1 imm) := by
  obtain ⟨hop, h4, hrd, h1, himm⟩ := fields_encDSI op fn4 rd rs1 imm
  rw [h _ hop h4, hrd, h1, himm]

theorem decodeWord_encSSI {imm : BitVec 12} {f : Reg → Reg → BitVec 12 → Instr}
    (h : ∀ w, opcodeOf w = op → fn4Of w = fn4 → decodeWord w = some (f (rs1Of w) (rs2Of w) (immSSIOf w))) :
    decodeWord (encSSI op fn4 rs1 rs2 imm) = some (f rs1 rs2 imm) := by
  obtain ⟨hop, h4, h1, h2, himm⟩ := fields_encSSI op fn4 rs1 rs2 imm
  rw [h _ hop h4, h1, h2, himm]

theorem decodeWord_encDI {imm : BitVec 21} {f : Reg → BitVec 21 → Instr}
    (h : ∀ w, opcodeOf w = op → decodeWord w = some (f (rdOf w) (imm21Of w))) :
    decodeWord (encDI op rd imm) = some (f rd imm) := by
  obtain ⟨hop, hrd, himm⟩ := fields_encDI op rd imm
  rw [h _ hop, hrd, himm]

theorem decodeWord_encCSB {n : BitVec 12} {sel : BitVec 5} {f : BitVec 12 → BitVec 5 → Instr}
    (h : ∀ w, opcodeOf w = op → fn4Of w = fn4 → decodeWord w = some (f (imm12Of w) (rdOf w))) :
    decodeWord (encCSB op fn4 n sel) = some (f n sel) := by
  obtain ⟨hop, h4, hn, hsel⟩ := fields_encCSB op fn4 n sel
  rw [h _ hop h4, hn, hsel]

end

/-- FENCE, whose row asks for an I, O, R, W that is not 0. -/
theorem decodeWord_encFNC {iorw : BitVec 4} (h : iorw ≠ 0) :
    decodeWord (encFNC 0x8 0x0 0x8 iorw) = some (.fence iorw) := by
  obtain ⟨hop, h7, h4, hi⟩ := fields_encFNC 0x8 0x0 0x8 iorw
  rw [decodeWord_op08 hop, decodeOp08, h4, hi]
  exact if_pos ⟨h7, h⟩

/-- A word of the encoder selects its own row of the opcode table: a case split over the rows, by the format and the
opcode. -/
theorem decodeWord_encode {i : Instr} (hf : i.fenceTyped = true) : decodeWord (encode i) = some i := by
  cases i with
  | add | sub | and | or | xor | shr | asr | shl | cch | bch | slt
  | mul | mulh | smulh | div | sdiv | mod | smod
  | addQ | subQ | andQ | orQ | xorQ | shrQ | asrQ | shlQ | cchQ | bchQ | sltQ
  | mulQ | mulhQ | smulhQ | divQ | sdivQ | modQ | smodQ =>
    refine decodeWord_encDSS fun w hop h7 h4 => ?_
    rw [decodeWord_op00 hop, decodeOp00, h7, h4]
    rfl
  | addi | andi | ori | xori | shri | asri | shli | cchi | bchi | slti =>
    refine decodeWord_encDSI fun w hop h4 => ?_
    rw [decodeWord_op01 hop, decodeOp01, h4]
    rfl
  | lui => exact decodeWord_encDI fun w hop => decodeWord_op02 hop
  | stb | stw | std | stq =>
    refine decodeWord_encSSI fun w hop h4 => ?_
    rw [decodeWord_op03 hop, decodeOp03, h4]
    rfl
  | ldb | ldsb | ldw | ldsw | ldd | ldq | ldsd =>
    refine decodeWord_encDSI fun w hop h4 => ?_
    rw [decodeWord_op04 hop, decodeOp04, h4]
    rfl
  | jal => exact decodeWord_encDI fun w hop => decodeWord_op05 hop
  | jalr =>
    refine decodeWord_encDSI fun w hop h4 => ?_
    rw [decodeWord_op06 hop, decodeOp06, h4]
    rfl
  | jeq | jlt | jslt | jne | jge | jsge =>
    refine decodeWord_encSSI fun w hop h4 => ?_
    rw [decodeWord_op07 hop, decodeOp07, h4]
    rfl
  | syscall | sysbreak | mret | sysret => decide
  | csrr =>
    refine decodeWord_encDSI (f := fun rd _ n => .csrr rd n) fun w hop h4 => ?_
    rw [decodeWord_op08 hop, decodeOp08, h4]
    rfl
  | csrw =>
    refine decodeWord_encDSI (f := fun _ rs1 n => .csrw rs1 n) fun w hop h4 => ?_
    rw [decodeWord_op08 hop, decodeOp08, h4]
    rfl
  | csrs | csrc =>
    refine decodeWord_encCSB fun w hop h4 => ?_
    rw [decodeWord_op08 hop, decodeOp08, h4]
    rfl
  | fence iorw => exact decodeWord_encFNC (bne_iff_ne.1 hf)
  | inb | inw | ind | insb | insw =>
    refine decodeWord_encDSS_noRs2 fun w hop h7 h4 => ?_
    rw [decodeWord_op08 hop, decodeOp08, h7, h4]
    rfl
  | outb | outw | outd =>
    refine decodeWord_encDSS_noRd fun w hop h7 h4 => ?_
    rw [decodeWord_op08 hop, decodeOp08, h7, h4]
    rfl
  | llB | llW | llD | llSb | llSw | llQ | llSd =>
    refine decodeWord_encDSS_noRs2 fun w hop h7 h4 => ?_
    rw [decodeWord_op09 hop, decodeOp09, h7, h4]
    rfl
  | scB | scW | scD | scQ | acmpxchgB | acmpxchgW | acmpxchgD | acmpxchgQ
  | axaddB | axaddW | axaddD | axaddSb | axaddSw | axaddQ | axaddSd
  | axsubB | axsubW | axsubD | axsubSb | axsubSw | axsubQ | axsubSd
  | axandB | axandW | axandD | axandSb | axandSw | axandQ | axandSd
  | axiorB | axiorW | axiorD | axiorSb | axiorSw | axiorQ | axiorSd
  | axxorB | axxorW | axxorD | axxorSb | axxorSw | axxorQ | axxorSd
  | axmaxB | axmaxW | axmaxD | axmaxSb | axmaxSw | axmaxQ | axmaxSd
  | axminB | axminW | axminD | axminSb | axminSw | axminQ | axminSd =>
    refine decodeWord_encDSS fun w hop h7 h4 => ?_
    rw [decodeWord_op09 hop, decodeOp09, h7, h4]
    rfl
  | addiQ | andiQ | oriQ | xoriQ | shriQ | asriQ | shliQ | cchiQ | bchiQ | sltiQ =>
    refine decodeWord_encDSI fun w hop h4 => ?_
    rw [decodeWord_op0A hop, decodeOp0A, h4]
    rfl

/-! ## The encoder sets no unused bit -/

/-- A word of format DSS against a mask of its register fields. -/
theorem encDSS_and_mask (op : BitVec 6) (fn7 : BitVec 7) (fn4 : BitVec 4) {rd rs1 rs2 : Reg} (m m1 m2 : Reg)
    (hrd : rd &&& m = 0) (hrs1 : rs1 &&& m1 = 0) (hrs2 : rs2 &&& m2 = 0) :
    encDSS op fn7 fn4 rd rs1 rs2 &&& encDSS 0 0 0 m m1 m2 = 0 := by
  have hand : encDSS op fn7 fn4 rd rs1 rs2 &&& encDSS 0 0 0 m m1 m2 =
      encDSS (op &&& 0) (fn7 &&& 0) (fn4 &&& 0) (rd &&& m) (rs1 &&& m1) (rs2 &&& m2) := by
    apply BitVec.eq_of_getLsbD_eq
    intro k _
    simp only [encDSS, BitVec.getLsbD_and, BitVec.getLsbD_append]
    repeat' split
    all_goals rfl
  rw [hand, hrd, hrs1, hrs2]
  simp [encDSS]

/-- A word of format DSI, or CSB, against a mask of its `rd` and `rs1` fields. -/
theorem encDSI_and_mask (op : BitVec 6) (fn4 : BitVec 4) {rd rs1 : Reg} (imm : BitVec 12) (m m1 : Reg)
    (hrd : rd &&& m = 0) (hrs1 : rs1 &&& m1 = 0) :
    encDSI op fn4 rd rs1 imm &&& encDSI 0 0 m m1 0 = 0 := by
  have hand : encDSI op fn4 rd rs1 imm &&& encDSI 0 0 m m1 0 =
      encDSI (op &&& 0) (fn4 &&& 0) (rd &&& m) (rs1 &&& m1) (imm &&& 0) := by
    apply BitVec.eq_of_getLsbD_eq
    intro k _
    simp only [encDSI, BitVec.getLsbD_and, BitVec.getLsbD_append]
    repeat' split
    all_goals rfl
  rw [hand, hrd, hrs1]
  simp [encDSI]

/-- A word of format FNC against the mask of its bit 24 and its reserved bits. -/
theorem encFNC_and_mask (op : BitVec 6) (fn7 : BitVec 7) (fn4 iorw : BitVec 4) :
    encFNC op fn7 fn4 iorw &&& 0x0100FFC0 = 0 := by
  have hmask : (0x0100FFC0 : BitVec 32) = 0#7 ++ 1#1 ++ 0#4 ++ 0#4 ++ 0x3FF#10 ++ 0#6 := by decide
  rw [hmask]
  apply BitVec.eq_of_getLsbD_eq
  intro k _
  simp only [encFNC, BitVec.getLsbD_and, BitVec.getLsbD_append]
  repeat' split
  all_goals simp

/-- Every unused field is 0 in a word of the encoder: a case split over the masks of the opcode table. -/
theorem encode_and_unusedBits (i : Instr) : encode i &&& i.unusedBits = 0 := by
  cases i with
  | syscall | sysbreak | mret | sysret => decide
  | csrr rd n => exact encDSI_and_mask 0x8 0x2 n 0 31 BitVec.and_zero rfl
  | csrs n sel => exact encDSI_and_mask 0x8 0x4 n 0 31 BitVec.and_zero rfl
  | csrc n sel => exact encDSI_and_mask 0x8 0x5 n 0 31 BitVec.and_zero rfl
  | csrw rs1 n => exact encDSI_and_mask 0x8 0x3 n 31 0 rfl BitVec.and_zero
  | outb | outw | outd => exact encDSS_and_mask 0x8 _ 0x7 31 0 0 rfl BitVec.and_zero BitVec.and_zero
  | fence iorw => exact encFNC_and_mask _ _ _ iorw
  | inb | inw | ind | insb | insw => exact encDSS_and_mask 0x8 _ 0x6 0 0 31 BitVec.and_zero BitVec.and_zero rfl
  | llB | llW | llD | llSb | llSw | llQ | llSd =>
    exact encDSS_and_mask 0x9 _ _ 0 0 31 BitVec.and_zero BitVec.and_zero rfl
  | _ => exact BitVec.and_zero

/-! ## The decoder on the word of an instruction -/

/-- What the decoder says of an encoded instruction: the name of what is absent, or the instruction. -/
theorem decode_encode (c : Config) {i : Instr} (hf : i.fenceTyped = true) :
    decode c (encode i) =
      if !i.available c then .error .absentExtension
      else if !i.regs.all (Reg.present c) then .error .absentRegister
      else .ok i := by
  have hstrict : ¬ (c.unusedField = .strict ∧ encode i &&& i.unusedBits ≠ 0) :=
    fun h => h.2 (encode_and_unusedBits i)
  rw [decode, decodeWord_encode hf]
  simp only [if_neg hstrict]

/-- Settles O4: the two rejections are the first two branches of the decoder on an encoded word. -/
theorem absentInstructionRejected : Obligations.AbsentInstructionRejected := by
  unfold Obligations.AbsentInstructionRejected
  intro c i hf
  rw [decode_encode c hf]
  refine ⟨fun ha => ?_, fun ha hr => ?_⟩
  · rw [ha]
    rfl
  · rw [ha, hr]
    rfl

end Sys2Proof
end

