-- ==== Sys2Proof/Proofs/Addresses.lean ====
section
/-! PROOF. Addresses: sums that wrap modulo `2^XLEN`, and accesses that are aligned downward and so never wrap
(20_memory.md R64 to R66, R72, 42_base_control.md R171, 46_atomic.md R301). -/

namespace Sys2Proof.Machine

/-! ## Sums with an immediate -/

theorem two_pow_xlen_dvd (c : Config) : 2 ^ c.xlen ∣ 2 ^ 64 := by
  unfold Config.xlen
  split <;> decide

/-- A signed immediate added to a value wraps modulo `2^XLEN`: the sum modulo `2^64` loses nothing that counts. -/
theorem truncX_add_signExtend (c : Config) (v : Word) {w : Nat} (imm : BitVec w) :
    ((truncX c (v + imm.signExtend 64)).toNat : Int) = (v.toNat + imm.toInt) % 2 ^ c.xlen := by
  have hdvd : (2 : Int) ^ c.xlen ∣ 2 ^ 64 := by exact_mod_cast two_pow_xlen_dvd c
  have himm : ((imm.signExtend 64).toNat : Int) = imm.toInt % 2 ^ 64 := by
    rw [BitVec.signExtend, BitVec.toNat_ofInt]
    exact Int.toNat_of_nonneg (Int.emod_nonneg _ (by decide))
  calc ((truncX c (v + imm.signExtend 64)).toNat : Int)
      = (v.toNat + (imm.signExtend 64).toNat) % 2 ^ 64 % 2 ^ c.xlen := by
        rw [truncX_toNat, BitVec.toNat_add]
        push_cast
        rfl
    _ = (v.toNat + imm.toInt) % 2 ^ c.xlen := by
        rw [himm, Int.add_emod_emod, Int.emod_emod_of_dvd _ hdvd]

/-! ## Aligned accesses -/

/-- A value of `XLEN` bits, as a number. -/
theorem fitsX.toNat_lt {c : Config} {v : Word} (h : fitsX c v) : v.toNat < 2 ^ c.xlen := by
  rw [← h, truncX_toNat]
  exact Nat.mod_lt _ (Nat.two_pow_pos _)

/-- The address space holds a whole number of accesses of each size. -/
theorem bytes_dvd_two_pow_xlen (sz : Size) (c : Config) : sz.bytes ∣ 2 ^ c.xlen := by
  unfold Config.xlen
  cases sz <;> split <;> decide

/-- An access that starts at an aligned address of the space ends in the space. -/
theorem alignTo_add_bytes_le {c : Config} {a : Word} (sz : Size) (h : fitsX c a) :
    (alignTo sz a).toNat + sz.bytes ≤ 2 ^ c.xlen := by
  obtain ⟨m, hm⟩ := bytes_dvd_two_pow_xlen sz c
  have hblock : a.toNat / sz.bytes < m := Nat.div_lt_of_lt_mul (hm ▸ h.toNat_lt)
  calc (alignTo sz a).toNat + sz.bytes
      = (a.toNat / sz.bytes + 1) * sz.bytes := by rw [alignTo_toNat, Nat.succ_mul]
    _ ≤ m * sz.bytes := Nat.mul_le_mul_right _ hblock
    _ = 2 ^ c.xlen := by rw [hm, Nat.mul_comm]

/-- Settles O15: both sums are the sum with a signed immediate, and an effective address has `XLEN` bits. -/
theorem effectiveAddresses : Obligations.EffectiveAddresses := by
  unfold Obligations.EffectiveAddresses
  intro s rs1 imm jmp sz a
  exact ⟨truncX_add_signExtend s.cfg (s.readReg rs1) imm, truncX_add_signExtend s.cfg s.ip jmp, alignTo_toNat sz a,
    alignTo_add_bytes_le sz (fitsX_truncX _), alignTo_add_bytes_le sz⟩

end Sys2Proof.Machine
end

