-- ==== Sys2Proof/Proofs/ReadAfterWrite.lean ====
section
/-! PROOF. Reads of several bytes after a write, and a word that the loader placed (20_memory.md R60 to R63). -/

namespace Sys2Proof.Machine

/-! ## Reading what was written -/

theorem bytes_le_eight (sz : Size) : sz.bytes ≤ 8 := by cases sz <;> decide

/-- A read of `n` bytes sees these bytes alone. -/
theorem Memory.readLE_congr {m m' : Memory} {a n : Nat} (h : ∀ k, k < n → m'.read (a + k) = m.read (a + k)) :
    m'.readLE a n = m.readLE a n := by
  induction n generalizing a with
  | zero => rfl
  | succ n ih =>
    have hfirst : m'.read a = m.read a := h 0 (Nat.succ_pos n)
    have hrest : m'.readLE (a + 1) n = m.readLE (a + 1) n := ih fun k hk => by
      rw [Nat.add_assoc, Nat.add_comm 1 k]
      exact h (k + 1) (Nat.succ_lt_succ hk)
    rw [Memory.readLE, Memory.readLE, hfirst, hrest]

/-- Of `n` written bytes, a read of `j` from byte `d` on gives bytes `d` to `d + j - 1` of the value. -/
theorem Memory.readLE_writeLE_part (m : Memory) (a : Nat) {n d j : Nat} (v : Word) (hj : j ≤ 8) (hd : d + j ≤ n) :
    (m.writeLE a n v).readLE (a + d) j = (v.extractLsb' (8 * d) (8 * j)).setWidth 64 := by
  apply BitVec.eq_of_getLsbD_eq
  intro k hk
  rw [Memory.readLE_getLsbD _ _ _ _ hj, BitVec.getLsbD_setWidth, BitVec.getLsbD_extractLsb', decide_eq_true hk,
    Bool.true_and]
  by_cases hin : k < 8 * j
  · have hbyte : k / 8 < j := by omega
    rw [Memory.read_writeLE, if_pos (by omega), BitVec.getLsbD_setWidth, BitVec.getLsbD_ushiftRight,
      decide_eq_true (Nat.mod_lt k (by decide)), Bool.true_and, show a + d + k / 8 - a = d + k / 8 by omega,
      show 8 * (d + k / 8) + k % 8 = 8 * d + k by omega]
  · rw [decide_eq_false hin, Bool.false_and, Bool.false_and]

/-- A read of bytes that a write does not meet. -/
theorem Memory.readLE_writeLE_apart (m : Memory) {a n b j : Nat} (v : Word) (h : b + j ≤ a ∨ a + n ≤ b) :
    (m.writeLE a n v).readLE b j = m.readLE b j :=
  Memory.readLE_congr fun k hk => by rw [Memory.read_writeLE, if_neg (by omega)]

theorem lowBytes_eq_extractLsb' (sz : Size) (v : Word) :
    lowBytes sz v = (v.extractLsb' 0 (8 * sz.bytes)).setWidth 64 := by
  rw [← BitVec.setWidth_eq_extractLsb' (Nat.mul_le_mul_left 8 (bytes_le_eight sz))]
  cases sz
  case q => exact (BitVec.setWidth_eq _).symm.trans (BitVec.setWidth_eq _).symm
  all_goals rfl

/-- Settles O16: the whole and the upper half are parts of what was written; other bytes are as before. -/
theorem writeThenRead : Obligations.WriteThenRead := by
  unfold Obligations.WriteThenRead
  intro s a b sz sz' v
  refine ⟨?_, ?_, fun h => s.mem.readLE_writeLE_apart v h⟩
  · rw [lowBytes_eq_extractLsb']
    exact s.mem.readLE_writeLE_part a.toNat (d := 0) v (bytes_le_eight sz) (by omega)
  · exact s.mem.readLE_writeLE_part a.toNat (d := 2) v (by decide) (by decide)

/-! ## A placed word -/

/-- The four bytes of a word, read in memory order, are the word. -/
theorem wordOfBytes_extract (w : BitVec 32) :
    wordOfBytes (w.extractLsb' 0 8) (w.extractLsb' 8 8) (w.extractLsb' 16 8) (w.extractLsb' 24 8) = w := by
  rw [wordOfBytes, BitVec.extractLsb'_append_extractLsb'_eq_extractLsb' (show 24 = 16 + 8 from rfl),
    BitVec.extractLsb'_append_extractLsb'_eq_extractLsb' (show 16 = 8 + 8 from rfl),
    BitVec.extractLsb'_append_extractLsb'_eq_extractLsb' (show 8 = 0 + 8 from rfl)]
  exact BitVec.extractLsb'_eq_self

theorem decodeBytes_bytesOfWord {c : Config} {w : BitVec 32} {i : Instr} (h : decode c w = .ok i) :
    decodeBytes c (bytesOfWord w) = .ok (i, []) := by
  rw [bytesOfWord, decodeBytes, wordOfBytes_extract, h]

/-- The bytes at an address after a word was placed there. -/
theorem fetchBytes_load (m : Memory) (a : Nat) (w : BitVec 32) :
    fetchBytes (m.load a (bytesOfWord w)) a = bytesOfWord w := by
  simp [fetchBytes, Memory.read_load, bytesOfWord]

/-- The dword at an address is the word whose bytes a fetch reads there. -/
theorem dwordAt_of_fetchBytes {m : Memory} {a : Nat} {w : BitVec 32} (h : fetchBytes m a = bytesOfWord w) :
    dwordAt m a = w := by
  simp only [fetchBytes, bytesOfWord, List.cons.injEq, and_true] at h
  obtain ⟨h0, h1, h2, h3⟩ := h
  rw [dwordAt, h0, h1, h2, h3]
  exact wordOfBytes_extract w

/-- A word placed at an address changes the four bytes there alone. -/
theorem Memory.read_load_word_apart (m : Memory) {a b : Nat} (w : BitVec 32) (h : b < a ∨ a + 4 ≤ b) :
    (m.load a (bytesOfWord w)).read b = m.read b := by
  rw [Memory.read_load]
  split
  · exact List.getD_eq_default _ _ (show 4 ≤ b - a by omega)
  · rfl

theorem State.withFetchWord_eq (s : State) (w : BitVec 32) : s.withFetchWord 32 w.toNat = s.placeWord w := by
  rw [State.withFetchWord, Nat.mod_eq_of_lt w.isLt, BitVec.ofNat_toNat, BitVec.setWidth_eq]

/-- A placed word that decodes is what the next fetch gives. -/
theorem fetch_placeWord {s : State} {w : BitVec 32} {i : Instr} (ha : s.ip.extractLsb' 0 2 = 0)
    (hb : s.accessible s.ip .d = true) (hd : decode s.cfg w = .ok i) : fetch (s.placeWord w) = .instr i := by
  have hfetchable : (s.placeWord w).fetchable :=
    ⟨ha, hb, .inr fun b hmem => ((Stored.mem_removeRange s.stored s.ip.toNat 4 b).1 hmem).2⟩
  refine (fetch_of_fetchable hfetchable).1 i [] ?_
  exact (congrArg (decodeBytes s.cfg) (fetchBytes_load s.mem s.ip.toNat w)).trans (decodeBytes_bytesOfWord hd)

/-- Settles O7: nothing comes from outside, so the step runs what the fetch gives, and the frame is that of the placed
bytes. -/
theorem placedWordRuns : Obligations.PlacedWordRuns := by
  unfold Obligations.PlacedWordRuns
  intro s w i hi hp ha hb hd
  rw [State.withFetchWord_eq]
  have hr : (s.placeWord w).received = (none, s.placeWord w) := State.received_nothing hi hp
  exact ⟨step_of_fetch_instr hr (fetch_placeWord ha hb hd), fun b hapart => s.mem.read_load_word_apart w hapart,
    dwordAt_of_fetchBytes (fetchBytes_load s.mem s.ip.toNat w), Stored.mem_removeRange s.stored s.ip.toNat 4, rfl⟩

end Sys2Proof.Machine
end

