-- ==== Sys2Proof/Proofs/LoadStore.lean ====
section
/-! PROOF. Loads and stores at backed addresses, the fault of every data access at an unbacked one, and FENCE
(20_memory.md R65, R73, R76, 44_system.md R259, 47_srm64.md R384 to R386). -/

namespace Sys2Proof.Machine

/-! ## Backed accesses -/

section
variable {i : Instr} {s : State} {sz : Size} {rs1 : Reg} {imm : BitVec 12}

/-- A load at a backed address gives the datum there. -/
theorem givesReg_of_loadInto {sg : Bool} {rd : Reg} (h : exec i s = loadInto sz sg rd rs1 imm s)
    (ha : s.accessible (alignTo sz (s.effAddr rs1 imm)) sz = true) :
    givesReg i s rd (datumAt s.cfg s.mem (alignTo sz (s.effAddr rs1 imm)).toNat sz sg) := by
  rw [← widen_readLE]
  exact givesReg_of_setReg (h.trans (if_pos ha)) (truncX_widen _ _ _ _)

/-- A store at a backed address leaves the low bytes of `rs2` there. -/
theorem givesStore_of_storeFrom {rs2 : Reg} (h : exec i s = storeFrom sz rs1 rs2 imm s)
    (ha : s.accessible (alignTo sz (s.effAddr rs1 imm)) sz = true) :
    givesStore i s (alignTo sz (s.effAddr rs1 imm)).toNat sz.bytes (s.readReg rs2) :=
  ⟨_, h.trans (if_pos ha), memStored_of_memWrite rfl rfl rfl, fun _ => rfl, ⟨rfl, rfl⟩, ⟨rfl, rfl, rfl⟩, rfl⟩

end

/-- Settles O35: two loads, unsigned of a qword and signed of a dword, and a store of a qword. -/
theorem qwordMemory : Obligations.QwordMemory := by
  unfold Obligations.QwordMemory
  intro rd rs1 rs2 imm s
  exact ⟨givesReg_of_loadInto (sz := .q) (sg := false) rfl, givesReg_of_loadInto (sz := .d) (sg := true) rfl,
    givesStore_of_storeFrom (sz := .q) rfl⟩

/-! ## Unbacked accesses -/

section
variable {s : State} {sz : Size} {rd rs1 rs2 : Reg}

theorem loadInto_unbacked {imm : BitVec 12} (sg : Bool) (h : s.accessible (alignTo sz (s.effAddr rs1 imm)) sz = false) :
    loadInto sz sg rd rs1 imm s = .fault .unbackedAddress := if_neg (Bool.eq_false_iff.1 h)

theorem storeFrom_unbacked {imm : BitVec 12} (h : s.accessible (alignTo sz (s.effAddr rs1 imm)) sz = false) :
    storeFrom sz rs1 rs2 imm s = .fault .unbackedAddress := if_neg (Bool.eq_false_iff.1 h)

theorem loadLink_unbacked (sg : Bool) (h : s.accessible (s.atomAddr sz rs1) sz = false) :
    loadLink sz sg rd rs1 s = .fault .unbackedAddress := if_neg (Bool.eq_false_iff.1 h)

theorem compareExchange_unbacked (h : s.accessible (s.atomAddr sz rs1) sz = false) :
    compareExchange sz rd rs1 rs2 s = .fault .unbackedAddress := if_neg (Bool.eq_false_iff.1 h)

theorem exchangeOperate_unbacked (op : Word → Word → Word) (sg : Bool)
    (h : s.accessible (s.atomAddr sz rs1) sz = false) :
    exchangeOperate op sz sg rd rs1 rs2 s = .fault .unbackedAddress := if_neg (Bool.eq_false_iff.1 h)

end

/-- Settles O37: a case split over the instructions that access memory whatever the link is, each by the fault of the
shared operation that its arm calls; the others make no such access. -/
theorem unbackedAccessFaults : Obligations.UnbackedAccessFaults := by
  unfold Obligations.UnbackedAccessFaults
  intro i s a sz hacc hb
  cases i with
  | ldb | ldsb | ldw | ldsw | ldd | ldq | ldsd =>
    cases hacc
    exact loadInto_unbacked _ hb
  | stb | stw | std | stq =>
    cases hacc
    exact storeFrom_unbacked hb
  | llB | llW | llD | llSb | llSw | llQ | llSd =>
    cases hacc
    exact loadLink_unbacked _ hb
  | acmpxchgB | acmpxchgW | acmpxchgD | acmpxchgQ =>
    cases hacc
    exact compareExchange_unbacked hb
  | axaddB | axaddW | axaddD | axaddSb | axaddSw | axaddQ | axaddSd
  | axsubB | axsubW | axsubD | axsubSb | axsubSw | axsubQ | axsubSd
  | axandB | axandW | axandD | axandSb | axandSw | axandQ | axandSd
  | axiorB | axiorW | axiorD | axiorSb | axiorSw | axiorQ | axiorSd
  | axxorB | axxorW | axxorD | axxorSb | axxorSw | axxorQ | axxorSd
  | axmaxB | axmaxW | axmaxD | axmaxSb | axmaxSw | axmaxQ | axmaxSd
  | axminB | axminW | axminD | axminSb | axminSw | axminQ | axminSd =>
    cases hacc
    exact exchangeOperate_unbacked _ _ hb
  | _ => cases hacc

/-! ## FENCE -/

/-- An advance changes IP alone. -/
theorem onlyAdvanced_advance (s : State) : onlyAdvanced s s.advance :=
  ⟨fun _ => rfl, ⟨fun _ => rfl, rfl⟩, rfl, ⟨rfl, rfl⟩, ⟨rfl, rfl, rfl⟩, rfl⟩

/-- Settles O50: a FENCE is an advance, at every level. -/
theorem fenceOnlyAdvances : Obligations.FenceOnlyAdvances := by
  unfold Obligations.FenceOnlyAdvances
  exact fun _ s => ⟨s.advance, rfl, onlyAdvanced_advance s⟩

end Sys2Proof.Machine
end

