-- ==== Sys2Proof/Proofs/RoundTrip.lean ====
section
/-! PROOF. The decoder and the encoder are inverse to one another (30_encoding.md R90, R93 to R99, R107 to R115): an
encoded instruction decodes to itself, and the encoding of what a word selects is that word with its unused fields 0. -/

namespace Sys2Proof

/-! ## From the instruction to its word and back -/

theorem wellFormed_iff {c : Config} {i : Instr} :
    WellFormed c i = true ↔ i.available c = true ∧ i.regs.all (Reg.present c) = true ∧ i.fenceTyped = true := by
  rw [WellFormed, Bool.and_eq_true, Bool.and_eq_true, and_assoc]

theorem decode_encode_of_wellFormed {c : Config} {i : Instr} (h : WellFormed c i = true) :
    decode c (encode i) = .ok i := by
  obtain ⟨hav, hregs, hf⟩ := wellFormed_iff.1 h
  rw [decode_encode c hf, hav, hregs]
  rfl

/-- The decoder reads the first four bytes as a word and leaves the others. -/
theorem decodeBytes_bytesOfWord_append {c : Config} {w : BitVec 32} {i : Instr} (rest : List Byte)
    (h : decode c w = .ok i) : decodeBytes c (bytesOfWord w ++ rest) = .ok (i, rest) := by
  simp only [bytesOfWord, List.cons_append, List.nil_append, decodeBytes, Machine.wordOfBytes_extract, h]

/-- Settles O2: the four bytes are the encoded word, which decodes to its instruction. -/
theorem encodeThenDecode : Obligations.EncodeThenDecode := by
  unfold Obligations.EncodeThenDecode
  exact fun _ _ rest h => decodeBytes_bytesOfWord_append rest (decode_encode_of_wellFormed h)

theorem decode_of_encode_eq {c : Config} {w : BitVec 32} {i : Instr} (he : encode i = w)
    (h : WellFormed c i = true) : decode c w = .ok i := he ▸ decode_encode_of_wellFormed h

/-- Settles O1: each word is the encoding of its instruction, which SRM64SMA has. -/
theorem sampleWordsDecode : Obligations.SampleWordsDecode := by
  unfold Obligations.SampleWordsDecode
  refine ⟨?_, ?_, ?_, ?_, ?_, ?_, ?_, ?_, ?_, ?_, ?_, ?_, ?_, ?_, ?_, ?_, ?_, ?_⟩ <;>
    exact decode_of_encode_eq (by decide) (by decide)

/-! ## From the word to its instruction and back -/

/-- The word names a row of the opcode table and its operands: the encoding of the instruction is the word with the
unused fields 0. -/
structure SelectedBy (w : BitVec 32) (i : Instr) : Prop where
  fenceTyped : i.fenceTyped = true
  encode_eq : encode i = w &&& ~~~i.unusedBits

theorem and_not_eq_self {n : Nat} {x m : BitVec n} (h : x &&& m = 0) : x &&& ~~~m = x := by
  apply BitVec.eq_of_getLsbD_eq
  intro k hk
  have hbit : (x.getLsbD k && m.getLsbD k) = false := by
    rw [← BitVec.getLsbD_and, h]
    exact BitVec.getLsbD_zero
  rw [BitVec.getLsbD_and, BitVec.getLsbD_not, decide_eq_true hk, Bool.true_and]
  cases hx : x.getLsbD k with
  | false => rfl
  | true =>
    rw [hx, Bool.true_and] at hbit
    rw [hbit]
    rfl

section
variable {w : BitVec 32} {i : Instr}

theorem SelectedBy.encode_eq_self (h : SelectedBy w i) (hu : w &&& i.unusedBits = 0) : encode i = w :=
  h.encode_eq.trans (and_not_eq_self hu)

/-- A row that uses every bit of the word. -/
theorem SelectedBy.of_encode_eq_self (ht : i.fenceTyped = true) (hu : i.unusedBits = 0) (he : encode i = w) :
    SelectedBy w i := ⟨ht, by rw [hu, he]; exact BitVec.and_allOnes.symm⟩

end

/-! ### The formats

A word whose selecting fields are those of a row is the row's format filled with the fields of the word; where the row
leaves a field unused, the encoding holds 0. -/

section
variable {w : BitVec 32} {op : BitVec 6} {fn7 : BitVec 7} {fn4 : BitVec 4}

theorem encDSS_of_fields (hop : opcodeOf w = op) (h7 : (fn7Of w).toNat = fn7.toNat)
    (h4 : (fn4Of w).toNat = fn4.toNat) : encDSS op fn7 fn4 (rdOf w) (rs1Of w) (rs2Of w) = w := by
  rw [← hop, ← BitVec.eq_of_toNat_eq h7, ← BitVec.eq_of_toNat_eq h4, encDSS_fields]

theorem encDSI_of_fields (hop : opcodeOf w = op) (h4 : (fn4Of w).toNat = fn4.toNat) :
    encDSI op fn4 (rdOf w) (rs1Of w) (imm12Of w) = w := by
  rw [← hop, ← BitVec.eq_of_toNat_eq h4, encDSI_fields]

theorem encSSI_of_fields (hop : opcodeOf w = op) (h4 : (fn4Of w).toNat = fn4.toNat) :
    encSSI op fn4 (rs1Of w) (rs2Of w) (immSSIOf w) = w := by
  rw [← hop, ← BitVec.eq_of_toNat_eq h4, encSSI_fields]

theorem encDI_of_fields (hop : opcodeOf w = op) : encDI op (rdOf w) (imm21Of w) = w := by
  rw [← hop, encDI_fields]

theorem encDSS_and_encDSS (op op' : BitVec 6) (fn7 fn7' : BitVec 7) (fn4 fn4' : BitVec 4)
    (rd rd' rs1 rs1' rs2 rs2' : Reg) :
    encDSS op fn7 fn4 rd rs1 rs2 &&& encDSS op' fn7' fn4' rd' rs1' rs2' =
      encDSS (op &&& op') (fn7 &&& fn7') (fn4 &&& fn4') (rd &&& rd') (rs1 &&& rs1') (rs2 &&& rs2') := by
  apply BitVec.eq_of_getLsbD_eq
  intro k _
  simp only [encDSS, BitVec.getLsbD_and, BitVec.getLsbD_append]
  repeat' split
  all_goals rfl

theorem encDSI_and_encDSI (op op' : BitVec 6) (fn4 fn4' : BitVec 4) (rd rd' rs1 rs1' : Reg) (imm imm' : BitVec 12) :
    encDSI op fn4 rd rs1 imm &&& encDSI op' fn4' rd' rs1' imm' =
      encDSI (op &&& op') (fn4 &&& fn4') (rd &&& rd') (rs1 &&& rs1') (imm &&& imm') := by
  apply BitVec.eq_of_getLsbD_eq
  intro k _
  simp only [encDSI, BitVec.getLsbD_and, BitVec.getLsbD_append]
  repeat' split
  all_goals rfl

/-- Format FNC is format DSS with the I, O, R, W bits low in `rs2`. -/
theorem encFNC_eq_encDSS (iorw : BitVec 4) : encFNC op fn7 fn4 iorw = encDSS op fn7 fn4 0 0 (0#1 ++ iorw) := by
  apply BitVec.eq_of_getLsbD_eq
  intro k _
  simp only [encFNC, encDSS, BitVec.getLsbD_append]
  simp [Nat.sub_eq_zero_iff_le]; grind

theorem rs2Of_and_fifteen (w : BitVec 32) : rs2Of w &&& 15 = 0#1 ++ iorwOf w := by
  have hmask (x : BitVec 5) : x &&& 15 = 0#1 ++ x.extractLsb' 0 4 := by decide +revert
  rw [hmask]
  congr 1
  apply BitVec.eq_of_getLsbD_eq
  intro k hk
  simp [rs2Of, iorwOf, hk, show k < 5 by omega]

/-- A row of format DSS, where `m`, `m1` and `m2` mask what it uses of the fields `rd`, `rs1` and `rs2`. -/
theorem SelectedBy.of_encDSS {i : Instr} {rd rs1 rs2 : Reg} (m m1 m2 : Reg) (ht : i.fenceTyped = true)
    (hu : i.unusedBits = ~~~encDSS (.allOnes 6) (.allOnes 7) (.allOnes 4) m m1 m2)
    (he : encode i = encDSS op fn7 fn4 rd rs1 rs2) (hop : opcodeOf w = op) (h7 : (fn7Of w).toNat = fn7.toNat)
    (h4 : (fn4Of w).toNat = fn4.toNat) (hrd : rdOf w &&& m = rd) (hrs1 : rs1Of w &&& m1 = rs1)
    (hrs2 : rs2Of w &&& m2 = rs2) : SelectedBy w i := by
  refine ⟨ht, ?_⟩
  conv_rhs => rw [← encDSS_of_fields hop h7 h4]
  rw [he, hu, BitVec.not_not, encDSS_and_encDSS, hrd, hrs1, hrs2, BitVec.and_allOnes, BitVec.and_allOnes,
    BitVec.and_allOnes]

/-- A row of format DSI, or CSB, where `m` and `m1` mask what it uses of the fields `rd` and `rs1`. -/
theorem SelectedBy.of_encDSI {i : Instr} {rd rs1 : Reg} (m m1 : Reg) (ht : i.fenceTyped = true)
    (hu : i.unusedBits = ~~~encDSI (.allOnes 6) (.allOnes 4) m m1 (.allOnes 12))
    (he : encode i = encDSI op fn4 rd rs1 (imm12Of w)) (hop : opcodeOf w = op)
    (h4 : (fn4Of w).toNat = fn4.toNat) (hrd : rdOf w &&& m = rd) (hrs1 : rs1Of w &&& m1 = rs1) : SelectedBy w i := by
  refine ⟨ht, ?_⟩
  conv_rhs => rw [← encDSI_of_fields hop h4]
  rw [he, hu, BitVec.not_not, encDSI_and_encDSI, hrd, hrs1, BitVec.and_allOnes, BitVec.and_allOnes,
    BitVec.and_allOnes]

end

/-! ### The rows of each opcode -/

section
variable {w : BitVec 32} {i : Instr}

theorem selectedBy_of_decodeOp00 (hop : opcodeOf w = 0x0) : decodeOp00 w = some i → SelectedBy w i := by
  fun_cases decodeOp00 w with
  | case37 => nofun
  | _ h4 h7 =>
    rintro ⟨⟩
    exact .of_encode_eq_self rfl rfl (encDSS_of_fields hop h7 h4)

theorem selectedBy_of_decodeOp01 (hop : opcodeOf w = 0x1) : decodeOp01 w = some i → SelectedBy w i := by
  fun_cases decodeOp01 w with
  | case11 => nofun
  | _ h4 =>
    rintro ⟨⟩
    exact .of_encode_eq_self rfl rfl (encDSI_of_fields hop h4)

theorem selectedBy_of_decodeOp03 (hop : opcodeOf w = 0x3) : decodeOp03 w = some i → SelectedBy w i := by
  fun_cases decodeOp03 w with
  | case5 => nofun
  | _ h4 =>
    rintro ⟨⟩
    exact .of_encode_eq_self rfl rfl (encSSI_of_fields hop h4)

theorem selectedBy_of_decodeOp04 (hop : opcodeOf w = 0x4) : decodeOp04 w = some i → SelectedBy w i := by
  fun_cases decodeOp04 w with
  | case8 => nofun
  | _ h4 =>
    rintro ⟨⟩
    exact .of_encode_eq_self rfl rfl (encDSI_of_fields hop h4)

theorem selectedBy_of_decodeOp06 (hop : opcodeOf w = 0x6) : decodeOp06 w = some i → SelectedBy w i := by
  fun_cases decodeOp06 w with
  | case2 => nofun
  | _ h4 =>
    rintro ⟨⟩
    exact .of_encode_eq_self rfl rfl (encDSI_of_fields hop h4)

theorem selectedBy_of_decodeOp07 (hop : opcodeOf w = 0x7) : decodeOp07 w = some i → SelectedBy w i := by
  fun_cases decodeOp07 w with
  | case7 => nofun
  | _ h4 =>
    rintro ⟨⟩
    exact .of_encode_eq_self rfl rfl (encSSI_of_fields hop h4)

/-- The rows of the S extension: no operands; CSRR, CSRW, CSRS, CSRC; IN.x without `rs2`; OUT.x without `rd`; FENCE. -/
theorem selectedBy_of_decodeOp08 (hop : opcodeOf w = 0x8) : decodeOp08 w = some i → SelectedBy w i := by
  fun_cases decodeOp08 w with
  | case1 h4 h7 | case2 h4 h7 | case4 h4 h7 | case5 h4 h7 =>
    rintro ⟨⟩
    exact .of_encDSS 0 0 0 rfl rfl rfl hop h7 h4 BitVec.and_zero BitVec.and_zero BitVec.and_zero
  | case7 h4 | case9 h4 | case10 h4 =>
    rintro ⟨⟩
    exact .of_encDSI 31 0 rfl rfl rfl hop h4 BitVec.and_allOnes BitVec.and_zero
  | case8 h4 =>
    rintro ⟨⟩
    exact .of_encDSI 0 31 rfl rfl rfl hop h4 BitVec.and_zero BitVec.and_allOnes
  | case11 h4 h7 | case12 h4 h7 | case13 h4 h7 | case14 h4 h7 | case15 h4 h7 =>
    rintro ⟨⟩
    exact .of_encDSS 31 31 0 rfl rfl rfl hop h7 h4 BitVec.and_allOnes BitVec.and_allOnes BitVec.and_zero
  | case17 h4 h7 | case18 h4 h7 | case19 h4 h7 =>
    rintro ⟨⟩
    exact .of_encDSS 0 31 31 rfl rfl rfl hop h7 h4 BitVec.and_zero BitVec.and_allOnes BitVec.and_allOnes
  | case21 h4 h =>
    rintro ⟨⟩
    obtain ⟨h7, hiorw⟩ := h
    exact .of_encDSS 0 0 15 (bne_iff_ne.2 hiorw) rfl (encFNC_eq_encDSS _) hop (congrArg BitVec.toNat h7) h4
      BitVec.and_zero BitVec.and_zero (rs2Of_and_fifteen w)
  | case3 | case6 | case16 | case20 | case22 | case23 => nofun

/-- The rows of the A extension: LL.x without `rs2`, and the others. -/
theorem selectedBy_of_decodeOp09 (hop : opcodeOf w = 0x9) : decodeOp09 w = some i → SelectedBy w i := by
  fun_cases decodeOp09 w with
  | case1 h4 h7 | case2 h4 h7 | case3 h4 h7 | case4 h4 h7 | case5 h4 h7 | case6 h4 h7 | case7 h4 h7 =>
    rintro ⟨⟩
    exact .of_encDSS 31 31 0 rfl rfl rfl hop h7 h4 BitVec.and_allOnes BitVec.and_allOnes BitVec.and_zero
  | case65 => nofun
  | _ h4 h7 =>
    rintro ⟨⟩
    exact .of_encode_eq_self rfl rfl (encDSS_of_fields hop h7 h4)

theorem selectedBy_of_decodeOp0A (hop : opcodeOf w = 0xA) : decodeOp0A w = some i → SelectedBy w i := by
  fun_cases decodeOp0A w with
  | case11 => nofun
  | _ h4 =>
    rintro ⟨⟩
    exact .of_encode_eq_self rfl rfl (encDSI_of_fields hop h4)

/-- Every word that names a row of the opcode table: a case split over the opcodes. -/
theorem selectedBy_of_decodeWord : decodeWord w = some i → SelectedBy w i := by
  fun_cases decodeWord w with
  | case1 hop => exact selectedBy_of_decodeOp00 (BitVec.eq_of_toNat_eq hop)
  | case2 hop => exact selectedBy_of_decodeOp01 (BitVec.eq_of_toNat_eq hop)
  | case3 hop | case6 hop =>
    rintro ⟨⟩
    exact .of_encode_eq_self rfl rfl (encDI_of_fields (BitVec.eq_of_toNat_eq hop))
  | case4 hop => exact selectedBy_of_decodeOp03 (BitVec.eq_of_toNat_eq hop)
  | case5 hop => exact selectedBy_of_decodeOp04 (BitVec.eq_of_toNat_eq hop)
  | case7 hop => exact selectedBy_of_decodeOp06 (BitVec.eq_of_toNat_eq hop)
  | case8 hop => exact selectedBy_of_decodeOp07 (BitVec.eq_of_toNat_eq hop)
  | case9 hop => exact selectedBy_of_decodeOp08 (BitVec.eq_of_toNat_eq hop)
  | case10 hop => exact selectedBy_of_decodeOp09 (BitVec.eq_of_toNat_eq hop)
  | case11 hop => exact selectedBy_of_decodeOp0A (BitVec.eq_of_toNat_eq hop)
  | case12 => nofun

end

/-! ### The decoder -/

/-- What holds where none of the decoder's rejections applies. -/
theorem decode_ok {c : Config} {w : BitVec 32} {i : Instr} :
    decode c w = .ok i → decodeWord w = some i ∧ i.available c = true ∧
      (c.unusedField = .strict → w &&& i.unusedBits = 0) ∧ i.regs.all (Reg.present c) = true := by
  fun_cases decode c w with
  | case1 | case2 | case3 | case4 => nofun
  | case5 j hw ha hu hr =>
    rintro ⟨⟩
    exact ⟨hw, by simpa using ha, fun hstrict => by_contra fun hne => hu ⟨hstrict, hne⟩, by simpa using hr⟩

/-- Settles O3: a word that decodes names its instruction, and under the strict policy its unused fields are 0. -/
theorem decodedWordEncodesBack : Obligations.DecodedWordEncodesBack := by
  unfold Obligations.DecodedWordEncodesBack
  intro c w i h
  obtain ⟨hw, hav, hunused, hregs⟩ := decode_ok h
  have hsel := selectedBy_of_decodeWord hw
  exact ⟨wellFormed_iff.2 ⟨hav, hregs, hsel.fenceTyped⟩, fun hstrict => hsel.encode_eq_self (hunused hstrict)⟩

end Sys2Proof
end

