-- ==== Sys2Proof/Proofs/Shifts.lean ====
section
/-! PROOF. Shifts by the operation width or more under each policy of `ShAmt` (40_base_arithmetic.md R122, 47_srm64.md
R387), and LUI (41_base_lui_memory.md R150). -/

namespace Sys2Proof.Machine

/-! ## The frame of an arithmetic result -/

section
variable {i : Instr} {s : State} {rd rs1 : Reg}

theorem givesReg_of_arith32 {op : BitVec 32 → BitVec 32 → BitVec 32} {b : BitVec 32}
    (h : exec i s = .next (arith32 op rd rs1 b s)) :
    givesReg i s rd (sextX s.cfg (op (low32 (s.readReg rs1)) b)) :=
  givesReg_of_setReg h (truncX_sextX _ _)

theorem givesReg_of_arith64 {op : Word → Word → Word} {b : Word} (h : exec i s = .next (arith64 op rd rs1 b s)) :
    givesReg i s rd (truncX s.cfg (op (s.readReg rs1) b)) :=
  givesReg_of_setReg h rfl

end

/-! ## Amounts of the width or more

Such an amount falls under the policy: the literal shift leaves nothing of the operand but its sign, and the low bits of
the amount give a shift below the width. -/

section
variable {w : Nat} {a b : BitVec w}

theorem shiftedPast_aluShr (p : ShiftPolicy) (h : w ≤ b.toNat) : shiftedPast p .shr a b (aluShr p a b) := by
  unfold aluShr
  rw [if_neg (Nat.not_lt.2 h)]
  cases p with
  | literal => rfl
  | lowBits =>
    intro k _
    rw [BitVec.getLsbD_ushiftRight, Nat.add_comm]
    rfl
  | other => rfl

theorem shiftedPast_aluAsr (p : ShiftPolicy) (h : w ≤ b.toNat) : shiftedPast p .asr a b (aluAsr p a b) := by
  unfold aluAsr
  rw [if_neg (Nat.not_lt.2 h)]
  cases p with
  | literal => simp [shiftedPast]
  | lowBits =>
    intro k hk
    rw [BitVec.getLsbD_sshiftRight, decide_eq_false (Nat.not_le.2 hk), Nat.add_comm, BitVec.msb_eq_getLsbD_last,
      shiftedBit]
    split
    · rw [Nat.min_eq_left (by omega)]
      rfl
    · rw [Nat.min_eq_right (by omega)]
      rfl
  | other => rfl

theorem shiftedPast_aluShl (p : ShiftPolicy) (h : w ≤ b.toNat) : shiftedPast p .shl a b (aluShl p a b) := by
  unfold aluShl
  rw [if_neg (Nat.not_lt.2 h)]
  cases p with
  | literal => rfl
  | lowBits =>
    intro k hk
    rw [BitVec.getLsbD_shiftLeft, decide_eq_true hk, Bool.true_and, ← decide_not]
    simp [shiftedBit]
  | other => rfl

end

/-- Settles O22: each shift completes with its operation on the operands, which at such an amount is what the policy
gives. -/
theorem shiftsAtOrAboveWidth : Obligations.ShiftsAtOrAboveWidth := by
  unfold Obligations.ShiftsAtOrAboveWidth
  intro rd rs1 rs2 imm s
  exact ⟨fun h => ⟨_, shiftedPast_aluShr _ h, givesReg_of_arith32 rfl⟩,
    fun h => ⟨_, shiftedPast_aluShr _ h, givesReg_of_arith32 rfl⟩,
    fun h => ⟨_, shiftedPast_aluAsr _ h, givesReg_of_arith32 rfl⟩,
    fun h => ⟨_, shiftedPast_aluAsr _ h, givesReg_of_arith32 rfl⟩,
    fun h => ⟨_, shiftedPast_aluShl _ h, givesReg_of_arith32 rfl⟩,
    fun h => ⟨_, shiftedPast_aluShl _ h, givesReg_of_arith32 rfl⟩,
    fun h => ⟨_, shiftedPast_aluShr _ h, givesReg_of_arith64 rfl⟩,
    fun h => ⟨_, shiftedPast_aluShr _ h, givesReg_of_arith64 rfl⟩,
    fun h => ⟨_, shiftedPast_aluAsr _ h, givesReg_of_arith64 rfl⟩,
    fun h => ⟨_, shiftedPast_aluAsr _ h, givesReg_of_arith64 rfl⟩,
    fun h => ⟨_, shiftedPast_aluShl _ h, givesReg_of_arith64 rfl⟩,
    fun h => ⟨_, shiftedPast_aluShl _ h, givesReg_of_arith64 rfl⟩⟩

/-! ## LUI -/

/-- The 21 bits above eleven zeros are the immediate times `2^11`. -/
theorem luiValue_eq (imm : BitVec 21) : luiValue imm = BitVec.ofNat 32 (imm.toNat * 2 ^ 11) := by
  apply BitVec.eq_of_toNat_eq
  have himm := imm.isLt
  rw [luiValue, BitVec.toNat_append, BitVec.toNat_ofNat, BitVec.toNat_ofNat, Nat.zero_mod, Nat.or_zero,
    Nat.shiftLeft_eq, Nat.mod_eq_of_lt (by omega)]

/-- Settles O25: the concatenation that LUI writes is the product, which has `XLEN` bits once sign-extended. -/
theorem loadUpperImmediate : Obligations.LoadUpperImmediate := by
  unfold Obligations.LoadUpperImmediate
  intro rd imm s
  rw [← luiValue_eq]
  exact givesReg_of_setReg rfl (truncX_sextX _ _)

end Sys2Proof.Machine
end

