-- ==== Sys2Proof/Proofs/BaseArithmetic.lean ====
section
/-! PROOF. The base arithmetic in the 32-bit context (40_base_arithmetic.md R120 to R143). The facts about the operations
of `BitVec` and of Alu.lean and Flags.lean are stated at every width. -/

namespace Sys2Proof

/-- A word written out as the encoding of an instruction selects that instruction. -/
theorem decodeWord_of_encode_eq {w : BitVec 32} {i : Instr} (hf : i.fenceTyped = true) (he : encode i = w) :
    decodeWord w = some i := he ▸ decodeWord_encode hf

end Sys2Proof

namespace Sys2Proof.Machine

/-! ## Sums and differences -/

section
variable {w : Nat}

/-- The wrapped difference is that of the unsigned operands. -/
theorem sub_eq_ofInt (a b : BitVec w) : a - b = BitVec.ofInt w ((a.toNat : Int) - b.toNat) := by
  apply BitVec.eq_of_toInt_eq
  rw [BitVec.toInt_sub, BitVec.toInt_ofInt, BitVec.toInt_eq_toNat_bmod, BitVec.toInt_eq_toNat_bmod,
    Int.sub_bmod_bmod, Int.bmod_sub_bmod]

/-- The wrapped sum with an extended immediate is that of the unsigned operand and the signed immediate. -/
theorem add_signExtend_eq_ofInt {v : Nat} (a : BitVec w) (imm : BitVec v) :
    a + imm.signExtend w = BitVec.ofInt w (a.toNat + imm.toInt) := by
  rw [BitVec.ofInt_add, BitVec.ofInt_natCast, BitVec.ofNat_toNat, BitVec.setWidth_eq, BitVec.signExtend]

end

/-- Settles O18: the sum and the difference of `BitVec` are the wrapped ones of the operands as numbers. -/
theorem addAndSubtract : Obligations.AddAndSubtract := by
  unfold Obligations.AddAndSubtract
  intro rd rs1 rs2 imm s
  dsimp only
  rw [← BitVec.add_def, ← sub_eq_ofInt, ← add_signExtend_eq_ofInt]
  exact ⟨givesReg_of_arith32 rfl, givesReg_of_arith32 rfl, givesReg_of_arith32 rfl,
    decodeWord_of_encode_eq (by decide) (by decide), by decide,
    decodeWord_of_encode_eq (by decide) (by decide), by decide,
    decodeWord_of_encode_eq (by decide) (by decide), by decide,
    decodeWord_of_encode_eq (by decide) (by decide), by decide⟩

/-! ## Results bit by bit -/

theorem givesBits32_of_arith32 {i : Instr} {s : State} {rd rs1 : Reg} {op : BitVec 32 → BitVec 32 → BitVec 32}
    {b : BitVec 32} {bit : Nat → Bool} (h : exec i s = .next (arith32 op rd rs1 b s))
    (hbit : ∀ k, k < 32 → (op (low32 (s.readReg rs1)) b).getLsbD k = bit k) : givesBits32 i s rd bit :=
  ⟨_, hbit, givesReg_of_arith32 h⟩

/-- Past its own bits an extended value has its top bit in every place. -/
theorem signExtend_getLsbD_min {v w k : Nat} (x : BitVec v) (hk : k < w) :
    (x.signExtend w).getLsbD k = x.getLsbD (min k (v - 1)) := by
  rw [BitVec.getLsbD_signExtend, decide_eq_true hk, Bool.true_and]
  split
  · rw [Nat.min_eq_left (by omega)]
  · rw [Nat.min_eq_right (by omega), BitVec.msb_eq_getLsbD_last]

theorem imm32_getLsbD (imm : BitVec 12) {k : Nat} (hk : k < 32) : (imm32 imm).getLsbD k = imm.getLsbD (min k 11) :=
  signExtend_getLsbD_min imm hk

/-- Settles O19: the operations of `BitVec` bit by bit, and the bits of the extended immediate. -/
theorem bitwiseOperations : Obligations.BitwiseOperations := by
  unfold Obligations.BitwiseOperations
  intro rd rs1 rs2 imm s
  exact ⟨givesBits32_of_arith32 rfl fun _ _ => BitVec.getLsbD_and,
    givesBits32_of_arith32 rfl fun _ _ => BitVec.getLsbD_or,
    givesBits32_of_arith32 rfl fun _ _ => BitVec.getLsbD_xor,
    givesBits32_of_arith32 rfl fun _ hk => by rw [BitVec.getLsbD_and, imm32_getLsbD imm hk],
    givesBits32_of_arith32 rfl fun _ hk => by rw [BitVec.getLsbD_or, imm32_getLsbD imm hk],
    givesBits32_of_arith32 rfl fun _ hk => by rw [BitVec.getLsbD_xor, imm32_getLsbD imm hk],
    decodeWord_of_encode_eq (by decide) (by decide), by decide,
    decodeWord_of_encode_eq (by decide) (by decide), by decide,
    decodeWord_of_encode_eq (by decide) (by decide), by decide,
    decodeWord_of_encode_eq (by decide) (by decide), by decide,
    decodeWord_of_encode_eq (by decide) (by decide), by decide,
    decodeWord_of_encode_eq (by decide) (by decide), by decide⟩

/-! ## Shifts by less than the width -/

section
variable {w n : Nat} {a b : BitVec w}

theorem aluShr_getLsbD (p : ShiftPolicy) (hb : b.toNat = n) (hn : n < w) (k : Nat) :
    (aluShr p a b).getLsbD k = shiftedBit .shr a n k := by
  subst hb
  unfold aluShr
  rw [if_pos hn, BitVec.getLsbD_ushiftRight, Nat.add_comm, shiftedBit]

theorem aluAsr_getLsbD (p : ShiftPolicy) (hb : b.toNat = n) (hn : n < w) {k : Nat} (hk : k < w) :
    (aluAsr p a b).getLsbD k = shiftedBit .asr a n k := by
  subst hb
  unfold aluAsr
  rw [if_pos hn, BitVec.getLsbD_sshiftRight, decide_eq_false (Nat.not_le.2 hk), Bool.not_false, Bool.true_and,
    Nat.add_comm, shiftedBit]
  split
  · rw [Nat.min_eq_left (by omega)]
  · rw [Nat.min_eq_right (by omega), BitVec.msb_eq_getLsbD_last]

theorem aluShl_getLsbD (p : ShiftPolicy) (hb : b.toNat = n) (hn : n < w) {k : Nat} (hk : k < w) :
    (aluShl p a b).getLsbD k = shiftedBit .shl a n k := by
  subst hb
  unfold aluShl
  rw [if_pos hn, BitVec.getLsbD_shiftLeft, decide_eq_true hk, Bool.true_and, ← decide_not, shiftedBit]
  simp only [Nat.not_lt]

end

/-- An immediate with its top bit 0 is extended by zeros. -/
theorem toNat_signExtend_of_lt {v w : Nat} (x : BitVec v) (hvw : v ≤ w) (h : x.toNat < 2 ^ (v - 1)) :
    (x.signExtend w).toNat = x.toNat := by
  have hmsb : x.msb = false := by rw [BitVec.msb_eq_decide, decide_eq_false (Nat.not_le.2 h)]
  rw [BitVec.signExtend_eq_setWidth_of_msb_false hmsb, BitVec.toNat_setWidth_of_le hvw]

/-- An amount below 32 in the immediate is that amount in the 32-bit context. -/
theorem imm32_toNat_of_lt {imm : BitVec 12} (h : imm.toNat < 32) : (imm32 imm).toNat = imm.toNat :=
  toNat_signExtend_of_lt imm (by decide) (by omega)

/-- Settles O20: each shift bit by bit, the amount the low half of a register or the immediate. -/
theorem shiftsBelowWidth : Obligations.ShiftsBelowWidth := by
  unfold Obligations.ShiftsBelowWidth
  intro rd rs1 rs2 imm s
  exact ⟨fun h => givesBits32_of_arith32 rfl fun k _ => aluShr_getLsbD _ rfl h k,
    fun h => givesBits32_of_arith32 rfl fun _ hk => aluAsr_getLsbD _ rfl h hk,
    fun h => givesBits32_of_arith32 rfl fun _ hk => aluShl_getLsbD _ rfl h hk,
    fun h => givesBits32_of_arith32 rfl fun k _ => aluShr_getLsbD _ (imm32_toNat_of_lt h) h k,
    fun h => givesBits32_of_arith32 rfl fun _ hk => aluAsr_getLsbD _ (imm32_toNat_of_lt h) h hk,
    fun h => givesBits32_of_arith32 rfl fun _ hk => aluShl_getLsbD _ (imm32_toNat_of_lt h) h hk⟩

/-! ## Carry, borrow and comparisons -/

section
variable {w : Nat}

theorem getLsbD_last_eq_decide (x : BitVec (w + 1)) : x.getLsbD w = decide (2 ^ w ≤ x.toNat) :=
  BitVec.getLsbD_last x

theorem toNat_setWidth_succ (x : BitVec w) : (x.setWidth (w + 1)).toNat = x.toNat :=
  BitVec.toNat_setWidth_of_le (Nat.le_succ w)

theorem carryOut_eq (a b : BitVec w) : carryOut a b = decide (2 ^ w ≤ a.toNat + b.toNat) := by
  have ha := a.isLt
  have hb := b.isLt
  rw [carryOut, getLsbD_last_eq_decide, BitVec.toNat_add, toNat_setWidth_succ, toNat_setWidth_succ,
    Nat.mod_eq_of_lt (by omega)]

/-- A difference below 0 wraps into the upper half of the wider range. -/
theorem borrowOut_eq (a b : BitVec w) : borrowOut a b = decide (a.toNat < b.toNat) := by
  have ha := a.isLt
  have hb := b.isLt
  rw [borrowOut, getLsbD_last_eq_decide, BitVec.toNat_sub, toNat_setWidth_succ, toNat_setWidth_succ, decide_eq_decide]
  rcases Nat.lt_or_ge a.toNat b.toNat with h | h
  · rw [Nat.mod_eq_of_lt (by omega)]
    omega
  · rw [show 2 ^ (w + 1) - b.toNat + a.toNat = a.toNat - b.toNat + 2 ^ (w + 1) by omega, Nat.add_mod_right,
      Nat.mod_eq_of_lt (by omega)]
    omega

end

/-- A truth value has `XLEN` bits. -/
theorem sextX_boolBits (c : Config) (p : Prop) [Decidable p] :
    sextX c (boolBits (w := 32) (decide p)) = if p then 1 else 0 := by
  have hone : sextX c 1#32 = 1 := by
    unfold sextX truncX
    split <;> rfl
  by_cases hp : p
  · rw [decide_eq_true hp, if_pos hp]
    exact hone
  · rw [decide_eq_false hp, if_neg hp]
    exact truncX_zero c

/-- An instruction that writes a truth value. -/
theorem givesReg_of_boolBits {i : Instr} {s : State} {rd rs1 : Reg} {test : BitVec 32 → BitVec 32 → Bool}
    {b : BitVec 32} {p : Prop} [Decidable p]
    (h : exec i s = .next (arith32 (fun x y => boolBits (test x y)) rd rs1 b s))
    (ht : test (low32 (s.readReg rs1)) b = decide p) : givesReg i s rd (if p then 1 else 0) := by
  rw [← sextX_boolBits s.cfg p, ← ht]
  exact givesReg_of_arith32 (op := fun x y => boolBits (test x y)) h

/-- Settles O23: bit 32 of the sum and of the difference, and the signed order, as comparisons of numbers. -/
theorem carryBorrowAndSignedLess : Obligations.CarryBorrowAndSignedLess := by
  unfold Obligations.CarryBorrowAndSignedLess
  intro rd rs1 rs2 s
  exact ⟨givesReg_of_boolBits rfl (carryOut_eq _ _), givesReg_of_boolBits rfl (borrowOut_eq _ _),
    givesReg_of_boolBits rfl rfl,
    decodeWord_of_encode_eq (by decide) (by decide), by decide,
    decodeWord_of_encode_eq (by decide) (by decide), by decide,
    decodeWord_of_encode_eq (by decide) (by decide), by decide⟩

theorem imm32_toNat (imm : BitVec 12) : (imm32 imm).toNat = (imm.toInt % 2 ^ 32).toNat := BitVec.toNat_ofInt _

theorem imm32_toInt (imm : BitVec 12) : (imm32 imm).toInt = imm.toInt := BitVec.toInt_signExtend_of_le (by decide)

/-- Settles O24: the register comparisons on the extended immediate, read unsigned modulo `2^32` or signed. -/
theorem immediateComparisons : Obligations.ImmediateComparisons := by
  unfold Obligations.ImmediateComparisons
  intro rd rs1 imm s
  dsimp only
  rw [← imm32_toNat, ← imm32_toInt]
  exact ⟨givesReg_of_boolBits rfl (carryOut_eq _ _), givesReg_of_boolBits rfl (borrowOut_eq _ _),
    givesReg_of_boolBits rfl rfl⟩

end Sys2Proof.Machine
end

