-- ==== Sys2Proof/Proofs/BaseMemory.lean ====
section
/-! PROOF. The loads and stores of the base at backed addresses (41_base_lui_memory.md R153 to R161). -/

namespace Sys2Proof.Machine

/-- Settles O34: each load gives the datum of its size and extension, and each word is that of its instruction. -/
theorem loads : Obligations.Loads := by
  unfold Obligations.Loads
  intro rd rs1 imm s
  exact ⟨givesReg_of_loadInto (sz := .b) (sg := false) rfl, givesReg_of_loadInto (sz := .b) (sg := true) rfl,
    givesReg_of_loadInto (sz := .w) (sg := false) rfl, givesReg_of_loadInto (sz := .w) (sg := true) rfl,
    givesReg_of_loadInto (sz := .d) (sg := false) rfl,
    decodeWord_of_encode_eq (by decide) (by decide), by decide,
    decodeWord_of_encode_eq (by decide) (by decide), by decide,
    decodeWord_of_encode_eq (by decide) (by decide), by decide,
    decodeWord_of_encode_eq (by decide) (by decide), by decide,
    decodeWord_of_encode_eq (by decide) (by decide), by decide,
    decodeWord_of_encode_eq (by decide) (by decide), by decide⟩

/-- Settles O36: each store leaves the low bytes of its size, and each word is that of its instruction. -/
theorem stores : Obligations.Stores := by
  unfold Obligations.Stores
  intro rs1 rs2 imm s
  exact ⟨givesStore_of_storeFrom (sz := .b) rfl, givesStore_of_storeFrom (sz := .w) rfl,
    givesStore_of_storeFrom (sz := .d) rfl,
    decodeWord_of_encode_eq (by decide) (by decide), by decide,
    decodeWord_of_encode_eq (by decide) (by decide), by decide,
    decodeWord_of_encode_eq (by decide) (by decide), by decide,
    decodeWord_of_encode_eq (by decide) (by decide), by decide⟩

end Sys2Proof.Machine
end

