-- ==== Sys2Proof/Proofs/LoadConstant.lean ====
section
/-! PROOF. The macro LDI loads its constant (43_pseudo_macro.md R215 as corrected by D39): the constant fits ADDI, or LUI
leaves its upper 21 bits and ADDI adds the lower 11. -/

namespace Sys2Proof.Machine

/-! ## Sequences that give one register -/

/-- The sequence completes: `rd` holds `v`, no other register, no byte of memory and no CSR differs. -/
def allGiveReg (is : List Instr) (s : State) (rd : Reg) (v : Word) : Prop :=
  ∃ t, execAll is s = .next t ∧ regsBut s t rd v ∧ memKept s t ∧ t.csr = s.csr

section
variable {i : Instr} {is : List Instr} {s : State} {rd : Reg} {v w : Word}

theorem execAll_cons_of_next {t : State} (h : exec i s = .next t) : execAll (i :: is) s = execAll is t := by
  rw [execAll, h]

theorem allGiveReg_singleton (h : givesReg i s rd v) : allGiveReg [i] s rd v := by
  obtain ⟨t, ht, hregs, hmem, -, ⟨hcsr, -⟩, -, -⟩ := h
  exact ⟨t, execAll_cons_of_next ht, hregs, hmem, hcsr⟩

/-- A second result in the same register hides the first. -/
theorem regsBut_trans {t u : State} (hst : regsBut s t rd v) (htu : regsBut t u rd w) : regsBut s u rd w := by
  intro r
  rw [htu r, hst r]
  split <;> rfl

theorem memKept_trans {t u : State} (hst : memKept s t) (htu : memKept t u) : memKept s u :=
  ⟨fun a => (htu.1 a).trans (hst.1 a), htu.2.trans hst.2⟩

/-- An instruction that gives `rd` before a sequence that gives `rd` again, whose value may use the first. -/
theorem allGiveReg_cons (hrd : rd ≠ 0) (h : givesReg i s rd v)
    (hrest : ∀ t : State, t.cfg = s.cfg → t.readReg rd = v → allGiveReg is t rd w) : allGiveReg (i :: is) s rd w := by
  obtain ⟨t, ht, hregs, hmem, -, ⟨hcsr, -⟩, ⟨hcfg, -, -⟩, -⟩ := h
  have hread : t.readReg rd = v := (hregs rd).trans (if_pos ⟨rfl, hrd⟩)
  obtain ⟨u, hu, hregs', hmem', hcsr'⟩ := hrest t hcfg hread
  exact ⟨u, (execAll_cons_of_next ht).trans hu, regsBut_trans hregs hregs', memKept_trans hmem hmem', hcsr'.trans hcsr⟩

end

/-! ## The instructions of the expansion -/

section
variable (rd : Reg) (s : State)

/-- CLR is an XOR of a register with itself. -/
theorem givesReg_clr : givesReg (Asm.clr rd) s rd (sextX s.cfg 0#32) := by
  have hxor : givesReg (Asm.clr rd) s rd (sextX s.cfg (low32 (s.readReg rd) ^^^ low32 (s.readReg rd))) :=
    givesReg_of_arith32 (op := (· ^^^ ·)) rfl
  rwa [BitVec.xor_self] at hxor

theorem givesReg_addi (rs1 : Reg) (imm : BitVec 12) :
    givesReg (.addi rd rs1 imm) s rd (sextX s.cfg (low32 (s.readReg rs1) + imm32 imm)) :=
  givesReg_of_arith32 (op := (· + ·)) rfl

theorem givesReg_lui (imm : BitVec 21) : givesReg (.lui rd imm) s rd (sextX s.cfg (luiValue imm)) :=
  givesReg_of_setReg rfl (truncX_sextX _ _)

end

/-! ## The parts of a constant -/

/-- The 32-bit context reads back the 32 bits that it wrote. -/
theorem low32_sextX (c : Config) (v : BitVec 32) : low32 (sextX c v) = v := by
  apply BitVec.eq_of_getLsbD_eq
  intro k hk
  have hxlen : k < c.xlen := by
    unfold Config.xlen
    split <;> omega
  rw [low32, BitVec.getLsbD_setWidth, sextX, truncX_getLsbD, BitVec.getLsbD_signExtend]
  simp [hk, hxlen, show k < 64 by omega]

/-- A constant in the range of a 12-bit immediate is its low 12 bits, extended. -/
theorem imm32_setWidth {imm : BitVec 32} (hlo : -2048 ≤ imm.toInt) (hhi : imm.toInt ≤ 2047) :
    imm32 (imm.setWidth 12) = imm := by
  apply BitVec.eq_of_toInt_eq
  calc (imm32 (imm.setWidth 12)).toInt
      = (imm.toNat : Int).bmod (2 ^ 12) := by rw [imm32_toInt, BitVec.toInt_setWidth]
    _ = imm.toInt.bmod (2 ^ 12) := by rw [BitVec.toInt_eq_toNat_bmod imm, Int.bmod_bmod_of_dvd (by decide)]
    _ = imm.toInt := Int.bmod_eq_of_le (by omega) (by omega)

/-- Eleven bits fit a 12-bit immediate with its sign bit 0. -/
theorem imm32_setWidth_eleven_toNat (imm : BitVec 32) :
    (imm32 ((imm.setWidth 11).setWidth 12)).toNat = imm.toNat % 2 ^ 11 := by
  have hlow : ((imm.setWidth 11).setWidth 12).toNat = imm.toNat % 2 ^ 11 := by
    rw [BitVec.toNat_setWidth_of_le (by decide), BitVec.toNat_setWidth]
  rw [imm32, toNat_signExtend_of_lt _ (by decide) (by omega), hlow]

/-- The upper 21 bits and the lower 11 bits make up the constant. -/
theorem luiValue_add_imm32 (imm : BitVec 32) :
    luiValue (imm.extractLsb' 11 21) + imm32 ((imm.setWidth 11).setWidth 12) = imm := by
  apply BitVec.eq_of_toNat_eq
  have himm := imm.isLt
  rw [BitVec.toNat_add, imm32_setWidth_eleven_toNat, luiValue_eq, BitVec.toNat_ofNat, BitVec.extractLsb'_toNat,
    Nat.shiftRight_eq_div_pow]
  omega

theorem luiValue_of_setWidth_eq_zero {imm : BitVec 32} (h : imm.setWidth 11 = 0) :
    luiValue (imm.extractLsb' 11 21) = imm := by
  have hparts := luiValue_add_imm32 imm
  rw [h] at hparts
  exact (BitVec.add_zero _).symm.trans hparts

/-- Settles O60, by the four expansions of R215: CLR, ADDI alone, LUI alone, and LUI with ADDI. -/
theorem ldiLoadsConstant : Obligations.LdiLoadsConstant := by
  unfold Obligations.LdiLoadsConstant
  intro rd imm s hrd
  change allGiveReg (Asm.ldi rd imm) s rd (sextX s.cfg imm)
  fun_cases Asm.ldi rd imm with
  | case1 hzero =>
    subst hzero
    exact allGiveReg_singleton (givesReg_clr rd s)
  | case2 _ hrange =>
    obtain ⟨hlo, hhi⟩ := hrange
    have haddi := givesReg_addi rd s 0 (imm.setWidth 12)
    have hsum : low32 (s.readReg 0) + imm = imm := BitVec.zero_add imm
    rw [imm32_setWidth hlo hhi, hsum] at haddi
    exact allGiveReg_singleton haddi
  | case3 _ _ hlow =>
    have hlui := givesReg_lui rd s (imm.extractLsb' 11 21)
    rw [luiValue_of_setWidth_eq_zero hlow] at hlui
    exact allGiveReg_singleton hlui
  | case4 =>
    refine allGiveReg_cons hrd (givesReg_lui rd s _) fun t hcfg hread => ?_
    have haddi := givesReg_addi rd t rd ((imm.setWidth 11).setWidth 12)
    rw [hread, low32_sextX, luiValue_add_imm32, hcfg] at haddi
    exact allGiveReg_singleton haddi

end Sys2Proof.Machine
end

