-- ==== Sys2Proof/Proofs/Jumps.lean ====
section
/-! PROOF. The jumps of the base (42_base_control.md R171 to R173, R180 to R186): what each leaves unchanged, the target
modulo `2^XLEN`, and the conditions. -/

namespace Sys2Proof.Machine

/-! ## JAL and JALR -/

/-- The jump completes: IP is at `target`, `rd` holds the address of the next instruction, nothing else differs. -/
def jumpsAndLinks (i : Instr) (s : State) (rd : Reg) (target : Int) : Prop :=
  ∃ t, exec i s = .next t ∧ regsBut s t rd (truncX s.cfg (s.ip + 4)) ∧ memKept s t ∧ t.link = s.link ∧
    systemKept s t ∧ outsideKept s t ∧ (t.ip.toNat : Int) = target

/-- The return address is in `rd` alone; it has `XLEN` bits, so the register keeps all of it. -/
theorem regsBut_jumpLink (rd : Reg) (a : Word) (s : State) :
    regsBut s (jumpLink rd a s) rd (truncX s.cfg (s.ip + 4)) := by
  intro r
  calc (jumpLink rd a s).readReg r
      = (s.writeReg rd s.nextIp).readReg r := State.readReg_congr (jumpLink_regs rd a s) r
    _ = if r = rd ∧ rd ≠ 0 then truncX s.cfg (s.ip + 4) else s.readReg r := by
        rw [State.readReg_writeReg, State.nextIp, truncX_truncX]

/-- The frame of a jump that links, whose target is a value plus a signed immediate. -/
theorem jumpsAndLinks_of_jumpLink {i : Instr} {s : State} {w : Nat} {rd : Reg} {base : Word} {imm : BitVec w}
    (h : exec i s = .next (jumpLink rd (truncX s.cfg (base + imm.signExtend 64)) s)) :
    jumpsAndLinks i s rd ((base.toNat + imm.toInt) % 2 ^ s.cfg.xlen) := by
  refine ⟨_, h, regsBut_jumpLink rd _ s, ?_, ?_, ?_, ?_, ?_⟩
  · simp [memKept]
  · simp
  · simp [systemKept]
  · simp [outsideKept]
  · rw [jumpLink_ip]
    exact truncX_add_signExtend s.cfg base imm

/-- Settles O38: both are the jump that links, from IP and from the old `rs1`; each word is that of its instruction. -/
theorem jumpAndLink : Obligations.JumpAndLink := by
  unfold Obligations.JumpAndLink
  exact ⟨fun rd rs1 imm off s => ⟨jumpsAndLinks_of_jumpLink rfl, jumpsAndLinks_of_jumpLink rfl⟩,
    decodeWord_of_encode_eq (by decide) (by decide), by decide,
    decodeWord_of_encode_eq (by decide) (by decide), by decide,
    decodeWord_of_encode_eq (by decide) (by decide), by decide,
    decodeWord_of_encode_eq (by decide) (by decide), by decide⟩

/-! ## The conditional jumps -/

/-- The frame of a conditional jump, whose test decides the condition. -/
theorem jumpsWhen_of_jumpIf {i : Instr} {s : State} {imm : BitVec 12} {test : Bool} {taken : Prop}
    (h : exec i s = .next (jumpIf test imm s)) (htest : test = true ↔ taken) : jumpsWhen i s imm taken := by
  refine ⟨_, h, State.readReg_congr (jumpIf_regs test imm s), ?_, ?_, ?_, ?_, fun htaken => ?_, fun hnot => ?_⟩
  · simp [memKept]
  · simp
  · simp [systemKept]
  · simp [outsideKept]
  · rw [jumpIf_ip, if_pos (htest.2 htaken)]
    exact truncX_add_signExtend s.cfg s.ip imm
  · rw [advanced, jumpIf_ip, if_neg (mt htest.1 hnot)]

/-- Settles O39: the six tests of Flags.lean decide the six comparisons. -/
theorem conditionalJumps : Obligations.ConditionalJumps := by
  unfold Obligations.ConditionalJumps
  intro rs1 rs2 imm s
  exact ⟨jumpsWhen_of_jumpIf rfl decide_eq_true_iff, jumpsWhen_of_jumpIf rfl decide_eq_true_iff,
    jumpsWhen_of_jumpIf rfl decide_eq_true_iff, jumpsWhen_of_jumpIf rfl decide_eq_true_iff,
    jumpsWhen_of_jumpIf rfl decide_eq_true_iff, jumpsWhen_of_jumpIf rfl decide_eq_true_iff⟩

end Sys2Proof.Machine
end

