-- ==== Sys2Proof/Proofs/Traps.lean ====
section
/-! PROOF. The trap entries from the three levels, by SYSCALL, SYSBREAK and an external request (60_exceptions.md R464 to
R474, 44_system.md R242, R243). -/

namespace Sys2Proof.Machine

/-! ## The entries -/

/-- Setting the mode leaves every other bit of mstatus as it is. -/
theorem modeChanged_withPriv (m : Word) (p : BitVec 2) : modeChanged m (withPriv m p) p :=
  ⟨privBits_withPriv m p, fun k h1 h2 => by rw [withPriv_getLsbD, if_neg h1, if_neg h2]⟩

/-- The cause register keeps `XLEN` bits, so a cause already cut to them enters the same trap. -/
theorem takeTrap_truncX (cause : Word) (s : State) : takeTrap (truncX s.cfg cause) s = takeTrap cause s := by
  simp only [takeTrap, State.enterKernel, State.enterMachine, truncX_truncX]

/-- Trap entries, returns and CSR writes set IP and CSRs alone, and so leave the rest of the core and of the outside. -/
theorem kept_of_ip_csr (s : State) (a : Word) (k : Csrs) :
    coreKept s { s with ip := a, csr := k } ∧ outsideKept s { s with ip := a, csr := k } :=
  ⟨⟨fun _ => rfl, ⟨fun _ => rfl, rfl⟩, rfl, rfl⟩, rfl, rfl, rfl⟩

section
variable {s : State}

/-- A trap from User level is the entry of R468, whatever raised it. -/
theorem takeTrap_entersKernel (cause : Word) (hs : s.priv = 0) :
    ∃ t, takeTrap cause s = .next t ∧ entersKernel cause s t := by
  have hlevel : (s.enterKernel cause).csr.kpriv = 0 := congrArg (BitVec.setWidth 64) hs
  exact ⟨_, if_pos hs, rfl, rfl, hlevel, modeChanged_withPriv _ _, rfl, rfl, rfl, rfl, rfl, rfl, rfl,
    kept_of_ip_csr s _ _⟩

/-- A trap from Kernel or Machine level is the entry of R467 or R466, which saves the level it leaves. -/
theorem takeTrap_entersMachine (cause : Word) (p : BitVec 2) (hs : s.priv = p) (hp : p = 1 ∨ p = 3) :
    ∃ t, takeTrap cause s = .next t ∧ entersMachine cause (p.setWidth 64) s t := by
  have htake : takeTrap cause s = .next (s.enterMachine cause) := by
    rw [takeTrap, hs]
    obtain rfl | rfl := hp <;> rfl
  have hlevel : (s.enterMachine cause).csr.mpriv = p.setWidth 64 := congrArg (BitVec.setWidth 64) hs
  exact ⟨_, htake, rfl, rfl, hlevel, modeChanged_withPriv _ _, rfl, rfl, rfl, rfl, rfl, rfl, rfl,
    kept_of_ip_csr s _ _⟩

/-! ## The instructions -/

/-- The cause of SYSCALL is the level of the caller (R242). -/
theorem exec_syscall {p : BitVec 2} (hs : s.priv = p) : exec .syscall s = takeTrap (p.setWidth 64) s := by
  rw [← hs]
  rfl

theorem exec_sysbreak : exec .sysbreak s = takeTrap 4 s := rfl

/-! ## External requests -/

theorem irqPermitted_user (hs : s.priv = 0) : s.irqPermitted = true := by
  simp [State.irqPermitted, hs]

theorem irqPermitted_kernel (hs : s.priv = 1) : s.irqPermitted = s.csr.kstatus.getLsbD 0 := by
  simp [State.irqPermitted, hs]

theorem irqPermitted_machine (hs : s.priv = 3) : s.irqPermitted = s.csr.mstatus.getLsbD 0 := by
  simp [State.irqPermitted, hs]

/-- Where requests are masked none is taken, on a core with S or without. -/
theorem sampleIrq_takes_none (hm : s.irqPermitted = false) (irq : Option Word) : (sampleIrq irq s).1 = none := by
  cases hS : s.cfg.extS with
  | false => rw [sampleIrq_of_absent irq hS]
  | true => rw [sampleIrq_of_masked irq hS hm]

/-- A permitted request that finds the queue empty is taken, under every policy, and the queue stays empty. -/
theorem sampleIrq_takes_new {cause : Word} (hS : s.cfg.extS = true) (hp : s.irqPermitted = true)
    (hcause : 4 < (truncX s.cfg cause).toNat) (hq : s.pending = []) :
    sampleIrq (some cause) s = (some (truncX s.cfg cause), s) := by
  have hnew : requestOf s.cfg (some cause) = some (truncX s.cfg cause) := requestOf_some hcause
  cases hpolicy : s.cfg.maskedIrq with
  | ignore => rw [sampleIrq_of_permitted_ignore _ hS hp hpolicy, hnew]
  | queue depth =>
    obtain ⟨k, c, hk, h⟩ := sampleIrq_of_permitted_queue (some cause) hS hp hpolicy (by simp [hnew])
    simp only [hnew, hq, Option.toList_some, List.nil_append] at hk h
    obtain ⟨rfl, rfl⟩ : k = 0 ∧ truncX s.cfg cause = c := by simpa [List.getElem?_singleton] using hk
    rw [h, List.eraseIdx_cons_zero, ← hq]

/-- A step that receives a permitted request alone is the trap entry with its cause. -/
theorem step_of_request {cause : Word} {rest : List StepInput} (hS : s.cfg.extS = true) (hp : s.irqPermitted = true)
    (hcause : 4 < (truncX s.cfg cause).toNat) (hq : s.pending = []) (hi : s.inputs = ⟨some cause, []⟩ :: rest) :
    step s = takeTrap cause { s with inputs := rest } := by
  have hinput : takeInput s = (some cause, { s with inputs := rest }) := by rw [takeInput, hi]; rfl
  have hreceived : s.received = (some (truncX s.cfg cause), { s with inputs := rest }) := by
    rw [State.received, hinput]
    exact sampleIrq_takes_new hS hp hcause hq
  calc step s = stepWith s.received.1 s.received.2 := rfl
    _ = takeTrap (truncX s.cfg cause) { s with inputs := rest } := by rw [hreceived, stepWith]
    _ = takeTrap cause { s with inputs := rest } := takeTrap_truncX cause { s with inputs := rest }

/-- Where requests are permitted, a request is taken with the entry that a trap with its cause makes. -/
theorem stepTakes_of_takeTrap {cause : Word} {rest : List StepInput} {enters : State → State → Prop}
    (hp : s.irqPermitted = true)
    (ht : ∃ t, takeTrap cause { s with inputs := rest } = .next t ∧ enters { s with inputs := rest } t) :
    stepTakes s cause rest enters := by
  intro hS hcause hq hi
  rwa [step_of_request hS hp hcause hq hi]

end

/-! ## The statements -/

/-- Settles O40: each of the three is a trap taken in User mode, where every request is permitted. -/
theorem trapFromUser : Obligations.TrapFromUser := by
  unfold Obligations.TrapFromUser
  intro s hs
  refine ⟨?_, takeTrap_entersKernel 4 hs, fun cause rest => ?_⟩
  · rw [exec_syscall hs]
    exact takeTrap_entersKernel 0 hs
  · exact stepTakes_of_takeTrap (irqPermitted_user hs) (takeTrap_entersKernel cause hs)

/-- Settles O41: each of the three is a trap taken in Kernel mode, where `kstatus[0]` permits a request. -/
theorem trapFromKernel : Obligations.TrapFromKernel := by
  unfold Obligations.TrapFromKernel
  intro s hs
  have hgate := irqPermitted_kernel hs
  refine ⟨?_, takeTrap_entersMachine 4 1 hs (.inl rfl), fun hopen cause rest => ?_, fun hclosed => ?_⟩
  · rw [exec_syscall hs]
    exact takeTrap_entersMachine 1 1 hs (.inl rfl)
  · exact stepTakes_of_takeTrap (hgate.trans hopen) (takeTrap_entersMachine cause 1 hs (.inl rfl))
  · exact sampleIrq_takes_none (hgate.trans hclosed)

/-- Settles O42: each of the three is a trap taken in Machine mode, where `mstatus[0]` permits a request. -/
theorem trapFromMachine : Obligations.TrapFromMachine := by
  unfold Obligations.TrapFromMachine
  intro s hs
  have hgate := irqPermitted_machine hs
  refine ⟨?_, takeTrap_entersMachine 4 3 hs (.inr rfl), fun hopen cause rest => ?_, fun hclosed => ?_⟩
  · rw [exec_syscall hs]
    exact takeTrap_entersMachine 3 3 hs (.inr rfl)
  · exact stepTakes_of_takeTrap (hgate.trans hopen) (takeTrap_entersMachine cause 3 hs (.inr rfl))
  · exact sampleIrq_takes_none (hgate.trans hclosed)

end Sys2Proof.Machine
end

