-- ==== Sys2Proof/Proofs/Privilege.lean ====
section
/-! PROOF. The instructions that need a level: the returns at theirs, and all ten of them below it (44_system.md R241, R244,
R245, 60_exceptions.md R476). -/

namespace Sys2Proof.Machine

/-! ## Returns -/

section
variable {s : State} {saved : Word}

/-- A return to a level the core has sets IP and the mode and leaves the rest. -/
theorem returnFromTrap_returns (target : Word) (h : saved.extractLsb' 0 2 ≠ 2) :
    ∃ t, returnFromTrap target saved s = .next t ∧ returns target (saved.extractLsb' 0 2) s t :=
  ⟨_, if_neg h, rfl, modeChanged_withPriv _ _, rfl, kept_of_ip_csr s _ _⟩

theorem returnFromTrap_level2 (target : Word) (h : saved.extractLsb' 0 2 = 2) :
    returnFromTrap target saved s = .refused .privilegeLevel2 := if_pos h

theorem exec_mret (hs : s.priv = 3) : exec .mret s = returnFromTrap s.csr.mra s.csr.mpriv s :=
  privileged_of_le (hs ▸ BitVec.le_refl 3)

theorem exec_sysret (hs : 1 ≤ s.priv) : exec .sysret s = returnFromTrap s.csr.kra s.csr.kpriv s :=
  privileged_of_le hs

end

/-- Settles O45: at its level each of the two is the return through its own registers. -/
theorem returnsFromTraps : Obligations.ReturnsFromTraps := by
  unfold Obligations.ReturnsFromTraps
  intro s
  refine ⟨fun hs h => ?_, fun hs h => ?_, fun hs h => ?_, fun hs h => ?_⟩
  · rw [exec_mret hs]
    exact returnFromTrap_returns s.csr.mra h
  · rw [exec_mret hs]
    exact returnFromTrap_level2 s.csr.mra h
  · rw [exec_sysret hs]
    exact returnFromTrap_returns s.csr.kra h
  · rw [exec_sysret hs]
    exact returnFromTrap_level2 s.csr.kra h

/-! ## Below the level -/

/-- Machine is the highest level. -/
theorem not_three_le_priv {s : State} (hs : s.priv ≠ 3) : ¬ 3 ≤ s.priv := by
  revert hs
  generalize s.priv = p
  revert p
  decide

/-- An instruction that needs a level does below it what `PRIV_VIOLATION` says, whatever its body is. -/
theorem belowLevel_of_privileged {i : Instr} {s : State} {need : BitVec 2} {body : State → Result}
    (h : exec i s = privileged need body s) (hlow : ¬ need ≤ s.priv) : belowLevel i s := by
  have hviolation : exec i s = privViolation s := h.trans (if_neg hlow)
  rw [privViolation] at hviolation
  refine ⟨fun hp => ?_, fun hp => ⟨s.advance, ?_, onlyAdvanced_advance s⟩, fun c hp => ?_⟩ <;>
    rw [hviolation, hp]

/-- Settles O46: MRET needs level 3, the other nine level 1. -/
theorem privilegedBelowLevel : Obligations.PrivilegedBelowLevel := by
  unfold Obligations.PrivilegedBelowLevel
  intro rd rs1 rs2 s
  refine ⟨fun hs => belowLevel_of_privileged rfl (not_three_le_priv hs), fun hs => ?_⟩
  have hlow : ¬ 1 ≤ s.priv := not_one_le_priv_user hs
  exact ⟨belowLevel_of_privileged rfl hlow, belowLevel_of_privileged rfl hlow, belowLevel_of_privileged rfl hlow,
    belowLevel_of_privileged rfl hlow, belowLevel_of_privileged rfl hlow, belowLevel_of_privileged rfl hlow,
    belowLevel_of_privileged rfl hlow, belowLevel_of_privileged rfl hlow, belowLevel_of_privileged rfl hlow⟩

end Sys2Proof.Machine
end

