-- ==== Sys2Proof/Proofs/CsrWrites.lean ====
section
/-! PROOF. CSRW, CSRS and CSRC on a named CSR (44_system.md R246, R248 to R251). -/

namespace Sys2Proof.Machine

/-! ## A read after a write -/

theorem Csrs.read?_write_same {k : Csrs} {n : BitVec 12} {v : Word} (hn : k.read? n = some v) (w : Word) :
    (k.write n w).read? n = some w := by
  rw [Csrs.read?] at hn
  unfold Csrs.read? Csrs.write
  split at hn <;> simp_all

theorem Csrs.read?_write_other (k : Csrs) {n m : BitVec 12} (w : Word) (hm : m ≠ n) :
    (k.write n w).read? m = k.read? m := by
  have hne : m.toNat ≠ n.toNat := fun h => hm (BitVec.eq_of_toNat_eq h)
  unfold Csrs.write
  split
  case h_11 => rfl -- a reserved number: nothing is written
  all_goals
    unfold Csrs.read?
    split <;> simp_all

/-! ## The writes -/

section
variable {s : State} {n : BitVec 12} {v : Word} {i : Instr} {f : Word → Word}

/-- With privilege a write that does not put 2 into mstatus[2:1] replaces the CSR and nothing else. -/
theorem givesCsr_of_csrModify (h : exec i s = csrModify f n s) (hv : s.csr.read? n = some v) (ho : csrOpen s n)
    (hmode : n = 0 → privBits (f v) ≠ 2) : givesCsr i s n (truncX s.cfg (f v)) := by
  have hallowed : s.csrAllowed n = true := (s.csrAllowed_iff n).2 ho
  have hnext : exec i s = .next { s with csr := s.csr.write n (truncX s.cfg (f v)) }.advance := by
    rw [h, csrModify, hv]
    dsimp only
    rw [if_pos hallowed, if_neg fun ⟨hn, h2⟩ => hmode hn h2]
  obtain ⟨hcore, houtside⟩ := kept_of_ip_csr s s.nextIp (s.csr.write n (truncX s.cfg (f v)))
  exact ⟨_, hnext, Csrs.read?_write_same hv _, fun m hm => Csrs.read?_write_other s.csr _ hm, hcore, houtside, rfl⟩

/-- Without privilege a write to a named CSR is an advance. -/
theorem onlyAdvanced_of_csrModify (h : exec i s = csrModify f n s) (hv : s.csr.read? n = some v)
    (hc : ¬ csrOpen s n) : ∃ t, exec i s = .next t ∧ onlyAdvanced s t := by
  have hdenied : ¬ s.csrAllowed n = true := fun ha => hc ((s.csrAllowed_iff n).1 ha)
  refine ⟨s.advance, ?_, onlyAdvanced_advance s⟩
  rw [h, csrModify, hv]
  exact if_neg hdenied

end

/-! ## One bit -/

theorem one_shiftLeft_getLsbD {k : Nat} (j : Nat) (hk : k < 64) : (1#64 <<< j).getLsbD k = decide (k = j) := by
  simp [← BitVec.twoPow_eq, hk]

/-- The value with one bit set, from its bits. -/
theorem eq_or_bit {v w : Word} {j : Nat} (h : ∀ k, k < 64 → w.getLsbD k = (decide (k = j) || v.getLsbD k)) :
    w = v ||| (1#64 <<< j) := by
  apply BitVec.eq_of_getLsbD_eq
  intro k hk
  rw [h k hk, BitVec.getLsbD_or, one_shiftLeft_getLsbD j hk, Bool.or_comm]

/-- The value with one bit cleared, from its bits. -/
theorem eq_and_not_bit {v w : Word} {j : Nat}
    (h : ∀ k, k < 64 → w.getLsbD k = (!decide (k = j) && v.getLsbD k)) : w = v &&& ~~~(1#64 <<< j) := by
  apply BitVec.eq_of_getLsbD_eq
  intro k hk
  rw [h k hk, BitVec.getLsbD_and, BitVec.getLsbD_not, one_shiftLeft_getLsbD j hk, decide_eq_true hk, Bool.true_and,
    Bool.and_comm]

/-- Settles O48: each of the three is the one write to a CSR, of `rs1` or of the old value with one bit changed. -/
theorem csrWrites : Obligations.CsrWrites := by
  unfold Obligations.CsrWrites
  intro rs1 n sel s v hv
  refine ⟨fun ho => ⟨fun hmode => ?_, fun w hw hmode => ?_, fun w hw hmode => ?_⟩, fun hc => ⟨?_, ?_, ?_⟩⟩
  · exact givesCsr_of_csrModify (f := fun _ => s.readReg rs1) rfl hv ho hmode
  · obtain rfl := eq_or_bit hw
    exact givesCsr_of_csrModify (f := fun v => v ||| (1#64 <<< sel.toNat)) rfl hv ho hmode
  · obtain rfl := eq_and_not_bit hw
    exact givesCsr_of_csrModify (f := fun v => v &&& ~~~(1#64 <<< sel.toNat)) rfl hv ho hmode
  · exact onlyAdvanced_of_csrModify (f := fun _ => s.readReg rs1) rfl hv hc
  · exact onlyAdvanced_of_csrModify (f := fun v => v ||| (1#64 <<< sel.toNat)) rfl hv hc
  · exact onlyAdvanced_of_csrModify (f := fun v => v &&& ~~~(1#64 <<< sel.toNat)) rfl hv hc

end Sys2Proof.Machine
end

