-- ==== Sys2Proof/Proofs/MulDiv.lean ====
section
/-! PROOF. Multiplication and division (45_mul_div.md R281 to R292, 47_srm64.md R410 to R417). The facts about the
operations of Alu.lean are stated at every width. -/

namespace Sys2Proof.Machine

/-! ## The halves of a product -/

section
variable {w : Nat}

theorem mul_eq_ofNat (a b : BitVec w) : a * b = BitVec.ofNat w (a.toNat * b.toNat) := BitVec.eq_of_toNat_eq rfl

/-- The double-width product does not wrap, so its upper half is the product divided. -/
theorem aluMulh_eq (a b : BitVec w) : aluMulh a b = BitVec.ofNat w (a.toNat * b.toNat / 2 ^ w) := by
  apply BitVec.eq_of_toNat_eq
  have hlt : a.toNat * b.toNat < 2 ^ (w + w) := by
    rw [pow_add]
    exact Nat.mul_lt_mul'' a.isLt b.isLt
  rw [aluMulh, BitVec.extractLsb'_toNat, BitVec.toNat_mul, BitVec.toNat_setWidth_of_le (Nat.le_add_left w w),
    BitVec.toNat_setWidth_of_le (Nat.le_add_left w w), Nat.mod_eq_of_lt hlt, Nat.shiftRight_eq_div_pow,
    BitVec.toNat_ofNat]

/-- Dividing a residue modulo a multiple of the divisor. -/
theorem emod_mul_ediv {m : Int} (hm : 0 < m) (z n : Int) : z % (m * n) / m = z / m % n := by
  have hrest : z % (m * n) = z + m * -(n * (z / (m * n))) := by
    rw [Int.emod_def]
    ring
  rw [hrest, Int.add_mul_ediv_left _ _ hm.ne', ← Int.ediv_ediv_of_nonneg hm.le, Int.emod_def, sub_eq_add_neg]

/-- The upper bits of a two's complement number are those of its quotient rounded down. -/
theorem extractLsb'_ofInt (z : Int) (v : Nat) :
    (BitVec.ofInt (w + v) z).extractLsb' w v = BitVec.ofInt v (z / 2 ^ w) := by
  apply BitVec.eq_of_toNat_eq
  have hupper : z % 2 ^ (w + v) / 2 ^ w = z / 2 ^ w % 2 ^ v := by
    rw [pow_add, emod_mul_ediv (by positivity)]
  rw [BitVec.extractLsb'_toNat, Nat.shiftRight_eq_div_pow, BitVec.toNat_ofInt, BitVec.toNat_ofInt]
  apply Int.ofNat_inj.1
  push_cast
  rw [Int.toNat_of_nonneg (Int.emod_nonneg _ (by positivity)), Int.toNat_of_nonneg (Int.emod_nonneg _ (by positivity)),
    hupper, Int.emod_emod]

theorem aluSmulh_eq (a b : BitVec w) : aluSmulh a b = BitVec.ofInt w (a.toInt * b.toInt / 2 ^ w) :=
  extractLsb'_ofInt _ w

end

/-- Settles O29: the low half is the wrapped product, and the upper halves are the exact products divided by `2^32`. -/
theorem multiply : Obligations.Multiply := by
  unfold Obligations.Multiply
  intro rd rs1 rs2 s
  dsimp only
  rw [← mul_eq_ofNat, ← aluMulh_eq, ← aluSmulh_eq]
  exact ⟨givesReg_of_arith32 rfl, givesReg_of_arith32 rfl, givesReg_of_arith32 rfl,
    decodeWord_of_encode_eq (by decide) (by decide), by decide,
    decodeWord_of_encode_eq (by decide) (by decide), by decide,
    decodeWord_of_encode_eq (by decide) (by decide), by decide⟩

/-! ## Division by a divisor that is not 0 -/

section
variable {w : Nat} {b : BitVec w}

theorem aluDiv_of_ne (hb : b ≠ 0) (a : BitVec w) : aluDiv a b = a / b := (if_neg hb).trans BitVec.udiv_def.symm

theorem aluMod_of_ne (hb : b ≠ 0) (a : BitVec w) : aluMod a b = a % b := (if_neg hb).trans BitVec.umod_def.symm

theorem aluSdiv_of_ne (hb : b ≠ 0) (a : BitVec w) : aluSdiv a b = BitVec.ofInt w (a.toInt.tdiv b.toInt) := if_neg hb

theorem aluSmod_of_ne (hb : b ≠ 0) (a : BitVec w) : aluSmod a b = BitVec.ofInt w (a.toInt.tmod b.toInt) := by
  rw [Int.tmod_def, mul_comm]
  exact if_neg hb

/-- The remainder of a truncating division is smaller than the divisor. -/
theorem abs_tmod_lt (a : Int) {b : Int} (hb : b ≠ 0) : |a.tmod b| < |b| := by
  rw [Int.abs_eq_natAbs, Int.abs_eq_natAbs, Int.natAbs_tmod]
  exact_mod_cast Nat.mod_lt _ (Int.natAbs_pos.2 hb)

/-- The remainder of a truncating division is 0 or has the sign of the dividend. -/
theorem tmod_mul_self_nonneg (a b : Int) : 0 ≤ a.tmod b * a := by
  rcases le_total 0 a with ha | ha
  · exact mul_nonneg (Int.tmod_nonneg b ha) ha
  · rw [← neg_mul_neg, ← Int.neg_tmod]
    exact mul_nonneg (Int.tmod_nonneg b (neg_nonneg.2 ha)) (neg_nonneg.2 ha)

/-- Unsigned quotient and remainder satisfy the division identity, with the remainder below the divisor (D27). -/
theorem unsignedDivides (hb : b ≠ 0) (a : BitVec w) :
    a.toNat = b.toNat * (aluDiv a b).toNat + (aluMod a b).toNat ∧ (aluMod a b).toNat < b.toNat := by
  rw [aluDiv_of_ne hb, aluMod_of_ne hb, BitVec.toNat_udiv, BitVec.toNat_umod]
  exact ⟨(Nat.div_add_mod _ _).symm, Nat.mod_lt _ (Nat.pos_of_ne_zero (BitVec.toNat_ne.1 hb))⟩

/-- Signed quotient and remainder are the truncating ones, cut to the width (D27, log 22). -/
theorem signedDivides (hb : b ≠ 0) (a : BitVec w) : ∃ q r : Int,
    a.toInt = b.toInt * q + r ∧ |r| < |b.toInt| ∧ 0 ≤ r * a.toInt ∧
      aluSdiv a b = BitVec.ofInt w q ∧ aluSmod a b = BitVec.ofInt w r :=
  ⟨_, _, (Int.mul_tdiv_add_tmod a.toInt b.toInt).symm, abs_tmod_lt _ (BitVec.toInt_zero ▸ BitVec.toInt_ne.2 hb),
    tmod_mul_self_nonneg _ _, aluSdiv_of_ne hb a, aluSmod_of_ne hb a⟩

end

/-- Settles O31: quotient and remainder are what the operations give, in each context. -/
theorem unsignedDivision : Obligations.UnsignedDivision := by
  unfold Obligations.UnsignedDivision
  intro rd rs1 rs2 s
  refine ⟨fun hb => ?_, fun hb => ?_⟩
  · obtain ⟨heq, hlt⟩ := unsignedDivides hb (low32 (s.readReg rs1))
    exact ⟨_, _, heq, hlt, givesReg_of_arith32 rfl, givesReg_of_arith32 rfl⟩
  · obtain ⟨heq, hlt⟩ := unsignedDivides hb (s.readReg rs1)
    exact ⟨_, _, heq, hlt, givesReg_of_arith64 rfl, givesReg_of_arith64 rfl⟩

/-- Settles O32: the operations give the truncating quotient and remainder, in each context. -/
theorem signedDivision : Obligations.SignedDivision := by
  unfold Obligations.SignedDivision
  intro rd rs1 rs2 s
  refine ⟨fun hb => ?_, fun hb => ?_⟩
  · obtain ⟨q, r, heq, hlt, hsign, hq, hr⟩ := signedDivides hb (low32 (s.readReg rs1))
    exact ⟨q, r, heq, hlt, hsign, hq ▸ givesReg_of_arith32 rfl, hr ▸ givesReg_of_arith32 rfl⟩
  · obtain ⟨q, r, heq, hlt, hsign, hq, hr⟩ := signedDivides hb (s.readReg rs1)
    exact ⟨q, r, heq, hlt, hsign, hq ▸ givesReg_of_arith64 rfl, hr ▸ givesReg_of_arith64 rfl⟩

/-! ## Division by 0 -/

section
variable {w : Nat} {b : BitVec w}

theorem aluDiv_of_eq_zero (hb : b = 0) (a : BitVec w) : aluDiv a b = Config.divZeroQ false a := if_pos hb

theorem aluMod_of_eq_zero (hb : b = 0) (a : BitVec w) : aluMod a b = Config.divZeroR false a := if_pos hb

theorem aluSdiv_of_eq_zero (hb : b = 0) (a : BitVec w) : aluSdiv a b = Config.divZeroQ true a := if_pos hb

theorem aluSmod_of_eq_zero (hb : b = 0) (a : BitVec w) : aluSmod a b = Config.divZeroR true a := if_pos hb

end

/-- Settles O33: a division completes whatever the divisor, and at 0 its operation is the free value. -/
theorem divisionByZeroRuns : Obligations.DivisionByZeroRuns := by
  unfold Obligations.DivisionByZeroRuns
  intro rd rs1 rs2 s
  dsimp only
  refine ⟨fun hb => ?_, fun hb => ?_⟩
  · rw [← aluDiv_of_eq_zero hb, ← aluSdiv_of_eq_zero hb, ← aluMod_of_eq_zero hb, ← aluSmod_of_eq_zero hb]
    exact ⟨givesReg_of_arith32 rfl, givesReg_of_arith32 rfl, givesReg_of_arith32 rfl, givesReg_of_arith32 rfl⟩
  · rw [← aluDiv_of_eq_zero hb, ← aluSdiv_of_eq_zero hb, ← aluMod_of_eq_zero hb, ← aluSmod_of_eq_zero hb]
    exact ⟨givesReg_of_arith64 rfl, givesReg_of_arith64 rfl, givesReg_of_arith64 rfl, givesReg_of_arith64 rfl⟩

end Sys2Proof.Machine
end

