-- ==== Sys2Proof/Proofs/Links.lean ====
section
/-! PROOF. Which writes break a link: what the inequalities on the watched bytes say of single bytes, under each granule;
and the write of another agent (46_atomic.md R304, 70_reset_and_hazards.md R513). -/

namespace Sys2Proof.Machine

theorem bytes_pos (sz : Size) : 0 < sz.bytes := by cases sz <;> decide

/-! ## Runs of bytes -/

/-- Two runs of bytes meet when each starts before the other ends: they share the later start. -/
theorem runs_meet_iff {a n b m : Nat} (hn : 0 < n) (hm : 0 < m) :
    (a < b + m ∧ b < a + n) ↔ ∃ x, a ≤ x ∧ x < a + n ∧ b ≤ x ∧ x < b + m := by
  constructor
  · intro h
    exact ⟨max a b, by omega, by omega, by omega, by omega⟩
  · rintro ⟨x, hax, hxa, hbx, hxb⟩
    omega

/-- The blocks that a run of bytes meets: those from its first byte's to its last byte's. -/
theorem exists_div_eq_iff {p a n : Nat} (hp : 0 < p) (hn : 0 < n) (q : Nat) :
    (∃ x, a ≤ x ∧ x < a + n ∧ x / p = q) ↔ a / p ≤ q ∧ q ≤ (a + n - 1) / p := by
  constructor
  · rintro ⟨x, hax, hxa, rfl⟩
    exact ⟨Nat.div_le_div_right hax, Nat.div_le_div_right (by omega)⟩
  · rintro ⟨hfirst, hlast⟩
    have hend : q * p ≤ a + n - 1 := (Nat.le_div_iff_mul_le hp).1 hlast
    have hstart : a < (q + 1) * p := (Nat.div_lt_iff_lt_mul hp).1 (by omega)
    refine ⟨max a (q * p), by omega, by omega, Nat.div_eq_of_lt_le (by omega) ?_⟩
    have hblock : q * p < (q + 1) * p := Nat.mul_lt_mul_of_pos_right (Nat.lt_succ_self q) hp
    omega

/-- Two runs of bytes meet a common block when each starts in a block no later than the other's last. -/
theorem runs_meet_block_iff {p a n b m : Nat} (hp : 0 < p) (hn : 0 < n) (hm : 0 < m) :
    (a / p ≤ (b + m - 1) / p ∧ b / p ≤ (a + n - 1) / p) ↔
      ∃ x y, a ≤ x ∧ x < a + n ∧ b ≤ y ∧ y < b + m ∧ x / p = y / p := by
  constructor
  · rintro ⟨hab, hba⟩
    have ha : a / p ≤ (a + n - 1) / p := Nat.div_le_div_right (by omega)
    have hb : b / p ≤ (b + m - 1) / p := Nat.div_le_div_right (by omega)
    obtain ⟨x, hax, hxa, hx⟩ := (exists_div_eq_iff (a := a) hp hn (max (a / p) (b / p))).2 (by omega)
    obtain ⟨y, hby, hyb, hy⟩ := (exists_div_eq_iff (a := b) hp hm (max (a / p) (b / p))).2 (by omega)
    exact ⟨x, y, hax, hxa, hby, hyb, hx.trans hy.symm⟩
  · rintro ⟨x, y, hax, hxa, hby, hyb, hxy⟩
    obtain ⟨hax', hxa'⟩ := (exists_div_eq_iff hp hn (x / p)).1 ⟨x, hax, hxa, rfl⟩
    obtain ⟨hby', hyb'⟩ := (exists_div_eq_iff hp hm (y / p)).1 ⟨y, hby, hyb, rfl⟩
    omega

/-! ## What breaks a link -/

section
variable (l : Link) (a : Nat) (sz : Size)

/-- Under the exact granule a write breaks the link when they share a byte. -/
theorem breakLink_exact_eq_none_iff :
    breakLink .exact (some l) a sz.bytes = none ↔
      ∃ x, a ≤ x ∧ x < a + sz.bytes ∧ l.addr.toNat ≤ x ∧ x < l.addr.toNat + l.size.bytes :=
  (breakLink_eq_none_iff _ _ _ _).trans (runs_meet_iff (bytes_pos sz) (bytes_pos l.size))

/-- Under a block granule a write breaks the link when they meet a common block. -/
theorem breakLink_block_eq_none_iff (k : Nat) :
    breakLink (.block k) (some l) a sz.bytes = none ↔
      ∃ x y, a ≤ x ∧ x < a + sz.bytes ∧ l.addr.toNat ≤ y ∧ y < l.addr.toNat + l.size.bytes ∧ x / 2 ^ k = y / 2 ^ k := by
  have hp : 0 < 2 ^ k := Nat.two_pow_pos k
  have hn : 0 < sz.bytes := bytes_pos sz
  have hfirst : a < l.watchEnd (.block k) ↔ a / 2 ^ k ≤ (l.addr.toNat + l.size.bytes - 1) / 2 ^ k := by
    rw [Link.watchEnd, ← Nat.div_lt_iff_lt_mul hp, Nat.lt_succ_iff]
  have hlast : l.watchStart (.block k) < a + sz.bytes ↔ l.addr.toNat / 2 ^ k ≤ (a + sz.bytes - 1) / 2 ^ k := by
    rw [Link.watchStart, Nat.le_div_iff_mul_le hp]
    omega
  rw [breakLink_eq_none_iff, hfirst, hlast]
  exact runs_meet_block_iff hp hn (bytes_pos l.size)

/-- A write to the linked bytes themselves breaks the link, whatever the granule is. -/
theorem breakLink_self (g : LinkGranule) : breakLink g (some l) l.addr.toNat l.size.bytes = none := by
  have hm : 0 < l.size.bytes := bytes_pos l.size
  cases g with
  | exact => exact (breakLink_exact_eq_none_iff l _ l.size).2 ⟨l.addr.toNat, by omega, by omega, by omega, by omega⟩
  | block k =>
    exact (breakLink_block_eq_none_iff l _ l.size k).2
      ⟨l.addr.toNat, l.addr.toNat, by omega, by omega, by omega, by omega, rfl⟩

end

/-! ## A write by another agent -/

section
variable {s : State} {w : ExtWrite}

theorem externalWrite_backed (h : s.accessible (alignTo w.size (truncX s.cfg w.addr)) w.size = true) :
    externalWrite s w = s.poke (alignTo w.size (truncX s.cfg w.addr)) w.size w.value := if_pos h

theorem externalWrite_unbacked (h : s.accessible (alignTo w.size (truncX s.cfg w.addr)) w.size = false) :
    externalWrite s w = s := if_neg (Bool.eq_false_iff.1 h)

/-- With one write in a step's input, the step receives that write and the request. -/
theorem takeInput_write {irq : Option Word} {rest : List StepInput} (h : s.inputs = ⟨irq, [w]⟩ :: rest) :
    takeInput s = (irq, externalWrite { s with inputs := rest } w) := by
  simp [takeInput, h]

end

/-- Settles O17: the two granules on single bytes, and the write of another agent as a `poke`, which leaves the bytes that
`MemWrite` leaves. -/
theorem linkBreaks : Obligations.LinkBreaks := by
  unfold Obligations.LinkBreaks
  refine ⟨fun l a sz k => ⟨breakLink_exact_eq_none_iff l a sz, breakLink_cases _ _ _ _,
    breakLink_block_eq_none_iff l a sz k, breakLink_cases _ _ _ _⟩, fun s w => ?_⟩
  refine ⟨fun hb => ?_, externalWrite_unbacked, fun irq rest => takeInput_write⟩
  obtain ⟨hbytes, hother, -, -⟩ := memStored_of_memWrite (s := s)
    (t := s.memWrite (alignTo w.size (truncX s.cfg w.addr)) w.size w.value) rfl rfl rfl
  rw [externalWrite_backed hb]
  exact ⟨hbytes, hother, rfl, rfl⟩

end Sys2Proof.Machine
end

