-- ==== Sys2Proof/Proofs/Atomics.lean ====
section
/-! PROOF. The atomic instructions at backed addresses: one lemma for each shared operation, at every size (46_atomic.md
R301 to R355, 47_srm64.md R430 to R448). -/

namespace Sys2Proof.Machine

/-! ## Load and link -/

section
variable {i : Instr} {s : State} {sz : Size} {rd rs1 : Reg}

/-- An LL.x at a backed address gives the datum there and the link to it. -/
theorem givesLink_of_loadLink {sg : Bool} (h : exec i s = loadLink sz sg rd rs1 s)
    (ha : s.accessible (alignTo sz (s.readReg rs1)) sz = true) :
    givesLink i s rd (datumAt s.cfg s.mem (alignTo sz (s.readReg rs1)).toNat sz sg) (alignTo sz (s.readReg rs1)) sz := by
  refine ⟨_, h.trans (if_pos ha), fun r => ?_, ?_, rfl, ?_, ?_, ?_⟩
  · rw [← widen_readLE]
    exact (s.readReg_setReg rd r _).trans (by rw [truncX_widen]; rfl)
  · simp [memKept]
  · simp [systemKept]
  · simp [outsideKept]
  · simp [advanced]

end

/-- Settles O53: each LL.x gives the datum of its size and extension, and each word is that of its instruction. -/
theorem loadAndLink : Obligations.LoadAndLink := by
  unfold Obligations.LoadAndLink
  intro rd rs1 s
  exact ⟨givesLink_of_loadLink (sg := false) rfl, givesLink_of_loadLink (sg := false) rfl,
    givesLink_of_loadLink (sg := false) rfl, givesLink_of_loadLink (sg := true) rfl,
    givesLink_of_loadLink (sg := true) rfl, givesLink_of_loadLink (sg := false) rfl,
    givesLink_of_loadLink (sg := true) rfl,
    decodeWord_of_encode_eq (by decide) (by decide), by decide,
    decodeWord_of_encode_eq (by decide) (by decide), by decide,
    decodeWord_of_encode_eq (by decide) (by decide), by decide,
    decodeWord_of_encode_eq (by decide) (by decide), by decide,
    decodeWord_of_encode_eq (by decide) (by decide), by decide,
    decodeWord_of_encode_eq (by decide) (by decide), by decide,
    decodeWord_of_encode_eq (by decide) (by decide), by decide⟩

/-! ## Store conditional -/

theorem truncX_one (c : Config) : truncX c 1 = 1 := truncX_setWidth c 1#1 (by decide)

/-- The overlap of two accesses is a common byte. -/
theorem overlap_iff (a b : Nat) (sz sz' : Size) :
    overlap a sz.bytes b sz'.bytes = true ↔ ∃ x, a ≤ x ∧ x < a + sz.bytes ∧ b ≤ x ∧ x < b + sz'.bytes := by
  rw [overlap, Bool.and_eq_true, decide_eq_true_eq, decide_eq_true_eq]
  exact runs_meet_iff (bytes_pos sz) (bytes_pos sz')

section
variable {i : Instr} {s : State} {sz : Size} {rd rs1 rs2 : Reg}

/-! ### The shared operation, by what the link is -/

theorem storeConditional_matching (hl : s.link = some ⟨s.atomAddr sz rs1, sz⟩)
    (ha : s.accessible (s.atomAddr sz rs1) sz = true) :
    storeConditional sz rd rs1 rs2 s = .next ((s.memWrite (s.atomAddr sz rs1) sz (s.readReg rs2)).setReg rd 1) := by
  simp [storeConditional, hl, ha]

theorem storeConditional_unlinked (hl : s.link = none) : storeConditional sz rd rs1 rs2 s = .next (s.setReg rd 0) := by
  simp [storeConditional, hl]

theorem storeConditional_mismatched {l : Link} (hl : s.link = some l) (hne : l ≠ ⟨s.atomAddr sz rs1, sz⟩) :
    storeConditional sz rd rs1 rs2 s =
      if overlap (s.atomAddr sz rs1).toNat sz.bytes l.addr.toNat l.size.bytes then .refused .scMismatch
      else .next (s.setReg rd 0) := by
  simp [storeConditional, hl, hne]

/-! ### Its frames -/

/-- An SC.x on the linked address and size stores and gives 1. -/
theorem givesRegAndStore_of_storeConditional (h : exec i s = storeConditional sz rd rs1 rs2 s)
    (hl : s.link = some ⟨alignTo sz (s.readReg rs1), sz⟩) (ha : s.accessible (alignTo sz (s.readReg rs1)) sz = true) :
    givesRegAndStore i s rd 1 (alignTo sz (s.readReg rs1)).toNat sz.bytes (s.readReg rs2) :=
  givesRegAndStore_of_setReg (h.trans (storeConditional_matching hl ha)) (truncX_one _)

/-- An SC.x without a link gives 0. -/
theorem givesReg_of_storeConditional_unlinked (h : exec i s = storeConditional sz rd rs1 rs2 s) (hl : s.link = none) :
    givesReg i s rd 0 :=
  givesReg_of_setReg (h.trans (storeConditional_unlinked hl)) (truncX_zero _)

/-- An SC.x that does not match the link gives 0 where they are apart, and is refused where they share a byte. -/
theorem storeConditional_mismatched_cases (h : exec i s = storeConditional sz rd rs1 rs2 s) {l : Link}
    (hl : s.link = some l) (hne : l ≠ ⟨alignTo sz (s.readReg rs1), sz⟩) :
    ((∀ x, (alignTo sz (s.readReg rs1)).toNat ≤ x → x < (alignTo sz (s.readReg rs1)).toNat + sz.bytes →
        x < l.addr.toNat ∨ l.addr.toNat + l.size.bytes ≤ x) → givesReg i s rd 0) ∧
      ((∃ x, (alignTo sz (s.readReg rs1)).toNat ≤ x ∧ x < (alignTo sz (s.readReg rs1)).toNat + sz.bytes ∧
        l.addr.toNat ≤ x ∧ x < l.addr.toNat + l.size.bytes) → exec i s = .refused .scMismatch) := by
  rw [storeConditional_mismatched hl hne] at h
  constructor
  · intro hapart
    refine givesReg_of_setReg (h.trans (if_neg fun hover => ?_)) (truncX_zero _)
    obtain ⟨x, hax, hxa, hlx, hxl⟩ := (overlap_iff _ _ _ _).1 hover
    have := hapart x hax hxa
    omega
  · exact fun hshared => h.trans (if_pos ((overlap_iff _ _ _ _).2 hshared))

end

/-- Settles O54: for each size, the link matches, is none, or does not match. -/
theorem storeConditional_spec : Obligations.StoreConditional := by
  unfold Obligations.StoreConditional
  intro rd rs1 rs2 s
  exact ⟨givesRegAndStore_of_storeConditional rfl, givesReg_of_storeConditional_unlinked rfl,
    fun _ => storeConditional_mismatched_cases rfl,
    givesRegAndStore_of_storeConditional rfl, givesReg_of_storeConditional_unlinked rfl,
    fun _ => storeConditional_mismatched_cases rfl,
    givesRegAndStore_of_storeConditional rfl, givesReg_of_storeConditional_unlinked rfl,
    fun _ => storeConditional_mismatched_cases rfl,
    givesRegAndStore_of_storeConditional rfl, givesReg_of_storeConditional_unlinked rfl,
    fun _ => storeConditional_mismatched_cases rfl⟩

/-! ## An SC.x after an LL.x -/

section
variable {s t : State} {sz : Size} {sg : Bool} {rd rd' rs1 rs2 : Reg}

/-- A completed LL.x that left its address register as it was leaves the link that an SC.x of the same size matches, at a
backed address. -/
theorem link_of_loadLink (h : loadLink sz sg rd rs1 s = .next t) (hrd : rd = rs1 → rd = 0) :
    t.link = some ⟨t.atomAddr sz rs1, sz⟩ ∧ t.accessible (t.atomAddr sz rs1) sz = true := by
  obtain ⟨ha, ht⟩ := loadLink_next h
  have hreg : t.readReg rs1 = s.readReg rs1 := by
    rw [ht]
    exact (s.readReg_setReg rd rs1 _).trans (if_neg fun hr => hr.2 (hrd hr.1.symm))
  have haddr : t.atomAddr sz rs1 = s.atomAddr sz rs1 := congrArg (alignTo sz) hreg
  have hcfg : t.cfg = s.cfg := by rw [ht, State.setReg_cfg]
  rw [haddr, State.accessible, hcfg]
  exact ⟨by rw [ht], ha⟩

/-- The register that an SC.x fails into reads 0, r0 too. -/
theorem State.readReg_setReg_zero (s : State) (r : Reg) : (s.setReg r 0).readReg r = 0 := by
  by_cases h0 : r = 0
  · rw [h0]
    exact State.readReg_zero _
  · rw [State.readReg_setReg, if_pos ⟨rfl, h0⟩]
    exact truncX_zero _

/-- After the LL.x the first SC.x succeeds and breaks the link by its own store, and the second finds no link. -/
theorem storeConditional_after_loadLink (h : loadLink sz sg rd rs1 s = .next t) (hrd : rd = rs1 → rd = 0) :
    ∃ u, storeConditional sz rd' rs1 rs2 t = .next u ∧ u.link = none ∧ (rd' ≠ 0 → u.readReg rd' = 1) ∧
      ∃ w, storeConditional sz rd' rs1 rs2 u = .next w ∧ w.readReg rd' = 0 := by
  obtain ⟨hl, ha⟩ := link_of_loadLink h hrd
  have hbroken : ((t.memWrite (t.atomAddr sz rs1) sz (t.readReg rs2)).setReg rd' 1).link = none := by
    rw [State.setReg_link, State.memWrite_link, hl]
    exact breakLink_self _ _
  refine ⟨_, storeConditional_matching hl ha, hbroken, fun h0 => ?_, _, storeConditional_unlinked hbroken,
    State.readReg_setReg_zero _ _⟩
  rw [State.readReg_setReg, if_pos ⟨rfl, h0⟩, truncX_one]

end

/-- Settles O59: the seven LL.x, each with the SC.x of its size. -/
theorem linkThenStore : Obligations.LinkThenStore := by
  unfold Obligations.LinkThenStore
  intro rd rd' rs1 rs2 s
  and_intros <;> exact fun _ => storeConditional_after_loadLink

/-! ## Compare and exchange -/

/-- Widening to a word loses nothing. -/
theorem setWidth_word_inj {w : Nat} (hw : w ≤ 64) {x y : BitVec w} : x.setWidth 64 = y.setWidth 64 ↔ x = y := by
  rw [← BitVec.toNat_inj, BitVec.toNat_setWidth_of_le hw, BitVec.toNat_setWidth_of_le hw, BitVec.toNat_inj]

section
variable {i : Instr} {s : State} {sz : Size} {rd rs1 rs2 : Reg} {d : BitVec (8 * sz.bytes)}

/-- An ACMPXCHG.x at a backed address stores when the low bits of `rd` are the datum there, and gives the datum. -/
theorem compareExchange_cases (h : exec i s = compareExchange sz rd rs1 rs2 s)
    (hd : s.memRead (s.atomAddr sz rs1) sz = d.setWidth 64)
    (ha : s.accessible (alignTo sz (s.readReg rs1)) sz = true) :
    ((s.readReg rd).extractLsb' 0 (8 * sz.bytes) = d →
        givesRegAndStore i s rd (datumAt s.cfg s.mem (alignTo sz (s.readReg rs1)).toNat sz false)
          (alignTo sz (s.readReg rs1)).toNat sz.bytes (s.readReg rs2)) ∧
      ((s.readReg rd).extractLsb' 0 (8 * sz.bytes) ≠ d →
        givesReg i s rd (datumAt s.cfg s.mem (alignTo sz (s.readReg rs1)).toNat sz false)) := by
  have hequal : lowBytes sz (s.readReg rd) = s.memRead (s.atomAddr sz rs1) sz ↔
      (s.readReg rd).extractLsb' 0 (8 * sz.bytes) = d := by
    rw [lowBytes_eq_extractLsb', hd, setWidth_word_inj (Nat.mul_le_mul_left 8 (bytes_le_eight sz))]
  have hexec := h.trans (if_pos ha)
  rw [← widen_readLE]
  constructor
  · intro heq
    rw [if_pos (hequal.2 heq)] at hexec
    exact givesRegAndStore_of_setReg hexec (truncX_widen _ _ _ _)
  · intro hne
    rw [if_neg (mt hequal.1 hne)] at hexec
    exact givesReg_of_setReg hexec (truncX_widen _ _ _ _)

end

/-- Settles O55: the datum of each size is what the access reads, widened. -/
theorem compareAndExchange : Obligations.CompareAndExchange := by
  unfold Obligations.CompareAndExchange
  intro rd rs1 rs2 s
  exact ⟨compareExchange_cases rfl (s.mem.readLE_one _), compareExchange_cases rfl (s.mem.readLE_two _),
    compareExchange_cases rfl (s.mem.readLE_four _),
    compareExchange_cases rfl ((s.mem.readLE_eight _).trans (BitVec.setWidth_eq _).symm)⟩

/-! ## Exchange and operate -/

section
variable {i : Instr} {s : State} {sz : Size} {sg : Bool} {rd rs1 rs2 : Reg} {op : Word → Word → Word}

/-- An AX*.x at a backed address leaves the old `rd` there, and gives its operation on the datum and `rs2`. -/
theorem givesRegAndStore_of_exchangeOperate (h : exec i s = exchangeOperate op sz sg rd rs1 rs2 s)
    (ha : s.accessible (alignTo sz (s.readReg rs1)) sz = true) :
    givesRegAndStore i s rd
      (truncX s.cfg (op (datumAt s.cfg s.mem (alignTo sz (s.readReg rs1)).toNat sz sg) (s.readReg rs2)))
      (alignTo sz (s.readReg rs1)).toNat sz.bytes (s.readReg rd) := by
  rw [← widen_readLE]
  exact givesRegAndStore_of_setReg (h.trans (if_pos ha)) rfl

theorem signedX_maxX (c : Config) (e v : Word) : signedX c (maxX c e v) = max (signedX c e) (signedX c v) := by
  rw [maxX, max_def_lt, apply_ite (signedX c)]

theorem signedX_minX (c : Config) (e v : Word) : signedX c (minX c e v) = min (signedX c e) (signedX c v) := by
  rw [minX, min_comm, min_def_lt, apply_ite (signedX c)]

/-- An AXMAX.x gives a value that is the larger as a signed number. -/
theorem givesMax_of_exchangeOperate (h : exec i s = exchangeOperate (maxX s.cfg) sz sg rd rs1 rs2 s)
    (ha : s.accessible (alignTo sz (s.readReg rs1)) sz = true) :
    ∃ r, signedX s.cfg r = max (signedX s.cfg (datumAt s.cfg s.mem (alignTo sz (s.readReg rs1)).toNat sz sg))
        (signedX s.cfg (s.readReg rs2)) ∧
      givesRegAndStore i s rd (truncX s.cfg r) (alignTo sz (s.readReg rs1)).toNat sz.bytes (s.readReg rd) :=
  ⟨_, signedX_maxX _ _ _, givesRegAndStore_of_exchangeOperate h ha⟩

/-- An AXMIN.x gives a value that is the smaller as a signed number. -/
theorem givesMin_of_exchangeOperate (h : exec i s = exchangeOperate (minX s.cfg) sz sg rd rs1 rs2 s)
    (ha : s.accessible (alignTo sz (s.readReg rs1)) sz = true) :
    ∃ r, signedX s.cfg r = min (signedX s.cfg (datumAt s.cfg s.mem (alignTo sz (s.readReg rs1)).toNat sz sg))
        (signedX s.cfg (s.readReg rs2)) ∧
      givesRegAndStore i s rd (truncX s.cfg r) (alignTo sz (s.readReg rs1)).toNat sz.bytes (s.readReg rd) :=
  ⟨_, signedX_minX _ _ _, givesRegAndStore_of_exchangeOperate h ha⟩

end

/-- Settles O56: sum and difference, in the seven forms of size and extension. -/
theorem exchangeAndAdd : Obligations.ExchangeAndAdd := by
  unfold Obligations.ExchangeAndAdd
  intro rd rs1 rs2 s
  and_intros <;> exact givesRegAndStore_of_exchangeOperate rfl

/-- Settles O57: the three bitwise operations, in the seven forms of size and extension. -/
theorem exchangeAndBitwise : Obligations.ExchangeAndBitwise := by
  unfold Obligations.ExchangeAndBitwise
  intro rd rs1 rs2 s
  and_intros <;> exact givesRegAndStore_of_exchangeOperate rfl

/-- Settles O58: the larger and the smaller, in the seven forms of size and extension. -/
theorem exchangeAndMaxMin : Obligations.ExchangeAndMaxMin := by
  unfold Obligations.ExchangeAndMaxMin
  intro rd rs1 rs2 s
  exact ⟨givesMax_of_exchangeOperate rfl, givesMax_of_exchangeOperate rfl, givesMax_of_exchangeOperate rfl,
    givesMax_of_exchangeOperate rfl, givesMax_of_exchangeOperate rfl, givesMax_of_exchangeOperate rfl,
    givesMax_of_exchangeOperate rfl, givesMin_of_exchangeOperate rfl, givesMin_of_exchangeOperate rfl,
    givesMin_of_exchangeOperate rfl, givesMin_of_exchangeOperate rfl, givesMin_of_exchangeOperate rfl,
    givesMin_of_exchangeOperate rfl, givesMin_of_exchangeOperate rfl⟩

end Sys2Proof.Machine
end

