-- ==== Sys2Proof/Proofs/QwordArithmetic.lean ====
section
/-! PROOF. The arithmetic in the 64-bit context (47_srm64.md R387 to R413). The facts about the operations are those of
the 32-bit context, which are stated at every width; here are the extended immediate and the results at 64 bits. -/

namespace Sys2Proof.Machine

/-! ## The extended immediate -/

theorem imm64_getLsbD (imm : BitVec 12) {k : Nat} (hk : k < 64) : (imm64 imm).getLsbD k = imm.getLsbD (min k 11) :=
  signExtend_getLsbD_min imm hk

/-- An amount below 64 in the immediate is that amount in the 64-bit context. -/
theorem imm64_toNat_of_lt {imm : BitVec 12} (h : imm.toNat < 64) : (imm64 imm).toNat = imm.toNat :=
  toNat_signExtend_of_lt imm (by decide) (by omega)

theorem imm64_toNat (imm : BitVec 12) : (imm64 imm).toNat = (imm.toInt % 2 ^ 64).toNat := BitVec.toNat_ofInt _

theorem imm64_toInt (imm : BitVec 12) : (imm64 imm).toInt = imm.toInt := BitVec.toInt_signExtend_of_le (by decide)

/-! ## Results of the 64-bit context -/

section
variable {i : Instr} {s : State} {rd rs1 : Reg} {b : Word}

theorem givesBits64_of_arith64 {op : Word → Word → Word} {bit : Nat → Bool}
    (h : exec i s = .next (arith64 op rd rs1 b s)) (hbit : ∀ k, k < 64 → (op (s.readReg rs1) b).getLsbD k = bit k) :
    givesBits64 i s rd bit :=
  ⟨_, hbit, givesReg_of_arith64 h⟩

/-- A truth value has `XLEN` bits. -/
theorem truncX_boolBits (c : Config) (p : Prop) [Decidable p] :
    truncX c (boolBits (w := 64) (decide p)) = if p then 1 else 0 := by
  by_cases hp : p
  · rw [decide_eq_true hp, if_pos hp]
    exact truncX_one c
  · rw [decide_eq_false hp, if_neg hp]
    exact truncX_zero c

/-- An instruction that writes a truth value about 64-bit operands. -/
theorem givesReg_of_boolBits64 {test : Word → Word → Bool} {p : Prop} [Decidable p]
    (h : exec i s = .next (arith64 (fun x y => boolBits (test x y)) rd rs1 b s))
    (ht : test (s.readReg rs1) b = decide p) : givesReg i s rd (if p then 1 else 0) := by
  rw [← truncX_boolBits s.cfg p, ← ht]
  exact givesReg_of_arith64 (op := fun x y => boolBits (test x y)) h

end

/-! ## The instructions -/

/-- Settles O21: each shift bit by bit, the amount a whole register or the immediate. -/
theorem qwordShiftsBelowWidth : Obligations.QwordShiftsBelowWidth := by
  unfold Obligations.QwordShiftsBelowWidth
  intro rd rs1 rs2 imm s
  exact ⟨fun h => givesBits64_of_arith64 rfl fun k _ => aluShr_getLsbD _ rfl h k,
    fun h => givesBits64_of_arith64 rfl fun _ hk => aluAsr_getLsbD _ rfl h hk,
    fun h => givesBits64_of_arith64 rfl fun _ hk => aluShl_getLsbD _ rfl h hk,
    fun h => givesBits64_of_arith64 rfl fun k _ => aluShr_getLsbD _ (imm64_toNat_of_lt h) h k,
    fun h => givesBits64_of_arith64 rfl fun _ hk => aluAsr_getLsbD _ (imm64_toNat_of_lt h) h hk,
    fun h => givesBits64_of_arith64 rfl fun _ hk => aluShl_getLsbD _ (imm64_toNat_of_lt h) h hk⟩

/-- Settles O26: the sum and the difference of `BitVec` are the wrapped ones of the operands as numbers. -/
theorem qwordAddSubtract : Obligations.QwordAddSubtract := by
  unfold Obligations.QwordAddSubtract
  intro rd rs1 rs2 imm s
  dsimp only
  rw [← BitVec.add_def, ← sub_eq_ofInt, ← add_signExtend_eq_ofInt]
  exact ⟨givesReg_of_arith64 rfl, givesReg_of_arith64 rfl, givesReg_of_arith64 rfl,
    decodeWord_of_encode_eq (by decide) (by decide), by decide,
    decodeWord_of_encode_eq (by decide) (by decide), by decide,
    decodeWord_of_encode_eq (by decide) (by decide), by decide⟩

/-- Settles O27: the operations of `BitVec` bit by bit, and the bits of the extended immediate. -/
theorem qwordBitwise : Obligations.QwordBitwise := by
  unfold Obligations.QwordBitwise
  intro rd rs1 rs2 imm s
  exact ⟨givesBits64_of_arith64 rfl fun _ _ => BitVec.getLsbD_and,
    givesBits64_of_arith64 rfl fun _ _ => BitVec.getLsbD_or,
    givesBits64_of_arith64 rfl fun _ _ => BitVec.getLsbD_xor,
    givesBits64_of_arith64 rfl fun _ hk => by rw [BitVec.getLsbD_and, imm64_getLsbD imm hk],
    givesBits64_of_arith64 rfl fun _ hk => by rw [BitVec.getLsbD_or, imm64_getLsbD imm hk],
    givesBits64_of_arith64 rfl fun _ hk => by rw [BitVec.getLsbD_xor, imm64_getLsbD imm hk],
    decodeWord_of_encode_eq (by decide) (by decide), by decide,
    decodeWord_of_encode_eq (by decide) (by decide), by decide,
    decodeWord_of_encode_eq (by decide) (by decide), by decide,
    decodeWord_of_encode_eq (by decide) (by decide), by decide,
    decodeWord_of_encode_eq (by decide) (by decide), by decide,
    decodeWord_of_encode_eq (by decide) (by decide), by decide⟩

/-- Settles O28: bit 64 of the sum and of the difference, and the signed order, as comparisons of numbers; the extended
immediate is read unsigned modulo `2^64` or signed (D6). -/
theorem qwordComparisons : Obligations.QwordComparisons := by
  unfold Obligations.QwordComparisons
  intro rd rs1 rs2 imm s
  dsimp only
  rw [← imm64_toNat, ← imm64_toInt]
  exact ⟨givesReg_of_boolBits64 rfl (carryOut_eq _ _), givesReg_of_boolBits64 rfl (borrowOut_eq _ _),
    givesReg_of_boolBits64 rfl rfl,
    givesReg_of_boolBits64 rfl (carryOut_eq _ _), givesReg_of_boolBits64 rfl (borrowOut_eq _ _),
    givesReg_of_boolBits64 rfl rfl⟩

/-- Settles O30: the low half is the wrapped product, and the upper halves are the exact products divided by `2^64`. -/
theorem qwordMultiply : Obligations.QwordMultiply := by
  unfold Obligations.QwordMultiply
  intro rd rs1 rs2 s
  dsimp only
  rw [← mul_eq_ofNat, ← aluMulh_eq, ← aluSmulh_eq]
  exact ⟨givesReg_of_arith64 rfl, givesReg_of_arith64 rfl, givesReg_of_arith64 rfl,
    decodeWord_of_encode_eq (by decide) (by decide), by decide,
    decodeWord_of_encode_eq (by decide) (by decide), by decide,
    decodeWord_of_encode_eq (by decide) (by decide), by decide⟩

end Sys2Proof.Machine
end

/-! PROOF. The causes of external requests: what waits, what is taken and what the trap entry records (60_exceptions.md R462,
R472 to R474). -/

namespace Sys2Proof.Machine

/-! ## Requests -/

/-- The model's enforcement of R474: an input with a reserved cause is no request. -/
theorem requestOf_reserved {c : Config} {id : Word} (h : (truncX c id).toNat ≤ 4) : requestOf c (some id) = none :=
  if_neg (Nat.not_lt.2 h)

/-- The sampling sees of its input only the request that it supplies. -/
theorem sampleIrq_congr {irq irq' : Option Word} {s : State} (h : requestOf s.cfg irq = requestOf s.cfg irq') :
    sampleIrq irq s = sampleIrq irq' s := by
  simp only [sampleIrq, h]

/-- What waits at a step was in the queue or is the new request. -/
theorem mem_of_mem_waiting {policy : IrqPolicy} {pending : List Word} {irq : Option Word} {c : Word}
    (h : c ∈ waiting policy pending irq) : c ∈ pending ++ irq.toList := by
  cases policy with
  | ignore => exact List.mem_append_right _ h
  | queue depth => exact h

/-! ## Legal causes -/

section
variable {s : State}

/-- Where the queue holds legal causes, so does the queue with the new request. -/
theorem State.irqCausesFree.of_mem_append (h : s.irqCausesFree) {irq : Option Word} {c : Word}
    (hc : c ∈ s.pending ++ (requestOf s.cfg irq).toList) : fitsX s.cfg c ∧ 4 < c.toNat := by
  obtain hold | hnew := List.mem_append.1 hc
  · exact h c hold
  · exact requestOf_eq_some (Option.mem_toList.1 hnew)

theorem State.irqCausesFree.taken (h : s.irqCausesFree) {irq : Option Word} {c : Word}
    (hc : (Machine.sampleIrq irq s).1 = some c) : fitsX s.cfg c ∧ 4 < c.toNat := by
  obtain ⟨-, hwaited⟩ := sampleIrq_spec irq s
  obtain ⟨-, -, hmem⟩ := hwaited c hc
  exact h.of_mem_append (mem_of_mem_waiting hmem)

theorem State.irqCausesFree.sampleIrq (h : s.irqCausesFree) (irq : Option Word) :
    (Machine.sampleIrq irq s).2.irqCausesFree := by
  obtain ⟨⟨p, hp⟩, -⟩ := sampleIrq_spec irq s
  have hcfg : (Machine.sampleIrq irq s).2.cfg = s.cfg := by rw [hp]
  intro c hc
  rw [hcfg]
  exact h.of_mem_append (mem_of_mem_sampleIrq_pending hc)

/-- The writes of other agents change neither the queue nor the width of its causes. -/
theorem State.irqCausesFree.takeInput (h : s.irqCausesFree) : (Machine.takeInput s).2.irqCausesFree := by
  rw [takeInput_eq]
  exact h

theorem State.irqCausesFree.received (h : s.irqCausesFree) {c : Word} (hc : s.received.1 = some c) :
    fitsX s.cfg c ∧ 4 < c.toNat := by
  have hcfg : (Machine.takeInput s).2.cfg = s.cfg := by rw [takeInput_eq]
  rw [← hcfg]
  exact h.takeInput.taken hc

/-! ## The cause that the trap entry records -/

/-- The register that holds the cause is kcause from User mode and mcause from above it (R472). -/
theorem takeTrap_cause {c : Word} {t : State} (h : takeTrap c s = .next t) :
    if s.priv = 0 then t.csr.kcause = truncX s.cfg c else t.csr.mcause = truncX s.cfg c := by
  obtain ⟨hs, rfl⟩ | ⟨hs, rfl⟩ := takeTrap_next h
  · rw [if_pos hs]
    rfl
  · have hnotUser : s.priv ≠ 0 := by obtain hs | hs := hs <;> rw [hs] <;> decide
    rw [if_neg hnotUser]
    rfl

/-- A step that takes a request is the trap entry with its cause. -/
theorem step_of_taken {c : Word} {s' : State} (h : s.received = (some c, s')) : step s = takeTrap c s' := by
  change stepWith s.received.1 s.received.2 = takeTrap c s'
  rw [h, stepWith]

/-- A step that takes a request of `XLEN` bits leaves exactly its cause. -/
theorem step_cause {c : Word} {s' t : State} (hreceived : s.received = (some c, s')) (hfits : fitsX s.cfg c)
    (ht : step s = .next t) : if s.priv = 0 then t.csr.kcause = c else t.csr.mcause = c := by
  obtain rfl : s.received.2 = s' := congrArg Prod.snd hreceived
  have hcause := takeTrap_cause ((step_of_taken hreceived).symm.trans ht)
  rwa [State.received_priv, State.received_cfg, show truncX s.cfg c = c from hfits] at hcause

end

/-! ## The statement -/

/-- Settles O44: the queue and the new request hold legal causes alone, the one taken is among them, and the trap entry
records it. -/
theorem requestCausesAreFree : Obligations.RequestCausesAreFree := by
  unfold Obligations.RequestCausesAreFree
  intro s
  refine ⟨fun id hid => sampleIrq_congr (requestOf_reserved hid),
    fun hfree => ⟨fun irq c => hfree.taken, hfree.sampleIrq, fun c s' t htaken ht => ?_⟩⟩
  obtain ⟨hfits, hlegal⟩ := hfree.received (congrArg Prod.fst htaken)
  exact ⟨hlegal, step_cause htaken hfits ht⟩

end Sys2Proof.Machine
